-- ==== Sys2Proof/Word.lean ====
section
/-! DEFINITION. The word types of the block and the small closed sets of names the spec uses everywhere:
the two units, the two encode alphabets and the three decode modes. -/

namespace Sys2Proof

/-- A byte: the cell of every space, a symbol of encoded text, a command word (R38, R90, R100). -/
abbrev Byte := BitVec 8

/-- A 6-bit value, "a symbol's position in its alphabet" (R15). -/
abbrev Sextet := BitVec 6

/-- The 24-bit group that three bytes and four sextets are two views of (R61, R95). -/
abbrev Group := BitVec 24

/-- The two hardware units (R20). -/
inductive UnitId where
  /-- The ENC unit, `E`, unit number 0. -/
  | enc
  /-- The DEC unit, `D`, unit number 1. -/
  | dec
deriving DecidableEq, Repr

/-- The two encode alphabets (R2, R37). -/
inductive Alphabet where
  /-- Standard: `+` and `/`, padded. -/
  | std
  /-- URL-safe: `-` and `_`, unpadded. -/
  | url
deriving DecidableEq, Repr

/-- The three decode modes (R10, R37). -/
inductive Mode where
  /-- Standard alphabet. -/
  | std
  /-- URL-safe alphabet. -/
  | url
  /-- Mixed: the union of the two (R125), decode only (R2). -/
  | mix
deriving DecidableEq, Repr

end Sys2Proof
end

