-- ==== Sys2Proof/Config.lean ====
section
/-! DEFINITION. The parameters of the block (R9) and the free values. A parameter is a field of `Params`, which the
state carries, so that a claim about every state is a claim about every value of every parameter (log entry 1). A
free value is a constant without a body, applied to a counter of the unit it is drawn for (log entry 4): nothing can
evaluate it, so whatever is proved holds for every draw. -/

namespace Sys2Proof

/-- `URL_PAD_KIND`, the kind DEC.URL reports for a trailing `=` (R9, R187). -/
inductive UrlPadKind where
  | fmt
  | ichr
deriving DecidableEq, Repr, Inhabited

/-- `JOINT_ERR_POLICY`, the kind reported when several decoder checks fail (R9, R201). -/
inductive JointErrPolicy where
  | inOrder
  | anyApplicable
deriving DecidableEq, Repr

/-- `DST_RESIDUE`, what destination bytes the contract does not name hold (R9, R70). -/
inductive DstResidue where
  | unspecified
  | reference
deriving DecidableEq, Repr

/-- The parameters of R9. Lengths, capacities and indexes are natural numbers held `<= maxLen`: no rule ever wraps
one (R147). -/
structure Params where
  /-- `LENW`, the width in bits of every length, capacity and index register. -/
  lenW : Nat
  /-- `SRC_SIZE`, the bytes physically present in a unit's SRC space. -/
  srcSize : Nat
  /-- `DST_SIZE`, the bytes physically present in a unit's DST space. -/
  dstSize : Nat
  urlPadKind : UrlPadKind
  jointErr : JointErrPolicy
  dstResidue : DstResidue
  /-- `PIPE_DEPTH`, the number of stages of a unit, one valid bit each (R34, R35). -/
  pipeDepth : Nat
  /-- `REG_BASE`, used by no rule but the bus address of R25. -/
  regBase : Nat
  /-- `REG_STRIDE`, used by no rule but the bus address of R25. -/
  regStride : Nat
deriving DecidableEq, Repr

/-- `MAXLEN = 2^LENW - 1`, the source's "maximum representable size" (R9). -/
def Params.maxLen (p : Params) : Nat := 2 ^ p.lenW - 1

/-- The value of the OPEN parameter `URL_PAD_KIND` in the reset state: R9 suggests none, so none is chosen. -/
opaque Config.urlPadKind : UrlPadKind

/-- The value of the OPEN parameter `REG_BASE` in the reset state. -/
opaque Config.regBase : Nat

/-- The value of the OPEN parameter `REG_STRIDE` in the reset state. -/
opaque Config.regStride : Nat

/-- A free byte: what a destination byte the contract does not name holds (R70, U3, U4). -/
opaque Config.freeByte : UnitId → Nat → Byte

/-- A free number: what an internal register holds after an operation has ended (R270, U11), cut to its width. -/
opaque Config.freeNat : UnitId → Nat → Nat

/-- A free choice: which applicable kind is reported under `any_applicable` (R201, U1). -/
opaque Config.freePick : UnitId → Nat → Nat

/-- A free answer: whether the host's `allocate` succeeds (R228, U15). -/
opaque Config.freeAlloc : UnitId → Nat → Bool

/-- The parameter values of the reset state: the suggested, reference or decided value of R9 where it gives one, an
opaque constant where it gives none (log entry 1). -/
def Params.suggested : Params where
  lenW := 32
  srcSize := 2 ^ 32
  dstSize := 2 ^ 32
  urlPadKind := Config.urlPadKind
  jointErr := .inOrder
  dstResidue := .unspecified
  pipeDepth := 4
  regBase := Config.regBase
  regStride := Config.regStride

end Sys2Proof
end

