-- ==== Sys2Proof/Syntax.lean ====
section
/-! DEFINITION. The instructions: one constructor per row of spec/opcode_table.json (R3, R92). No instruction has an
immediate or a register field (R94), so no constructor has an argument. -/

namespace Sys2Proof

/-- The five operations of the block (R3). -/
inductive Instr where
  /-- `ENC.STD`, encode-standard (R161). -/
  | encStd
  /-- `ENC.URL`, encode-url (R162). -/
  | encUrl
  /-- `DEC.STD`, decode-standard (R198). -/
  | decStd
  /-- `DEC.URL`, decode-url (R199). -/
  | decUrl
  /-- `DEC.MIX`, decode-mixed (R200). -/
  | decMix
deriving DecidableEq, Repr

end Sys2Proof
end

