-- ==== Sys2Proof/WellFormed.lean ====
section
/-! DEFINITION. Well-formedness. An instruction has no operand (R94), so every instruction is well-formed; what can be
ill-formed is a command word (R91, R93) and a choice of the parameters (R9). -/

namespace Sys2Proof

/-- Every instruction is well-formed: it has no field that could be out of range (R94). -/
def Instr.wf : Instr → Bool
  | .encStd | .encUrl | .decStd | .decUrl | .decMix => true

/-- R93 (a): the reserved bits 7:3 are zero. -/
def CommandWord.reservedClear (w : Byte) : Bool := w.extractLsb' 3 5 == 0

/-- R93 (c): the selector is not the reserved `11`. -/
def CommandWord.selectorKnown (w : Byte) : Bool := w.extractLsb' 0 2 != 3

/-- R93 (b): not encode with the Mixed selector, which is "decode-only". -/
def CommandWord.mixedOnlyDecodes (w : Byte) : Bool := !(w.extractLsb' 2 1 == 0 && w.extractLsb' 0 2 == 2)

/-- A command word that selects an instruction (R92, R93). -/
def CommandWord.wf (w : Byte) : Bool :=
  CommandWord.reservedClear w && CommandWord.selectorKnown w && CommandWord.mixedOnlyDecodes w

/-- `LENW >= 4` (R9). -/
def Params.widthOk (p : Params) : Bool := decide (4 ≤ p.lenW)

/-- `SRC_SIZE` and `DST_SIZE` are in `0 .. 2^LENW` (R9). -/
def Params.sizesOk (p : Params) : Bool := decide (p.srcSize ≤ 2 ^ p.lenW) && decide (p.dstSize ≤ 2 ^ p.lenW)

/-- `PIPE_DEPTH >= 1` (R9). -/
def Params.depthOk (p : Params) : Bool := decide (1 ≤ p.pipeDepth)

/-- The parameters are in the ranges of R9. -/
def Params.wf (p : Params) : Bool := p.widthOk && p.sizesOk && p.depthOk

end Sys2Proof
end

