-- ==== Sys2Proof/Decode.lean ====
section
/-! DEFINITION. The decoder of the command word, total on every byte and every list of bytes and rejecting by name,
and the encoder (R90 to R93; machine-readable copy: spec/opcode_table.json). -/

namespace Sys2Proof

/-- Why a command word selects no instruction (R93). -/
inductive DecodeError where
  /-- No byte to decode. -/
  | noWord
  /-- R93 (a): `RSV != 0`. -/
  | reservedBits
  /-- R93 (c): the reserved selector `11`. -/
  | reservedSelector
  /-- R93 (b): encode with the Mixed selector. -/
  | encodeMixed
deriving DecidableEq, Repr

/-- Field `RSV`, bits 7:3 (R91). -/
def fieldRsv (w : Byte) : BitVec 5 := w.extractLsb' 3 5

/-- Field `DIR`, bit 2: 0 encode, 1 decode (R91). -/
def fieldDir (w : Byte) : BitVec 1 := w.extractLsb' 2 1

/-- Field `ALPHA`, bits 1:0: `00` Standard, `01` URL-safe, `10` Mixed, `11` reserved (R91). -/
def fieldAlpha (w : Byte) : BitVec 2 := w.extractLsb' 0 2

/-- The instruction a command word selects (R92), or why it selects none (R93). -/
def decode (w : Byte) : Except DecodeError Instr :=
  if fieldRsv w ≠ 0 then .error .reservedBits
  else if fieldDir w = 0 then
    if fieldAlpha w = 0 then .ok .encStd
    else if fieldAlpha w = 1 then .ok .encUrl
    else if fieldAlpha w = 2 then .error .encodeMixed
    else .error .reservedSelector
  else
    if fieldAlpha w = 0 then .ok .decStd
    else if fieldAlpha w = 1 then .ok .decUrl
    else if fieldAlpha w = 2 then .ok .decMix
    else .error .reservedSelector

/-- The instruction at the head of a list of bytes, with the bytes after it. Every instruction is one byte (R90). -/
def decodeBytes : List Byte → Except DecodeError (Instr × List Byte)
  | [] => .error .noWord
  | w :: rest =>
    match decode w with
    | .ok i => .ok (i, rest)
    | .error e => .error e

/-- The unit whose number is the instruction's `DIR` (R92). -/
def Instr.unit : Instr → UnitId
  | .encStd | .encUrl => .enc
  | .decStd | .decUrl | .decMix => .dec

/-- The unit whose number is the word's `DIR` bit (R91, R92): the unit a word is meant for. -/
def wordUnit (w : Byte) : UnitId := if fieldDir w = 0 then .enc else .dec

/-- `DIR` of an instruction (R91). -/
def encodeDir : Instr → BitVec 1
  | .encStd | .encUrl => 0
  | .decStd | .decUrl | .decMix => 1

/-- `ALPHA` of an instruction (R91). -/
def encodeAlpha : Instr → BitVec 2
  | .encStd | .decStd => 0
  | .encUrl | .decUrl => 1
  | .decMix => 2

/-- The command word of an instruction: `RSV = 00000`, `DIR`, `ALPHA` (R91). -/
def encode (i : Instr) : Byte := (0 : BitVec 5) ++ encodeDir i ++ encodeAlpha i

/-- The bytes of an instruction: its one command word (R90). -/
def encodeBytes (i : Instr) : List Byte := [encode i]

/-- The instruction the unit `u` accepts for the word `w`: a legal word whose `DIR` is the unit's number (R92,
R93 (d)). -/
def accepted (u : UnitId) (w : Byte) : Option Instr :=
  match decode w with
  | .ok i => if i.unit = u then some i else none
  | .error _ => none

/-- The instruction the decoder reads from a row of `nbits` bits whose value is `w`, numbered as
spec/opcode_table.json numbers them; a value that does not fit the one command byte is no instruction. -/
def decodeTableWord (nbits w : Nat) : Option Instr :=
  let bits := w % 2 ^ nbits
  if bits < 256 then
    match decodeBytes [BitVec.ofNat 8 bits] with
    | .ok (i, _) => some i
    | .error _ => none
  else none

end Sys2Proof
end

