-- ==== Sys2Proof/Machine/State.lean ====
section
/-! DEFINITION. The state of one instance of the block: everything 10_state.md gives the two units, the parameters of
R9, and, as plain data, what the outside world does next and what it has been told. -/

namespace Sys2Proof.Machine

/-- A byte space: pairs of index and byte, strictly rising by index. A cell that is not listed holds no value (R40,
R68). -/
abbrev Mem := List Host.Cell

/-- `U.PHASE`, the control state of a unit (R30). -/
inductive Phase where
  /-- After reset, no result present. -/
  | idle
  /-- An operation is in progress. -/
  | run
  /-- An operation has ended and its result is present. -/
  | done
deriving DecidableEq, Repr

/-- The source's seven error kinds (R14, R261). Success is the absence of one. -/
inductive ErrKind where
  | iarg
  | fmt
  | ichr
  | iseq
  | cap
  | nomem
  | ovf
deriving DecidableEq, Repr

/-- The registers of a unit that the host cannot read: the latches of R32, the index registers of R33 and the stage
valid bits of R34 and R35. -/
structure Hidden where
  /-- `U.OP`, the DIR and ALPHA fields of the command word. -/
  op : BitVec 3
  /-- `U.N`, copy of SRC_LEN (`m` in the decoder's rules). -/
  n : Nat
  /-- `U.CAP`, copy of DST_CAP. -/
  cap : Nat
  /-- `U.IPOS`, the index in U.SRC of the next byte not yet consumed. -/
  ipos : Nat
  /-- `U.OPOS`, the index in U.DST of the next byte not yet written. -/
  opos : Nat
  /-- One valid bit per pipeline stage. -/
  valid : List Bool
deriving DecidableEq, Repr

/-- What both units have (R22: "exists once per unit"). -/
structure CodecUnit where
  /-- `U.CMD`, register 0 (R26). -/
  cmd : Byte
  /-- `U.SRC_LEN`, register 1 (R27). -/
  srcLen : Nat
  /-- `U.DST_CAP`, register 2 (R28). -/
  dstCap : Nat
  /-- `U.PHASE` (R30); `STATUS.BUSY` and `STATUS.DONE` are views of it. -/
  phase : Phase
  /-- `STATUS.ERR`, bits 7:4 of register 3 (R29). -/
  err : BitVec 4
  /-- `U.DST_LEN`, register 4 (R31). -/
  dstLen : Nat
  hid : Hidden
  /-- The space U.SRC (R38). -/
  src : Mem
  /-- The space U.DST (R38). -/
  dst : Mem
  /-- The model's own: how many free values have been drawn for this unit (log entry 4). -/
  draw : Nat
deriving DecidableEq, Repr

/-- The encoder's datapath registers (R34). -/
structure EncData where
  grp : Group
  nb : BitVec 2
  s0 : Sextet
  s1 : Sextet
  s2 : Sextet
  s3 : Sextet
  c0 : Byte
  c1 : Byte
  c2 : Byte
  c3 : Byte
deriving DecidableEq, Repr

/-- The decoder's datapath registers (R35). -/
structure DecData where
  p : BitVec 2
  l : Nat
  y0 : Byte
  y1 : Byte
  y2 : Byte
  y3 : Byte
  v0 : BitVec 7
  v1 : BitVec 7
  v2 : BitVec 7
  v3 : BitVec 7
  grp : Group
deriving DecidableEq, Repr

/-- The five registers of a unit's bank (R25). -/
inductive Reg where
  | cmd
  | srcLen
  | dstCap
  | status
  | dstLen
deriving DecidableEq, Repr

/-- The two byte spaces of a unit (R38). -/
inductive Space where
  | src
  | dst
deriving DecidableEq, Repr

/-- The allocating pseudo-operations of the host (R103, R228, R229). -/
inductive Pseudo where
  | encStdA
  | encUrlA
  | decStdA
  | decUrlA
  | decMixA
deriving DecidableEq, Repr

/-- What can happen next: a host action (R104), one step of a unit (R160, R196), or a reset (R300). -/
inductive Move where
  /-- `WR U.REG, v`. A write of CMD issues the command and runs the operation to DONE in this one move, the atomic
  transition R165 and R204 allow. -/
  | write (u : UnitId) (r : Reg) (v : Nat)
  /-- `WR U.CMD, w`, of which only the step `Issue(U, w)` of R222 is taken; the unit's own steps follow. -/
  | issue (u : UnitId) (w : Byte)
  /-- `RD U.REG`. -/
  | read (u : UnitId) (r : Reg)
  /-- `WRM U.SRC[i] = bytes` (`WRM U.DST[i]` where the host fills a destination, R225). -/
  | writeMem (u : UnitId) (sp : Space) (i : Nat) (bytes : List Byte)
  /-- `RDM U.DST[i .. i + n - 1]` (or of U.SRC). -/
  | readMem (u : UnitId) (sp : Space) (i n : Nat)
  /-- `POLL U`: read STATUS until it has DONE = 1. -/
  | poll (u : UnitId)
  /-- One step of the unit's own (R160, R196). -/
  | unitStep (u : UnitId)
  /-- An allocating pseudo-operation on the given source bytes (R228, R229). -/
  | pseudo (p : Pseudo) (bytes : List Byte)
  /-- The platform applies reset (R300). -/
  | reset
deriving DecidableEq, Repr

/-- What the host got back. -/
inductive Reply where
  /-- The value a register read returned. -/
  | value (v : Nat)
  /-- The bytes a memory read returned. -/
  | bytes (bs : List Byte)
  /-- A pseudo-operation succeeded: the result is the first `len` bytes of the buffer. -/
  | success (len : Nat)
  /-- A pseudo-operation failed, with the code of its kind. -/
  | failure (code : BitVec 4)
deriving DecidableEq, Repr

/-- A buffer that an allocating pseudo-operation has handed to its caller (R231): the unit it was filled by, its size,
and the bytes the contract names, the result and its terminator (R69); its other bytes are named by nothing. It is the
caller's own: no later operation touches it. -/
structure OwnedBuffer where
  unit : UnitId
  size : Nat
  bytes : List Byte
deriving DecidableEq, Repr

/-- The whole state. -/
structure State where
  /-- The parameters of R9; no step changes them. -/
  cfg : Params
  enc : CodecUnit
  encData : EncData
  dec : CodecUnit
  decData : DecData
  /-- The model's own: what happens next, first first (log entry 5). -/
  moves : List Move
  /-- The model's own: what the host has been told, oldest first (log entry 5). -/
  replies : List Reply
  /-- The model's own: every buffer handed to the caller by a pseudo-operation, oldest first (R231, log entry 19). -/
  owned : List OwnedBuffer
deriving DecidableEq, Repr

/-- Why the machine stops with a fault. -/
inductive Fault where
  /-- An operation needs a source byte at an index below SRC_LEN that nothing has written since reset: raised by the
  five instructions and the unit steps (R68, R313). Safe: the hardware would go on with some byte. -/
  | unwrittenSource (u : UnitId)
  /-- The host reads a byte that nothing has written since reset: raised by host memory reads (R40). Safe. -/
  | unwrittenRead (u : UnitId) (sp : Space) (i : Nat)
  /-- The host names a cell that does not exist: raised by host memory reads and writes (R38). Safe. -/
  | noSuchCell (u : UnitId) (sp : Space) (i : Nat)
deriving DecidableEq, Repr

/-- Why a move has no meaning. -/
inductive Refusal where
  /-- An instruction that has no meaning yet: raised only in the arms of exec. Safe. -/
  | notModelled (mnemonic : String)
  /-- A host access that R310 gives no meaning to because the unit's BUSY is 1: raised by command writes (the five
  instructions among them), register writes, memory writes, and reads of DST and DST_LEN, each named by R310. Safe. -/
  | hostAccessWhileBusy (u : UnitId)
  /-- A host write to STATUS or DST_LEN, which are read only (R25): raised by register writes. Safe. -/
  | readOnlyRegister (u : UnitId) (r : Reg)
  /-- A value that does not fit the register it is written to (R25): raised by register writes and
  pseudo-operations. Safe. -/
  | valueTooWide (u : UnitId) (r : Reg) (v : Nat)
deriving DecidableEq, Repr

/-- The latches and index registers after reset: the spec leaves them unspecified, 0 is the model's (log entry 2);
the stage valid bits are 0 (R40). -/
def Hidden.reset (p : Params) : Hidden where
  op := 0
  n := 0
  cap := 0
  ipos := 0
  opos := 0
  valid := List.replicate p.pipeDepth false

/-- A unit after reset (R40). -/
def CodecUnit.reset (p : Params) : CodecUnit where
  cmd := 0
  srcLen := 0
  dstCap := 0
  phase := .idle
  err := 0
  dstLen := 0
  hid := Hidden.reset p
  src := []
  dst := []
  draw := 0

/-- The encoder's datapath after reset: unspecified by R40, 0 is the model's (log entry 2). -/
def EncData.reset : EncData where
  grp := 0
  nb := 0
  s0 := 0
  s1 := 0
  s2 := 0
  s3 := 0
  c0 := 0
  c1 := 0
  c2 := 0
  c3 := 0

/-- The decoder's datapath after reset: unspecified by R40, 0 is the model's (log entry 2). -/
def DecData.reset : DecData where
  p := 0
  l := 0
  y0 := 0
  y1 := 0
  y2 := 0
  y3 := 0
  v0 := 0
  v1 := 0
  v2 := 0
  v3 := 0
  grp := 0

/-- The block after reset, for any values of the parameters (R40, R300). -/
def State.resetWith (p : Params) : State where
  cfg := p
  enc := CodecUnit.reset p
  encData := EncData.reset
  dec := CodecUnit.reset p
  decData := DecData.reset
  moves := []
  replies := []
  owned := []

/-- The block right after reset, with the parameter values of `Params.suggested`. -/
def State.reset : State := State.resetWith Params.suggested

end Sys2Proof.Machine
end

