-- ==== Sys2Proof/Machine/Flags.lean ====
section
/-! DEFINITION. The block's only flags: the fields of STATUS, and the codes of the error kinds (R29, R261). -/

namespace Sys2Proof.Machine

/-- The code of an error kind in `STATUS.ERR` (R261). -/
def ErrKind.code : ErrKind → BitVec 4
  | .iarg => 1
  | .fmt => 2
  | .ichr => 3
  | .iseq => 4
  | .cap => 5
  | .nomem => 6
  | .ovf => 7

/-- The code of success, `OK` (R261). -/
def codeOk : BitVec 4 := 0

/-- `STATUS.BUSY`: equal to `PHASE = RUN` (R29). -/
def CodecUnit.busy (x : CodecUnit) : Bool := x.phase == .run

/-- `STATUS.DONE`: equal to `PHASE = DONE` (R29). -/
def CodecUnit.isDone (x : CodecUnit) : Bool := x.phase == .done

/-- `U.STATUS` as the host reads it: `ERR` in bits 7:4, bits 3:2 zero, `DONE` bit 1, `BUSY` bit 0 (R29). -/
def CodecUnit.status (x : CodecUnit) : BitVec 8 :=
  x.err ++ (0 : BitVec 2) ++ BitVec.ofBool x.isDone ++ BitVec.ofBool x.busy

end Sys2Proof.Machine
end

