-- ==== Sys2Proof/Machine/Tables.lean ====
section
/-! DEFINITION. The alphabet tables, constants of the block (R37, R120 to R129). Entries 0 to 61 and the ASCII codes
are the spec's from general knowledge (93_implementation_defined.md G1, G2). -/

namespace Sys2Proof.Machine

/-- The pad symbol `=` (R100, R122). -/
def padSymbol : Byte := 0x3D

/-- The null terminator (R69, R122). -/
def terminator : Byte := 0x00

/-- `ENC_TAB[a][s]` in the closed form of R121. -/
def encTab (a : Alphabet) (s : Sextet) : Byte :=
  if s ≤ 25 then 0x41 + s.setWidth 8
  else if s ≤ 51 then 0x61 + (s.setWidth 8 - 26)
  else if s ≤ 61 then 0x30 + (s.setWidth 8 - 52)
  else match a with
    | .std => if s = 62 then 0x2B else 0x2F
    | .url => if s = 62 then 0x2D else 0x5F

/-- The entries the two alphabets share: the letter and digit rows of R124. -/
def decCommon (c : Byte) : Option Sextet :=
  if 0x30 ≤ c ∧ c ≤ 0x39 then some ((c - 0x30 + 52).setWidth 6)
  else if 0x41 ≤ c ∧ c ≤ 0x5A then some ((c - 0x41).setWidth 6)
  else if 0x61 ≤ c ∧ c ≤ 0x7A then some ((c - 0x61 + 26).setWidth 6)
  else none

/-- `DEC_TAB[mode][c]` by the rows of R124; `none` is `INVALID` (R126). -/
def decTab (mode : Mode) (c : Byte) : Option Sextet :=
  match mode with
  | .std => if c = 0x2B then some 62 else if c = 0x2F then some 63 else decCommon c
  | .url => if c = 0x2D then some 62 else if c = 0x5F then some 63 else decCommon c
  | .mix =>
    if c = 0x2B ∨ c = 0x2D then some 62 else if c = 0x2F ∨ c = 0x5F then some 63 else decCommon c

/-- The 7-bit form in which the reference decoder holds a table entry: bit 6 set for `INVALID`, else clear with the
value in bits 5:0 (R126). -/
def tabWord : Option Sextet → BitVec 7
  | none => 0x40
  | some v => v.setWidth 7

end Sys2Proof.Machine
end

