-- ==== Sys2Proof/Machine/Ops.lean ====
section
/-! DEFINITION. The named operations over memory and registers, the start of an operation, and its two ends: `raise`,
which is how this block takes an exception (R270), and `finish` (R271). There is no return from an exception: the next
command write is what follows one (R277). -/

namespace Sys2Proof.Machine

/-! ### Byte spaces -/

/-- The canonical form: indexes strictly rising. -/
abbrev Mem.wf (m : Mem) : Prop := m.Pairwise (fun a b => a.1 < b.1)

/-- The byte at an index, `none` where the cell holds no value (R40). -/
def Mem.read : Mem → Nat → Option Byte
  | [], _ => none
  | (a, v) :: m, x => if x = a then some v else Mem.read m x

/-- Write one byte (`MemWrite` of R12). -/
def Mem.write : Mem → Nat → Byte → Mem
  | [], x, v => [(x, v)]
  | (a, w) :: m, x, v =>
    if x < a then (x, v) :: (a, w) :: m
    else if x = a then (x, v) :: m
    else (a, w) :: Mem.write m x v

/-- Write consecutive bytes from an index upward, in increasing index order (R74). -/
def Mem.writeBytes : Mem → Nat → List Byte → Mem
  | m, _, [] => m
  | m, x, b :: bs => Mem.writeBytes (Mem.write m x b) (x + 1) bs

/-- `n` consecutive bytes from an index upward, `none` if one of them holds no value. -/
def Mem.readBytes (m : Mem) : Nat → Nat → Option (List Byte)
  | _, 0 => some []
  | x, n + 1 =>
    match m.read x with
    | none => none
    | some b =>
      match Mem.readBytes m (x + 1) n with
      | none => none
      | some bs => some (b :: bs)

/-! ### Registers -/

/-- The registers and spaces of a unit. -/
def State.unit (s : State) : UnitId → CodecUnit
  | .enc => s.enc
  | .dec => s.dec

/-- Replace the registers and spaces of a unit. -/
def State.setUnit (s : State) : UnitId → CodecUnit → State
  | .enc, x => { s with enc := x }
  | .dec, x => { s with dec := x }

/-- Register number within a bank (R25). -/
def Reg.number : Reg → Nat
  | .cmd => 0
  | .srcLen => 1
  | .dstCap => 2
  | .status => 3
  | .dstLen => 4

/-- Unit number: ENC 0, DEC 1 (R25, R92). -/
def unitNumber : UnitId → Nat
  | .enc => 0
  | .dec => 1

/-- The bus address of a register: `REG_BASE + (8*u + k) * REG_STRIDE` (R25). -/
def regAddr (p : Params) (u : UnitId) (r : Reg) : Nat :=
  p.regBase + (8 * unitNumber u + r.number) * p.regStride

/-- The number of cells of a space that exist (R38). -/
def cells (p : Params) : Space → Nat
  | .src => min p.srcSize (2 ^ p.lenW)
  | .dst => min p.dstSize (2 ^ p.lenW)

/-! ### Free values -/

/-- How many values are drawn for the internal registers when an operation ends. -/
def drawsPerEnd : Nat := 17

/-- A free `LENW`-bit number. -/
def freeLen (p : Params) (u : UnitId) (d : Nat) : Nat := Config.freeNat u d % 2 ^ p.lenW

/-- A free `w`-bit value. -/
def freeBits (w : Nat) (u : UnitId) (d : Nat) : BitVec w := BitVec.ofNat w (Config.freeNat u d)

/-- `n` free bytes. -/
def freeBytes (u : UnitId) (d n : Nat) : List Byte := (List.range n).map (fun k => Config.freeByte u (d + k))

/-- What the latches, index registers and stage valid bits hold after an operation: unspecified (R270, U11). -/
def freeHidden (p : Params) (u : UnitId) (d : Nat) : Hidden where
  op := freeBits 3 u d
  n := freeLen p u (d + 1)
  cap := freeLen p u (d + 2)
  ipos := freeLen p u (d + 3)
  opos := freeLen p u (d + 4)
  valid := (List.range p.pipeDepth).map (fun k => (Config.freeNat u (d + 5)).testBit k)

/-- What the encoder's datapath holds after an operation (R270, U11). -/
def freeEncData (d : Nat) : EncData where
  grp := freeBits 24 .enc (d + 6)
  nb := freeBits 2 .enc (d + 7)
  s0 := freeBits 6 .enc (d + 8)
  s1 := freeBits 6 .enc (d + 9)
  s2 := freeBits 6 .enc (d + 10)
  s3 := freeBits 6 .enc (d + 11)
  c0 := freeBits 8 .enc (d + 12)
  c1 := freeBits 8 .enc (d + 13)
  c2 := freeBits 8 .enc (d + 14)
  c3 := freeBits 8 .enc (d + 15)

/-- What the decoder's datapath holds after an operation (R270, U11). -/
def freeDecData (p : Params) (d : Nat) : DecData where
  p := freeBits 2 .dec (d + 6)
  l := freeLen p .dec (d + 7)
  y0 := freeBits 8 .dec (d + 8)
  y1 := freeBits 8 .dec (d + 9)
  y2 := freeBits 8 .dec (d + 10)
  y3 := freeBits 8 .dec (d + 11)
  v0 := freeBits 7 .dec (d + 12)
  v1 := freeBits 7 .dec (d + 13)
  v2 := freeBits 7 .dec (d + 14)
  v3 := freeBits 7 .dec (d + 15)
  grp := freeBits 24 .dec (d + 16)

/-! ### The start of an operation -/

/-- The initialisation at a command write: the word is stored and the latches, index registers, stage valid bits and
status are set (R155, R183, R222). -/
def CodecUnit.accept (p : Params) (w : Byte) (x : CodecUnit) : CodecUnit :=
  { x with
    cmd := w
    phase := .run
    err := codeOk
    dstLen := 0
    hid :=
      { op := w.extractLsb' 0 3
        n := x.srcLen
        cap := x.dstCap
        ipos := 0
        opos := 0
        valid := List.replicate p.pipeDepth false } }

/-- `CodecUnit.accept` on a unit of the state. -/
def State.accept (s : State) (u : UnitId) (w : Byte) : State := s.setUnit u ((s.unit u).accept s.cfg w)

/-- Is `SRC_LEN > SRC_SIZE` or `DST_CAP > DST_SIZE`, on the latched values (R262 (b), (c))? -/
def badSizes (p : Params) (x : CodecUnit) : Bool := decide (p.srcSize < x.hid.n) || decide (p.dstSize < x.hid.cap)

/-! ### The end of an operation -/

/-- The common end: `DST_LEN`, `STATUS.ERR`, `DONE` and the phase are set, the destination is as given, and the
internal registers hold free values afterwards (R270, R271, U11). -/
def CodecUnit.ended (p : Params) (u : UnitId) (code : BitVec 4) (len : Nat) (dst : Mem) (x : CodecUnit) : CodecUnit :=
  { x with
    phase := .done
    err := code
    dstLen := len
    dst := dst
    hid := freeHidden p u x.draw
    draw := x.draw + drawsPerEnd + x.hid.cap }

/-- Put the ended unit back, its datapath unspecified from then on (R270). -/
def State.endUnit (s : State) (u : UnitId) (code : BitVec 4) (len : Nat) (dst : Mem) : State :=
  match u with
  | .enc => { s with enc := s.enc.ended s.cfg .enc code len dst, encData := freeEncData s.enc.draw }
  | .dec => { s with dec := s.dec.ended s.cfg .dec code len dst, decData := freeDecData s.cfg s.dec.draw }

/-- The destination after a failure: unchanged for IARG, OVF and CAP (R71); for FMT, ICHR and ISEQ the bytes below the
capacity are free, or, under `reference`, as the sequencing left them (R70). NOMEM is never raised by a unit (R269). -/
def failDst (p : Params) (u : UnitId) (k : ErrKind) (x : CodecUnit) : Mem :=
  match k with
  | .fmt | .ichr | .iseq =>
    match p.dstResidue with
    | .unspecified => x.dst.writeBytes 0 (freeBytes u x.draw x.hid.cap)
    | .reference => x.dst
  | .iarg | .cap | .nomem | .ovf => x.dst

/-- The destination after a success: the terminator at `OPOS` (R69), and the bytes between it and the capacity free,
or, under `reference`, as they were (R70). -/
def finishDst (p : Params) (u : UnitId) (x : CodecUnit) : Mem :=
  let closed := x.dst.write x.hid.opos terminator
  match p.dstResidue with
  | .unspecified => closed.writeBytes (x.hid.opos + 1) (freeBytes u x.draw (x.hid.cap - (x.hid.opos + 1)))
  | .reference => closed

/-- `raise K`, the end of an operation on an error kind: this block's exception entry (R270). -/
def State.raise (s : State) (u : UnitId) (k : ErrKind) : State :=
  s.endUnit u k.code 0 (failDst s.cfg u k (s.unit u))

/-- `finish`, the end of an operation on success (R271). -/
def State.finish (s : State) (u : UnitId) : State :=
  s.endUnit u codeOk (s.unit u).hid.opos (finishDst s.cfg u (s.unit u))

/-- Write a result (or the part of one that has been committed) at index 0 and put `OPOS` behind it (R161, R198). -/
def State.putResult (s : State) (u : UnitId) (out : List Byte) : State :=
  let x := s.unit u
  s.setUnit u { x with dst := x.dst.writeBytes 0 out, hid := { x.hid with opos := out.length } }

/-- A command write that the unit does not accept: it ends at once with IARG, the word stored and nothing else changed
(R93, R262). -/
def illegalCommand (u : UnitId) (w : Byte) (s : State) : Host.Outcome State Fault Refusal :=
  if (s.unit u).busy then .refused (.hostAccessWhileBusy u)
  else .next ((s.accept u w).raise u .iarg)

/-- How the step of a command write leaves an operation: ended (by an error kind, a fault or a refusal), or running,
with the source bytes the operation is about. -/
inductive Start where
  | ended (o : Host.Outcome State Fault Refusal)
  | running (s : State) (src : List Byte)

end Sys2Proof.Machine
end

