-- ==== Sys2Proof/Machine/Operands.lean ====
section
/-! DEFINITION. What the five instructions take their operands through: the size calculator (R140 to R146), the views
of the 24-bit group (R95), the pad count (R187), and the source bytes (R94). -/

namespace Sys2Proof.Machine

/-! ### The size calculator -/

/-- `encoded_length(n) = ceil(n/3) * 4`, `none` for the overflow signal (R140). -/
def encodedLength (p : Params) (n : Nat) : Option Nat :=
  let q := (n + 2) / 3
  let e := q * 4
  if p.maxLen < e then none else some e

/-- `decoded_length(m) = floor(m*3/4)` (R143). -/
def decodedLength (m : Nat) : Nat := m * 3 / 4

/-- The pad count of an `n`-byte input (R146). -/
def pads (n : Nat) : Nat := (3 - n % 3) % 3

/-! ### The group -/

/-- The group of three bytes, first byte most significant (R61, R95). -/
def packBytes (b0 b1 b2 : Byte) : Group := b0 ++ b1 ++ b2

/-- The group of four sextets, first sextet most significant (R61, R95). -/
def packSextets (v0 v1 v2 v3 : Sextet) : Group := v0 ++ v1 ++ v2 ++ v3

/-- `G[23:18]`. -/
def sextet0 (g : Group) : Sextet := g.extractLsb' 18 6

/-- `G[17:12]`. -/
def sextet1 (g : Group) : Sextet := g.extractLsb' 12 6

/-- `G[11:6]`. -/
def sextet2 (g : Group) : Sextet := g.extractLsb' 6 6

/-- `G[5:0]`. -/
def sextet3 (g : Group) : Sextet := g.extractLsb' 0 6

/-- `G[23:16]`. -/
def byte0 (g : Group) : Byte := g.extractLsb' 16 8

/-- `G[15:8]`. -/
def byte1 (g : Group) : Byte := g.extractLsb' 8 8

/-- `G[7:0]`. -/
def byte2 (g : Group) : Byte := g.extractLsb' 0 8

/-! ### The pad count -/

/-- `p`, the number of consecutive `=` at the end of a text (R187). -/
def padCount (t : List Byte) : Nat := (t.reverse.takeWhile (· == padSymbol)).length

/-- The count the reference hardware makes: from the last `min(m, 3)` bytes only, so that 3 means three or more
(R187, D27). It is what the register D.P holds. -/
def padCountSaturated (t : List Byte) : Nat := ((t.reverse.take 3).takeWhile (· == padSymbol)).length

/-! ### The source bytes -/

/-- `U.SRC[0 .. N-1]`, `none` where a byte of it holds no value (R66, R68). -/
def sourceBytes (x : CodecUnit) : Option (List Byte) := x.src.readBytes 0 x.hid.n

end Sys2Proof.Machine
end

