-- ==== Sys2Proof/Machine/Decoder.lean ====
section
/-! DEFINITION. The DEC unit: `dec_bytes` (R181), the checks at the command write (R182, R184, R186, R187), which kind
is reported (R201), the three instructions (R198 to R200), and the reference sequencing (R183, R190 to R196). -/

namespace Sys2Proof.Machine

/-- The kind `URL_PAD_KIND` names (R9). -/
def padKind : UrlPadKind → ErrKind
  | .fmt => .fmt
  | .ichr => .ichr

/-- Step 1 of the validation order: the length is `1 mod 4` (R186). -/
def lengthBanned (m : Nat) : Bool := m % 4 == 1

/-- Step 2 of the validation order: what is wrong with the trailing pads (R187). -/
def padCheck (k : UrlPadKind) (mode : Mode) (t : List Byte) : Option ErrKind :=
  let p := padCount t
  match mode with
  | .url => if 1 ≤ p then some (padKind k) else none
  | .std | .mix =>
    if 2 < p then some .fmt
    else if 1 ≤ p ∧ t.length % 4 ≠ 0 then some .fmt
    else none

/-- The body: the text without its trailing pads. -/
def bodyOf (t : List Byte) : List Byte := t.take (t.length - padCount t)

/-- The values of some symbols, `none` if one of them is INVALID (R188, R191). `D` is the decode table of the mode. -/
def lookupAll (D : Byte → Option Sextet) : List Byte → Option (List Sextet)
  | [] => some []
  | c :: cs =>
    match D c with
    | none => none
    | some v =>
      match lookupAll D cs with
      | none => none
      | some vs => some (v :: vs)

/-- The bytes of the valid symbols of one group: a full group (R192), a three- or two-symbol tail with its bit-legality
check (R193 to R195), the empty tail; a dangling single symbol is treated as a lookup failure (R189). -/
def unpackGroup : List Sextet → Except ErrKind (List Byte)
  | [] => .ok []
  | [v0, v1] =>
    if v1.extractLsb' 0 4 ≠ 0 then .error .iseq
    else .ok [byte0 (packSextets v0 v1 0 0)]
  | [v0, v1, v2] =>
    if v2.extractLsb' 0 2 ≠ 0 then .error .iseq
    else
      let g := packSextets v0 v1 v2 0
      .ok [byte0 g, byte1 g]
  | [v0, v1, v2, v3] =>
    let g := packSextets v0 v1 v2 v3
    .ok [byte0 g, byte1 g, byte2 g]
  | _ => .error .ichr

/-- The bytes of one group of symbols, or the kind it fails with: every symbol is looked up before anything else is
asked of the group, so that ICHR comes before ISEQ (R188, R195). -/
def decGroup (D : Byte → Option Sextet) (ys : List Byte) : Except ErrKind (List Byte) :=
  match lookupAll D ys with
  | none => .error .ichr
  | some vs => unpackGroup vs

/-- Steps 3 to 5 over a body: the bytes of the groups before the first that fails, and its kind (R181, R192). -/
def decBody (D : Byte → Option Sextet) : List Byte → List Byte × Option ErrKind
  | c0 :: c1 :: c2 :: c3 :: rest =>
    match decGroup D [c0, c1, c2, c3] with
    | .error k => ([], some k)
    | .ok bs =>
      let r := decBody D rest
      (bs ++ r.1, r.2)
  | tail =>
    match decGroup D tail with
    | .error k => ([], some k)
    | .ok bs => (bs, none)

/-- `dec_bytes(t, m, mode)`, with `m` the length of the list (R181). -/
def decBytes (k : UrlPadKind) (mode : Mode) (t : List Byte) : Except ErrKind (List Byte) :=
  if lengthBanned t.length then .error .fmt
  else
    match padCheck k mode t with
    | some e => .error e
    | none =>
      match decBody (decTab mode) (bodyOf t) with
      | (out, none) => .ok out
      | (_, some e) => .error e

/-! ### Which kind is reported -/

/-- The last group of a body if it is a tail: its last `length mod 4` symbols. -/
def tailOf (body : List Byte) : List Byte := body.drop (body.length - body.length % 4)

/-- Are the unused bits of a tail whose symbols are all valid not zero (R195)? -/
def tailIllegal (D : Byte → Option Sextet) (tail : List Byte) : Bool :=
  match decGroup D tail with
  | .error .iseq => true
  | _ => false

/-- The kinds whose check the input violates, each check evaluated on its own (R201). In URL mode the illegal-character
check takes no trailing pad away, the bit check does (log entry 9). -/
def applicable (p : Params) (mode : Mode) (t : List Byte) (cap : Nat) : List ErrKind :=
  let m := t.length
  let n := padCount t
  let scanned := match mode with
    | .url => t
    | .std | .mix => bodyOf t
  let padBad := match mode with
    | .url => false
    | .std | .mix => decide (2 < n) || (decide (1 ≤ n) && decide (m % 4 ≠ 0))
  let urlPad := match mode with
    | .url => decide (1 ≤ n)
    | .std | .mix => false
  (if cap < decodedLength m + 1 then [ErrKind.cap] else [])
    ++ (if lengthBanned m || padBad then [ErrKind.fmt] else [])
    ++ (if urlPad then [padKind p.urlPadKind] else [])
    ++ (if scanned.any (fun c => (decTab mode c).isNone) then [ErrKind.ichr] else [])
    ++ (if tailIllegal (decTab mode) (tailOf (bodyOf t)) then [ErrKind.iseq] else [])

/-- One member of a list of kinds, chosen freely. -/
def pickKind (kinds : List ErrKind) (first : ErrKind) (d : Nat) : ErrKind :=
  kinds.getD (Config.freePick .dec d % kinds.length) first

/-- The kind a decode reports when `first` is the first failing check: that one under `in_order`, any applicable one
under `any_applicable` (R201, R266). `none` where the choice depends on a source byte that holds no value. -/
def reportKind (p : Params) (mode : Mode) (x : CodecUnit) (first : ErrKind) : Option ErrKind :=
  match p.jointErr with
  | .inOrder => some first
  | .anyApplicable =>
    match sourceBytes x with
    | none => none
    | some t => some (pickKind (applicable p mode t x.hid.cap) first x.draw)

/-- The end of a decode on a failing check (R201, R270). -/
def decFail (mode : Mode) (first : ErrKind) (s : State) : Host.Outcome State Fault Refusal :=
  match reportKind s.cfg mode s.dec first with
  | none => .fault (.unwrittenSource .dec)
  | some k => .next (s.raise .dec k)

/-! ### The instructions -/

/-- Load the pad count and the body length (R183). -/
def State.loadBody (s : State) (t : List Byte) : State :=
  { s with decData := { s.decData with p := BitVec.ofNat 2 (padCountSaturated t), l := t.length - padCount t } }

/-- The step of the command write of a decode instruction: IARG (R182), CAP (R184), FMT by length (R186), the pads
(R187), in that order on the latched values (R183). -/
def decStart (mode : Mode) (i : Instr) (s : State) : Start :=
  if s.dec.busy then .ended (.refused (.hostAccessWhileBusy .dec))
  else
    let s1 := s.accept .dec (encode i)
    let x := s1.dec
    if badSizes s1.cfg x then .ended (.next (s1.raise .dec .iarg))
    else if x.hid.cap < decodedLength x.hid.n + 1 then .ended (decFail mode .cap s1)
    else if lengthBanned x.hid.n then .ended (decFail mode .fmt s1)
    else
      match sourceBytes x with
      | none => .ended (.fault (.unwrittenSource .dec))
      | some t =>
        match padCheck s1.cfg.urlPadKind mode t with
        | some k => .ended (decFail mode k s1)
        | none => .running (s1.loadBody t) t

/-- A decode operation from its command write to DONE (R198 to R200, R204). A failing body has committed the groups
before the failing one (R192); what becomes of them is `failDst`. -/
def runDecode (mode : Mode) (i : Instr) (s : State) : Host.Outcome State Fault Refusal :=
  match decStart mode i s with
  | .ended o => o
  | .running s1 t =>
    match decBody (decTab mode) (bodyOf t) with
    | (out, none) => .next ((s1.putResult .dec out).finish .dec)
    | (out, some k) => decFail mode k (s1.putResult .dec out)

/-- `DEC.STD` (R198). -/
def execDecStd (s : State) : Host.Outcome State Fault Refusal := runDecode .std .decStd s

/-- `DEC.URL` (R199). -/
def execDecUrl (s : State) : Host.Outcome State Fault Refusal := runDecode .url .decUrl s

/-- `DEC.MIX` (R200). -/
def execDecMix (s : State) : Host.Outcome State Fault Refusal := runDecode .mix .decMix s

/-! ### The reference sequencing -/

/-- The step `Issue(D, w)` alone: after it either `PHASE = RUN`, or a check has failed and `PHASE = DONE` (R222). -/
def issueDecode (mode : Mode) (i : Instr) (s : State) : Host.Outcome State Fault Refusal :=
  match decStart mode i s with
  | .ended o => o
  | .running s1 _ => .next s1

/-- The mode latched in `D.OP[1:0]` (R191). -/
def opMode (op : BitVec 3) : Mode :=
  if op.extractLsb' 0 2 = 0 then .std else if op.extractLsb' 0 2 = 1 then .url else .mix

/-- FETCH and LOOKUP of up to four symbols; a register whose position the group does not have keeps what it held
(R190, R191). -/
def decFetch (mode : Mode) (ys : List Byte) (e : DecData) : DecData :=
  let y0 := ys.getD 0 e.y0
  let y1 := ys.getD 1 e.y1
  let y2 := ys.getD 2 e.y2
  let y3 := ys.getD 3 e.y3
  { e with
    y0 := y0
    y1 := y1
    y2 := y2
    y3 := y3
    v0 := if 0 < ys.length then tabWord (decTab mode y0) else e.v0
    v1 := if 1 < ys.length then tabWord (decTab mode y1) else e.v1
    v2 := if 2 < ys.length then tabWord (decTab mode y2) else e.v2
    v3 := if 3 < ys.length then tabWord (decTab mode y3) else e.v3 }

/-- PACK: the group of the looked-up values, missing sextets zero (R192 to R194). R192 loads D.GRP with a full group;
R193 and R194 name the tail's group `G` only: that a tail loads D.GRP with it is the model's choice (log entry 25). -/
def decPack (k : Nat) (e : DecData) : DecData :=
  let v (j : Nat) (w : BitVec 7) : Sextet := if j < k then w.setWidth 6 else 0
  { e with grp := packSextets (v 0 e.v0) (v 1 e.v1) (v 2 e.v2) (v 3 e.v3) }

/-- `dec_step`, one step of the DEC agent; nothing is enabled outside RUN (R196). -/
def decStep (s : State) : Host.Outcome State Fault Refusal :=
  let x := s.dec
  if x.busy then
    let r := s.decData.l - x.hid.ipos
    if r = 0 then .next (s.finish .dec)
    else
      match x.src.readBytes x.hid.ipos (min 4 r) with
      | none => .fault (.unwrittenSource .dec)
      | some ys =>
        let mode := opMode x.hid.op
        match decGroup (decTab mode) ys with
        | .error k => decFail mode k s
        | .ok bs =>
          .next { s with
            decData := decPack ys.length (decFetch mode ys s.decData)
            dec := { x with
              dst := x.dst.writeBytes x.hid.opos bs
              hid := { x.hid with ipos := x.hid.ipos + ys.length, opos := x.hid.opos + bs.length } } }
  else .next s

end Sys2Proof.Machine
end

