-- ==== Sys2Proof/Machine/Encoder.lean ====
section
/-! DEFINITION. The ENC unit: `enc_text` (R151), the checks at the command write (R152, R153, R156), the two
instructions (R161, R162), and the reference sequencing (R155, R158 to R160). -/

namespace Sys2Proof.Machine

/-- The pads that fill a Standard tail of `k` pad symbols; URL-safe pads nothing (R98, R99). -/
def tailPads (a : Alphabet) (k : Nat) : List Byte :=
  match a with
  | .std => List.replicate k padSymbol
  | .url => []

/-- `enc_text(b, n, a)`, with `n` the length of the list (R151). -/
def encText (a : Alphabet) : List Byte → List Byte
  | b0 :: b1 :: b2 :: rest =>
    let g := packBytes b0 b1 b2
    encTab a (sextet0 g) :: encTab a (sextet1 g) :: encTab a (sextet2 g) :: encTab a (sextet3 g) :: encText a rest
  | [b0, b1] =>
    let g := packBytes b0 b1 0
    [encTab a (sextet0 g), encTab a (sextet1 g), encTab a (sextet2 g)] ++ tailPads a 1
  | [b0] =>
    let g := packBytes b0 0 0
    [encTab a (sextet0 g), encTab a (sextet1 g)] ++ tailPads a 2
  | [] => []

/-- The checks of the command write, in their order, on the latched values: IARG (R152), OVF (R153), CAP (R156). -/
def encCheck (p : Params) (x : CodecUnit) : Option ErrKind :=
  if badSizes p x then some .iarg
  else
    match encodedLength p x.hid.n with
    | none => some .ovf
    | some e => if x.hid.cap < e + 1 then some .cap else none

/-- The step of the command write of an encode instruction (R155, R222). -/
def encStart (i : Instr) (s : State) : Start :=
  if s.enc.busy then .ended (.refused (.hostAccessWhileBusy .enc))
  else
    let s1 := s.accept .enc (encode i)
    match encCheck s1.cfg s1.enc with
    | some k => .ended (.next (s1.raise .enc k))
    | none =>
      match sourceBytes s1.enc with
      | none => .ended (.fault (.unwrittenSource .enc))
      | some b => .running s1 b

/-- An encode operation from its command write to DONE (R161, R162, R165). -/
def runEncode (a : Alphabet) (i : Instr) (s : State) : Host.Outcome State Fault Refusal :=
  match encStart i s with
  | .ended o => o
  | .running s1 b => .next ((s1.putResult .enc (encText a b)).finish .enc)

/-- `ENC.STD` (R161). -/
def execEncStd (s : State) : Host.Outcome State Fault Refusal := runEncode .std .encStd s

/-- `ENC.URL` (R162). -/
def execEncUrl (s : State) : Host.Outcome State Fault Refusal := runEncode .url .encUrl s

/-! ### The reference sequencing -/

/-- The step `Issue(E, w)` alone: after it either `PHASE = RUN`, or a check has failed and `PHASE = DONE` (R222). -/
def issueEncode (i : Instr) (s : State) : Host.Outcome State Fault Refusal :=
  match encStart i s with
  | .ended o => o
  | .running s1 _ => .next s1

/-- The alphabet latched in `E.OP[1:0]` (R159). -/
def opAlphabet (op : BitVec 3) : Alphabet := if op.extractLsb' 0 2 = 0 then .std else .url

/-- One character of a group: looked up for the positions `0 .. NB`; for the others a pad under Standard, and under
URL-safe nothing, so that the register keeps what it held (R159). -/
def groupChar (a : Alphabet) (nb k : Nat) (v : Sextet) (old : Byte) : Byte :=
  if k ≤ nb then encTab a v
  else match a with
    | .std => padSymbol
    | .url => old

/-- PACK, SPLIT and LOOKUP of the up to three bytes of a group, the missing ones zero (R158, R159). -/
def encGroup (a : Alphabet) (bs : List Byte) (e : EncData) : EncData :=
  let g := packBytes (bs.getD 0 0) (bs.getD 1 0) (bs.getD 2 0)
  { grp := g
    nb := BitVec.ofNat 2 bs.length
    s0 := sextet0 g
    s1 := sextet1 g
    s2 := sextet2 g
    s3 := sextet3 g
    c0 := groupChar a bs.length 0 (sextet0 g) e.c0
    c1 := groupChar a bs.length 1 (sextet1 g) e.c1
    c2 := groupChar a bs.length 2 (sextet2 g) e.c2
    c3 := groupChar a bs.length 3 (sextet3 g) e.c3 }

/-- The characters written for a group of `nb` bytes: all four under Standard, `NB + 1` under URL-safe (R159). -/
def groupOut (a : Alphabet) (nb : Nat) (e : EncData) : List Byte :=
  match a with
  | .std => [e.c0, e.c1, e.c2, e.c3]
  | .url => [e.c0, e.c1, e.c2, e.c3].take (nb + 1)

/-- `enc_step`, one step of the ENC agent; nothing is enabled outside RUN (R160). -/
def encStep (s : State) : Host.Outcome State Fault Refusal :=
  let x := s.enc
  if x.busy then
    let r := x.hid.n - x.hid.ipos
    if r = 0 then .next (s.finish .enc)
    else
      match x.src.readBytes x.hid.ipos (min 3 r) with
      | none => .fault (.unwrittenSource .enc)
      | some bs =>
        let a := opAlphabet x.hid.op
        let e := encGroup a bs s.encData
        let out := groupOut a bs.length e
        .next { s with
          encData := e
          enc := { x with
            dst := x.dst.writeBytes x.hid.opos out
            hid := { x.hid with ipos := x.hid.ipos + bs.length, opos := x.hid.opos + out.length } } }
  else .next s

end Sys2Proof.Machine
end

