-- ==== Sys2Proof/Machine/Dispatch.lean ====
section
/-! DEFINITION. The one dispatch from an instruction to its meaning. -/

namespace Sys2Proof.Machine

def exec (i : Instr) (s : State) : Host.Outcome State Fault Refusal :=
  match i with
  | .encStd => Sys2Proof.Machine.execEncStd s
  | .encUrl => Sys2Proof.Machine.execEncUrl s
  | .decStd => Sys2Proof.Machine.execDecStd s
  | .decUrl => Sys2Proof.Machine.execDecUrl s
  | .decMix => Sys2Proof.Machine.execDecMix s

end Sys2Proof.Machine
end

