-- ==== Sys2Proof/Machine/Waiting.lean ====
section
/-! DEFINITION. The units' own steps, and a host that waits for one of them (R104, R220, R223). -/

namespace Sys2Proof.Machine

/-- One step of a unit's own (R160, R196). -/
def unitStep : UnitId → State → Host.Outcome State Fault Refusal
  | .enc, s => encStep s
  | .dec, s => decStep s

/-- A unit in RUN takes its step, ENC before DEC; with none in RUN the run is over and nothing happens (R223, R235,
R290; that ENC goes first is log entry 18). -/
def idleStep (s : State) : Host.Outcome State Fault Refusal :=
  if s.enc.busy then encStep s
  else if s.dec.busy then decStep s
  else .next s

/-- The host waits with the move `m` for unit `u`: the move is back in front, and a unit takes its step meanwhile, `u`
if it is in RUN, else the other if that is in RUN, so that no unit in RUN is kept from DONE by the wait (R223; log entry
18). -/
def waitFor (u : UnitId) (m : Move) (s : State) : Host.Outcome State Fault Refusal :=
  let w := { s with moves := m :: s.moves }
  if (w.unit u).busy then unitStep u w else idleStep w

end Sys2Proof.Machine
end

