-- ==== Sys2Proof/Machine/HostPort.lean ====
section
/-! DEFINITION. What the host and the platform do to the block: register and memory accesses, command writes, the
allocating pseudo-operations, and reset (44_host_protocol.md, 70_reset_and_hazards.md). -/

namespace Sys2Proof.Machine

/-- The host is told something. -/
def State.reply (s : State) (r : Reply) : State := { s with replies := s.replies ++ [r] }

/-! ### Command writes -/

/-- A host write of CMD that runs the operation to DONE (R26, R165, R204, R222). -/
def commandWrite (u : UnitId) (w : Byte) (s : State) : Host.Outcome State Fault Refusal :=
  match accepted u w with
  | some i => exec i s
  | none => illegalCommand u w s

/-- The Issue step of an accepted instruction (R222). -/
def issue (i : Instr) (s : State) : Host.Outcome State Fault Refusal :=
  match i with
  | .encStd => issueEncode .encStd s
  | .encUrl => issueEncode .encUrl s
  | .decStd => issueDecode .std .decStd s
  | .decUrl => issueDecode .url .decUrl s
  | .decMix => issueDecode .mix .decMix s

/-- A host write of CMD of which only the step `Issue(U, w)` is taken (R222). -/
def issueWrite (u : UnitId) (w : Byte) (s : State) : Host.Outcome State Fault Refusal :=
  match accepted u w with
  | some i => issue i s
  | none => illegalCommand u w s

/-! ### Register accesses -/

/-- `WR U.REG, v` (R25 to R28, R224): while BUSY = 1 a write has no meaning (R310), STATUS and DST_LEN are read
only, and a value that does not fit the register cannot be written. -/
def hostWrite (u : UnitId) (r : Reg) (v : Nat) (s : State) : Host.Outcome State Fault Refusal :=
  let x := s.unit u
  match r with
  | .cmd => if v < 256 then commandWrite u (BitVec.ofNat 8 v) s else .refused (.valueTooWide u r v)
  | .srcLen =>
    if x.busy then .refused (.hostAccessWhileBusy u)
    else if v ≤ s.cfg.maxLen then .next (s.setUnit u { x with srcLen := v })
    else .refused (.valueTooWide u r v)
  | .dstCap =>
    if x.busy then .refused (.hostAccessWhileBusy u)
    else if v ≤ s.cfg.maxLen then .next (s.setUnit u { x with dstCap := v })
    else .refused (.valueTooWide u r v)
  | .status => .refused (.readOnlyRegister u r)
  | .dstLen => .refused (.readOnlyRegister u r)

/-- The value a host read of a register returns (R25 to R31). -/
def regValue (x : CodecUnit) : Reg → Nat
  | .cmd => x.cmd.toNat
  | .srcLen => x.srcLen
  | .dstCap => x.dstCap
  | .status => x.status.toNat
  | .dstLen => x.dstLen

/-- `RD U.REG`: STATUS may be read at any time (R224); DST_LEN not while BUSY = 1 (R310). -/
def hostRead (u : UnitId) (r : Reg) (s : State) : Host.Outcome State Fault Refusal :=
  let x := s.unit u
  if r = .dstLen ∧ x.busy then .refused (.hostAccessWhileBusy u)
  else .next (s.reply (.value (regValue x r)))

/-! ### Memory accesses -/

/-- A space of a unit. -/
def CodecUnit.space (x : CodecUnit) : Space → Mem
  | .src => x.src
  | .dst => x.dst

/-- Replace a space of a unit. -/
def CodecUnit.setSpace (x : CodecUnit) (sp : Space) (m : Mem) : CodecUnit :=
  match sp with
  | .src => { x with src := m }
  | .dst => { x with dst := m }

/-- `WRM U.SRC[i] = bytes`, or U.DST (R224, R225): not while BUSY = 1 (R310), and only cells that exist (R38). -/
def hostWriteMem (u : UnitId) (sp : Space) (i : Nat) (bytes : List Byte) (s : State) :
    Host.Outcome State Fault Refusal :=
  let x := s.unit u
  if x.busy then .refused (.hostAccessWhileBusy u)
  else if bytes = [] ∨ i + bytes.length ≤ cells s.cfg sp then
    .next (s.setUnit u (x.setSpace sp ((x.space sp).writeBytes i bytes)))
  else .fault (.noSuchCell u sp (max i (cells s.cfg sp)))

/-- The first index at or above `i` whose cell holds no value, among the next `n` (`i + n` if there is none). -/
def firstUnwritten (m : Mem) : Nat → Nat → Nat
  | i, 0 => i
  | i, n + 1 => if (m.read i).isNone then i else firstUnwritten m (i + 1) n

/-- `RDM U.DST[i .. i+n-1]`, or U.SRC: DST not while BUSY = 1 (R310), only cells that exist (R38), and only bytes that
hold a value (R40). -/
def hostReadMem (u : UnitId) (sp : Space) (i n : Nat) (s : State) : Host.Outcome State Fault Refusal :=
  let x := s.unit u
  if sp = .dst ∧ x.busy then .refused (.hostAccessWhileBusy u)
  else if n = 0 ∨ i + n ≤ cells s.cfg sp then
    match (x.space sp).readBytes i n with
    | some bs => .next (s.reply (.bytes bs))
    | none => .fault (.unwrittenRead u sp (firstUnwritten (x.space sp) i n))
  else .fault (.noSuchCell u sp (max i (cells s.cfg sp)))

/-! ### The allocating pseudo-operations -/

/-- The instruction a pseudo-operation expands to (R103). -/
def Pseudo.instr : Pseudo → Instr
  | .encStdA => .encStd
  | .encUrlA => .encUrl
  | .decStdA => .decStd
  | .decUrlA => .decUrl
  | .decMixA => .decMix

/-- The size the host computes before it allocates, `none` for the overflow signal (R228, R229). -/
def Pseudo.size (q : Pseudo) (p : Params) (n : Nat) : Option Nat :=
  match q with
  | .encStdA | .encUrlA => encodedLength p n
  | .decStdA | .decUrlA | .decMixA => some (decodedLength n)

/-- One free value has been drawn for a unit (log entry 4). -/
def State.drawOne (s : State) (u : UnitId) : State := s.setUnit u { s.unit u with draw := (s.unit u).draw + 1 }

/-- The host's preparation of the unit: the source bytes (as far as the space has room for them), the length and the
capacity (R220, R228). -/
def prepare (u : UnitId) (bytes : List Byte) (cap : Nat) (s : State) : State :=
  let x := s.unit u
  s.setUnit u { x with
    src := x.src.writeBytes 0 (bytes.take (cells s.cfg .src))
    srcLen := bytes.length
    dstCap := cap }

/-- What the host does with the end of the instruction: on success the buffer goes to the caller, with the bytes the
contract names (R69: the result and its terminator); on failure it is released, and what the caller owns is as it was
(R228, R229, R231). -/
def collect (u : UnitId) (cap : Nat) (s : State) : State :=
  let x := s.unit u
  if x.err = codeOk then
    { (s.reply (.success x.dstLen)) with
      owned := s.owned ++ [{ unit := u, size := cap, bytes := (x.dst.readBytes 0 (x.dstLen + 1)).getD [] }] }
  else s.reply (.failure x.err)

/-- An allocating pseudo-operation whose size is `e`, on a unit that is not busy: allocate, run the instruction with
`DST_CAP = e + 1`, hand over or release (R228, R229). `allocate` may fail at any call (U15): its answer is a free
value. -/
def runPseudo (q : Pseudo) (bytes : List Byte) (e : Nat) (s : State) : Host.Outcome State Fault Refusal :=
  let u := q.instr.unit
  let drawn := s.drawOne u
  if Config.freeAlloc u (s.unit u).draw then
    match exec q.instr (prepare u bytes (e + 1) drawn) with
    | .next t => .next (collect u (e + 1) t)
    | .fault f => .fault f
    | .refused r => .refused r
  else .next (drawn.reply (.failure ErrKind.nomem.code))

/-- An allocating pseudo-operation (R228, R229): the size first, whose overflow is the answer whatever the unit does;
then, because the host begins an operation on seeing BUSY = 0 (R220), it waits for a busy unit, and only then
allocates. That the wait stands between the size and the allocation is the model's choice (log entry 19). -/
def execPseudo (q : Pseudo) (bytes : List Byte) (s : State) : Host.Outcome State Fault Refusal :=
  let u := q.instr.unit
  if s.cfg.maxLen < bytes.length then .refused (.valueTooWide u .srcLen bytes.length)
  else
    match q.size s.cfg bytes.length with
    | none => .next (s.reply (.failure ErrKind.ovf.code))
    | some e =>
      if (s.unit u).busy then waitFor u (.pseudo q bytes) s
      else runPseudo q bytes e s

/-! ### Reset -/

/-- Reset: both units and their spaces as at power-on, whatever they were doing; no operation is started and none that
ran reports DONE (R300 to R302). What the host still intends and has been told is not the block's, and the counters of
the free values go on, so that no free value is drawn twice (log entry 4). -/
def State.resetBlock (s : State) : State :=
  let r := State.resetWith s.cfg
  { r with
    enc := { r.enc with draw := s.enc.draw }
    dec := { r.dec with draw := s.dec.draw }
    moves := s.moves
    replies := s.replies
    owned := s.owned }

end Sys2Proof.Machine
end

