-- ==== Sys2Proof/Machine/Agents.lean ====
section
/-! DEFINITION. Which agent moves, and what its move does (R20, R223, R235). -/

namespace Sys2Proof.Machine

/-- The effect of a move, in the state from which it has been taken off. A poll that does not see DONE stays in front
while a unit in RUN takes its step (R104, R223). -/
def runMove (m : Move) (s : State) : Host.Outcome State Fault Refusal :=
  match m with
  | .write u r v => hostWrite u r v s
  | .issue u w => issueWrite u w s
  | .read u r => hostRead u r s
  | .writeMem u sp i bytes => hostWriteMem u sp i bytes s
  | .readMem u sp i n => hostReadMem u sp i n s
  | .poll u =>
    if (s.unit u).isDone then .next (s.reply (.value (s.unit u).status.toNat))
    else waitFor u (.poll u) s
  | .unitStep u => unitStep u s
  | .pseudo q bytes => execPseudo q bytes s
  | .reset => .next s.resetBlock

/-- One step of the machine: the first pending move, or, with none pending, a step of a unit in RUN. -/
def advance (s : State) : Host.Outcome State Fault Refusal :=
  match s.moves with
  | [] => idleStep s
  | m :: rest => runMove m { s with moves := rest }

/-- The move that fetches an instruction: the host's write of a command word to the unit the word is meant for. -/
def fetchMove (nbits w : Nat) : Move :=
  let word := w % 2 ^ nbits
  .write (wordUnit (BitVec.ofNat 8 word)) .cmd word

end Sys2Proof.Machine
end

