-- ==== Sys2Proof/Machine/Step.lean ====
section
/-! DEFINITION. The step function, and how an instruction word is put where the next step takes it from. -/

namespace Sys2Proof.Machine

/-- One step of the machine. -/
def step (s : State) : Host.Outcome State Fault Refusal := advance s

/-- The state with the host about to write the command word to its unit: the block stores no program and fetches
nothing (R33, R104), so the next move is where the next instruction comes from (log entry 6). -/
def State.withFetchWord (s : State) (nbits w : Nat) : State := { s with moves := fetchMove nbits w :: s.moves }

end Sys2Proof.Machine
end

