-- ==== Sys2Proof/Safety.lean ====
section
/-! DEFINITION. The vocabulary of the claims: when an operation is ready to succeed, what a failed one reports, what a
command leaves alone, runs of one unit's own steps, and the invariant of the machine. -/

namespace Sys2Proof

/-- The mode an instruction decodes in; an encode instruction has none (R198 to R200). -/
def Instr.decodeMode : Instr → Option Mode
  | .encStd | .encUrl => none
  | .decStd => some .std
  | .decUrl => some .url
  | .decMix => some .mix

/-- The alphabet an instruction encodes with; a decode instruction has none (R161, R162). -/
def Instr.encodeAlphabet : Instr → Option Alphabet
  | .encStd => some .std
  | .encUrl => some .url
  | .decStd | .decUrl | .decMix => none

end Sys2Proof

namespace Sys2Proof.Machine

/-- An encode command would pass its three checks (R152, R153, R156), on the source bytes `b` and the size `e`. -/
structure EncReady (s : State) (b : List Byte) (e : Nat) : Prop where
  free : s.enc.busy = false
  srcFits : s.enc.srcLen ≤ s.cfg.srcSize
  dstFits : s.enc.dstCap ≤ s.cfg.dstSize
  size : encodedLength s.cfg s.enc.srcLen = some e
  room : e + 1 ≤ s.enc.dstCap
  written : s.enc.src.readBytes 0 s.enc.srcLen = some b

/-- A decode command would pass its first two checks (R182, R184), on the text `t`. -/
structure DecReady (s : State) (t : List Byte) : Prop where
  free : s.dec.busy = false
  srcFits : s.dec.srcLen ≤ s.cfg.srcSize
  dstFits : s.dec.dstCap ≤ s.cfg.dstSize
  room : decodedLength s.dec.srcLen + 1 ≤ s.dec.dstCap
  written : s.dec.src.readBytes 0 s.dec.srcLen = some t

/-- The unit reports success with a result of `len` bytes (R271): STATUS reads 0x02. -/
structure Succeeded (x : CodecUnit) (len : Nat) : Prop where
  phase : x.phase = .done
  status : x.status = 0x02
  dstLen : x.dstLen = len

/-- The unit reports the error kind `k` (R270): STATUS reads `code << 4 | 2` and DST_LEN 0. -/
structure FailedWith (x : CodecUnit) (k : ErrKind) : Prop where
  phase : x.phase = .done
  err : x.err = k.code
  status : x.status = k.code ++ (0b0010 : BitVec 4)
  dstLen : x.dstLen = 0

/-- What a command write of the word `w` to the ENC unit leaves as it was: the parameters, everything of the DEC unit,
what the host intends and has been told, and of the ENC unit SRC_LEN, DST_CAP and SRC; CMD holds the word. Open are
STATUS, DST_LEN, DST, and the registers no host can read. -/
structure EncCommandFrame (w : Byte) (s t : State) : Prop where
  cfg : t.cfg = s.cfg
  dec : t.dec = s.dec
  decData : t.decData = s.decData
  moves : t.moves = s.moves
  replies : t.replies = s.replies
  owned : t.owned = s.owned
  cmd : t.enc.cmd = w
  srcLen : t.enc.srcLen = s.enc.srcLen
  dstCap : t.enc.dstCap = s.enc.dstCap
  src : t.enc.src = s.enc.src

/-- The same for the DEC unit. -/
structure DecCommandFrame (w : Byte) (s t : State) : Prop where
  cfg : t.cfg = s.cfg
  enc : t.enc = s.enc
  encData : t.encData = s.encData
  moves : t.moves = s.moves
  replies : t.replies = s.replies
  owned : t.owned = s.owned
  cmd : t.dec.cmd = w
  srcLen : t.dec.srcLen = s.dec.srcLen
  dstCap : t.dec.dstCap = s.dec.dstCap
  src : t.dec.src = s.dec.src

/-- `k` steps of a unit's own, stopping at the first fault or refusal. -/
def unitSteps (u : UnitId) : Nat → State → Host.Outcome State Fault Refusal
  | 0, s => .next s
  | k + 1, s =>
    match unitStep u s with
    | .next t => unitSteps u k t
    | .fault f => .fault f
    | .refused r => .refused r

/-- `k` steps of the machine, stopping at the first fault or refusal. -/
def machineSteps : Nat → State → Host.Outcome State Fault Refusal
  | 0, s => .next s
  | k + 1, s =>
    match step s with
    | .next t => machineSteps k t
    | .fault f => .fault f
    | .refused r => .refused r

/-- The pending moves keep the host away until unit `v`, which is in RUN, has ended: there is none, or the first one
polls `v`, or polls the other unit, which is in IDLE, or is a pseudo-operation that waits for `v` (R104, R220, R223). -/
def WaitsFor (v : UnitId) (s : State) : Prop :=
  s.moves = [] ∨
  (∃ u rest, s.moves = .poll u :: rest ∧ (u = v ∨ (s.unit u).phase = .idle)) ∨
  (∃ q bytes rest, s.moves = .pseudo q bytes :: rest ∧ q.instr.unit = v ∧ bytes.length ≤ s.cfg.maxLen ∧
    q.size s.cfg bytes.length ≠ none)

/-- A pseudo-operation has handed over a buffer of `size` bytes with the result `out` and its terminator, which stand at
U.DST as well, and has told the caller the length (R228, R229, R231). -/
structure HandedOver (u : UnitId) (size : Nat) (out : List Byte) (s t : State) : Prop where
  replies : t.replies = s.replies ++ [.success out.length]
  owned : t.owned = s.owned ++ [{ unit := u, size := size, bytes := out ++ [0x00] }]
  unit : Succeeded (t.unit u) out.length
  dst : (t.unit u).dst.readBytes 0 (out.length + 1) = some (out ++ [0x00])

/-- A pseudo-operation has failed with the kind `k`: no buffer has been handed over, and those the caller owns are as they
were (R231). -/
structure Released (k : ErrKind) (s t : State) : Prop where
  replies : t.replies = s.replies ++ [.failure k.code]
  owned : t.owned = s.owned

/-- How a pseudo-operation of size `e` ends once its buffer has been allocated (R228, R229): IARG for an illegal
configuration, else what the instruction gives, for a rejected text a kind that R201 allows, never CAP. -/
def PseudoEnd (q : Pseudo) (bytes : List Byte) (e : Nat) (s t : State) : Prop :=
  (s.cfg.srcSize < bytes.length ∨ s.cfg.dstSize < e + 1 → Released .iarg s t) ∧
  (bytes.length ≤ s.cfg.srcSize → e + 1 ≤ s.cfg.dstSize →
    (∀ a, q.instr.encodeAlphabet = some a → HandedOver q.instr.unit (e + 1) (encText a bytes) s t) ∧
    (∀ m, q.instr.decodeMode = some m →
      (∀ out, decBytes s.cfg.urlPadKind m bytes = .ok out → HandedOver q.instr.unit (e + 1) out s t) ∧
      (∀ k, decBytes s.cfg.urlPadKind m bytes = .error k →
        ∃ k', Released k' s t ∧ k' ∈ applicable s.cfg m bytes (e + 1) ∧ k' ≠ .cap ∧
          (s.cfg.jointErr = .inOrder → k' = k))))

/-- The number of steps of the reference sequencing after an accepted command write: full groups of `g`, one tail if
there is one, and FINISH (R165, R204). -/
def sequencingSteps (g len : Nat) : Nat := len / g + (if len % g ≠ 0 then 1 else 0) + 1

/-- What holds of either unit in every state under the protocol. -/
structure UnitInv (p : Params) (x : CodecUnit) : Prop where
  srcSorted : x.src.wf
  dstSorted : x.dst.wf
  srcExists : ∀ c ∈ x.src, c.1 < cells p .src
  dstExists : ∀ c ∈ x.dst, c.1 < cells p .dst
  srcLen : x.srcLen ≤ p.maxLen
  dstCap : x.dstCap ≤ p.maxLen
  dstLen : x.dstLen ≤ p.maxLen
  n : x.hid.n ≤ p.maxLen
  cap : x.hid.cap ≤ p.maxLen
  ipos : x.hid.ipos ≤ p.maxLen
  opos : x.hid.opos ≤ p.maxLen
  stages : x.hid.valid.length = p.pipeDepth
  /-- `STATUS.ERR` holds only codes the hardware writes (R261). -/
  code : x.err ∈ ([0, 1, 2, 3, 4, 5, 7] : List (BitVec 4))
  /-- Before an operation has ended ERR and DST_LEN read 0 (R29, R31). -/
  quiet : x.phase ≠ .done → x.err = codeOk ∧ x.dstLen = 0
  /-- A failed operation reports no data (R270). -/
  failed : x.err ≠ codeOk → x.dstLen = 0
  /-- While an operation runs, its latches are the host's registers, which the host leaves alone (R32, R224), the sizes
  are legal, and its source bytes are there. -/
  latched : x.phase = .run → x.hid.n = x.srcLen ∧ x.hid.cap = x.dstCap ∧ x.hid.op = x.cmd.extractLsb' 0 3 ∧
    x.hid.n ≤ p.srcSize ∧ x.hid.cap ≤ p.dstSize ∧ ∃ b, x.src.readBytes 0 x.hid.n = some b

/-- What holds while an encode runs: the size fits the capacity with the terminator, `IPOS` is at a group boundary or at
the end, and `OPOS` has not passed the characters of the groups consumed (R33, R157, R160). -/
def EncRunInv (p : Params) (x : CodecUnit) : Prop :=
  x.phase = .run →
    accepted .enc x.cmd ≠ none ∧
    (∃ e, encodedLength p x.hid.n = some e ∧ e + 1 ≤ x.hid.cap) ∧
    x.hid.ipos ≤ x.hid.n ∧ (x.hid.ipos % 3 = 0 ∨ x.hid.ipos = x.hid.n) ∧
    x.hid.opos ≤ (x.hid.ipos + 2) / 3 * 4

/-- What holds while a decode runs (R33, R185, R196). -/
def DecRunInv (x : CodecUnit) (d : DecData) : Prop :=
  x.phase = .run →
    accepted .dec x.cmd ≠ none ∧
    decodedLength x.hid.n + 1 ≤ x.hid.cap ∧ d.l ≤ x.hid.n ∧
    x.hid.ipos ≤ d.l ∧ (x.hid.ipos % 4 = 0 ∨ x.hid.ipos = d.l) ∧
    x.hid.opos ≤ decodedLength x.hid.ipos

/-- The invariant of the machine. -/
structure Inv (s : State) : Prop where
  cfg : s.cfg.wf = true
  enc : UnitInv s.cfg s.enc
  dec : UnitInv s.cfg s.dec
  encRun : EncRunInv s.cfg s.enc
  decRun : DecRunInv s.dec s.decData
  bodyLen : s.decData.l ≤ s.cfg.maxLen

end Sys2Proof.Machine
end

