-- ==== Sys2Proof/Certificates/Slice0/Obligations.lean ====
section
/-! DEFINITION. The statements for the provers. A docstring names the rule of spec/ a statement formalises; where that
rule is the spec's own decision (D<n> of 92_eei_decisions.md) or its own derivation, the docstring says so and the
statement is listed as derived. -/

open Sys2Proof Sys2Proof.Machine

/-! ## Encoding of the command word -/

/-- Every instruction's word decodes to the instruction, alone, at the head of a list of bytes, and as a row of the
opcode table (R90 to R92, the spec's decision D4). -/
def Obligations.DecodeOfEncode : Prop :=
  ∀ (i : Instr) (rest : List Byte),
    decode (encode i) = .ok i ∧ decodeBytes (encodeBytes i ++ rest) = .ok (i, rest) ∧
      decodeTableWord 8 (encode i).toNat = some i

/-- A word decodes to an instruction exactly when it is that instruction's word, so that five of the 256 words are
legal, and they are the words that are well-formed (R92, R93, decision D4). -/
def Obligations.OnlyTheFiveWordsDecode : Prop :=
  ∀ w : Byte, (∀ i, decode w = .ok i ↔ w = encode i) ∧ (CommandWord.wf w = true ↔ ∃ i, decode w = .ok i)

/-- The five words of the table, written out from their fields RSV, DIR and ALPHA (R91, R92, decision D4). -/
def Obligations.TableWordsDecode : Prop :=
  decode 0b00000000 = .ok .encStd ∧ decode 0b00000001 = .ok .encUrl ∧ decode 0b00000100 = .ok .decStd ∧
    decode 0b00000101 = .ok .decUrl ∧ decode 0b00000110 = .ok .decMix

/-! ## Tables -/

/-- "`DEC_TAB[a][c]` ... is the inverse of `ENC_TAB[a]`": it is `s` exactly when `ENC_TAB[a][s] = c`, and otherwise
INVALID (R124). -/
def Obligations.DecodeTableInvertsEncodeTable : Prop :=
  ∀ (s : Sextet) (c : Byte),
    (decTab .std c = some s ↔ encTab .std s = c) ∧ (decTab .url c = some s ↔ encTab .url s = c)

/-- The Mixed table is the union of the other two, which never disagree on a byte both accept: `+` and `-` both give
62, `/` and `_` both give 63, and 66 of its 256 entries are valid (R125). -/
def Obligations.MixedTableIsUnion : Prop :=
  ∀ c : Byte,
    decTab .mix c = (match decTab .std c with | some v => some v | none => decTab .url c) ∧
      (∀ v w, decTab .std c = some v → decTab .url c = some w → v = w) ∧
      (decTab .mix c = some 62 ↔ c = 0x2B ∨ c = 0x2D) ∧ (decTab .mix c = some 63 ↔ c = 0x2F ∨ c = 0x5F) ∧
      ((List.range 256).filter (fun n => (decTab .mix (BitVec.ofNat 8 n)).isSome)).length = 66

/-- The pad, the null byte, white space and every byte at or above 0x80 are INVALID in every table (R127, derived by
the spec). -/
def Obligations.NonSymbolsAreInvalid : Prop :=
  ∀ (m : Mode) (c : Byte),
    c = padSymbol ∨ c = 0x00 ∨ c = 0x20 ∨ c = 0x09 ∨ c = 0x0D ∨ c = 0x0A ∨ 0x80 ≤ c → decTab m c = none

/-! ## Size calculator -/

/-- `encoded_length(n)` is `ceil(n/3) * 4` when that number is at most MAXLEN and the overflow signal otherwise, and an
operation that meets the signal ends with OVF (R140). `q` is `ceil(n/3)`. -/
def Obligations.EncodedLengthExactOrOverflow : Prop :=
  (∀ (p : Params) (n q : Nat), n ≤ p.maxLen → n ≤ 3 * q → 3 * q < n + 3 →
    (q * 4 ≤ p.maxLen → encodedLength p n = some (q * 4)) ∧ (p.maxLen < q * 4 → encodedLength p n = none)) ∧
  (∀ (i : Instr) (s : State), i.unit = .enc → s.enc.busy = false → s.enc.srcLen ≤ s.cfg.srcSize →
    s.enc.dstCap ≤ s.cfg.dstSize → encodedLength s.cfg s.enc.srcLen = none →
    ∃ t, exec i s = .next t ∧ FailedWith t.enc .ovf)

/-- The overflow signal is returned exactly from `n = 3 * 2^(LENW-2) - 2` upward (R141, derived by the spec). -/
def Obligations.OverflowThreshold : Prop :=
  ∀ (p : Params) (n : Nat), p.wf = true → n ≤ p.maxLen →
    (encodedLength p n = none ↔ 3 * 2 ^ (p.lenW - 2) - 2 ≤ n)

/-- `decoded_length(m)` is `floor(m*3/4)` and never exceeds `m`, so it always fits `LENW` bits and has no overflow signal
(R143). -/
def Obligations.DecodedLengthExact : Prop :=
  ∀ m : Nat, 4 * decodedLength m ≤ m * 3 ∧ m * 3 < 4 * decodedLength m + 4 ∧ decodedLength m ≤ m

/-- The capacity an operation needs, one more than the size function's value, is itself a length: the sum never wraps
(R145, in part decision D10 and derived by the spec). -/
def Obligations.SlackByteNeverWraps : Prop :=
  ∀ (p : Params) (n : Nat), p.wf = true → n ≤ p.maxLen →
    (∀ e, encodedLength p n = some e → e + 1 ≤ p.maxLen) ∧ decodedLength n + 1 ≤ p.maxLen

/-! ## The group -/

/-- The full group: bytes and sextets are two views of one 24-bit value, in the slices R95 lists, and each view gives
the other back (R95). -/
def Obligations.GroupViewsAgree : Prop :=
  (∀ b0 b1 b2 : Byte,
    let g := packBytes b0 b1 b2
    sextet0 g = b0.extractLsb' 2 6 ∧ sextet1 g = b0.extractLsb' 0 2 ++ b1.extractLsb' 4 4 ∧
      sextet2 g = b1.extractLsb' 0 4 ++ b2.extractLsb' 6 2 ∧ sextet3 g = b2.extractLsb' 0 6 ∧
      packSextets (sextet0 g) (sextet1 g) (sextet2 g) (sextet3 g) = g) ∧
  (∀ s0 s1 s2 s3 : Sextet,
    let g := packSextets s0 s1 s2 s3
    byte0 g = s0 ++ s1.extractLsb' 4 2 ∧ byte1 g = s1.extractLsb' 0 4 ++ s2.extractLsb' 2 4 ∧
      byte2 g = s2.extractLsb' 0 2 ++ s3 ∧ packBytes (byte0 g) (byte1 g) (byte2 g) = g)

/-! ## The encoded text -/

/-- Length laws: under Standard the text is `encoded_length(n)` long, a multiple of 4; under URL-safe it is that minus
`pads(n)`, with remainder 0, 2 or 3 modulo 4 and never 1 (R247). -/
def Obligations.EncodedTextLengths : Prop :=
  ∀ (p : Params) (b : List Byte) (e : Nat), encodedLength p b.length = some e →
    (encText .std b).length = e ∧ e % 4 = 0 ∧
    (encText .url b).length = e - pads b.length ∧ pads b.length ≤ e ∧
    ((encText .url b).length % 4 = 0 ∨ (encText .url b).length % 4 = 2 ∨ (encText .url b).length % 4 = 3)

/-- Every character of a text is a symbol of its alphabet, or, under Standard, a pad in one of the last two positions;
none is the null byte (R164, derived by the spec). -/
def Obligations.EncodedTextCharacters : Prop :=
  ∀ (b : List Byte),
    (∀ c ∈ encText .url b, ∃ s, encTab .url s = c) ∧
    (∀ (k : Nat) (c : Byte), (encText .std b)[k]? = some c →
      (∃ s, encTab .std s = c) ∨ (c = padSymbol ∧ (encText .std b).length ≤ k + 2)) ∧
    (∀ a, terminator ∉ encText a b)

/-- Round trip: decoding the encoded text of any byte sequence, in the alphabet it was encoded in, gives the bytes back,
for either value of URL_PAD_KIND (R240). -/
def Obligations.DecodeInvertsEncode : Prop :=
  ∀ (k : UrlPadKind) (b : List Byte),
    decBytes k .std (encText .std b) = .ok b ∧ decBytes k .url (encText .url b) = .ok b

/-- Cross-mode acceptance: Mixed decoding accepts the text of either alphabet (R241). -/
def Obligations.MixedDecodesBothAlphabets : Prop :=
  ∀ (k : UrlPadKind) (a : Alphabet) (b : List Byte), decBytes k .mix (encText a b) = .ok b

/-- Cross-mode rejection: a Standard text that ends in a pad fails under URL-safe decode with URL_PAD_KIND; one with
a `+` or `/` and no pad at its end fails with ICHR; a URL-safe text with a `-` or `_` fails under Standard decode with
ICHR (R242). -/
def Obligations.CrossModeRejection : Prop :=
  ∀ (k : UrlPadKind) (b : List Byte),
    (padSymbol ∈ encText .std b → decBytes k .url (encText .std b) = .error (padKind k)) ∧
    (padSymbol ∉ encText .std b → ((0x2B : Byte) ∈ encText .std b ∨ (0x2F : Byte) ∈ encText .std b) →
      decBytes k .url (encText .std b) = .error .ichr) ∧
    (((0x2D : Byte) ∈ encText .url b ∨ (0x5F : Byte) ∈ encText .url b) →
      decBytes k .std (encText .url b) = .error .ichr)

/-- Encoding is injective (R253, derived by the spec). -/
def Obligations.EncodingIsInjective : Prop :=
  ∀ (a : Alphabet) (b c : List Byte), encText a b = encText a c → b = c

/-! ## What the decoder accepts -/

/-- Length ban: every text whose length is 1 modulo 4 is FMT in every mode, whatever its bytes, given that the command
and capacity checks pass and kinds are reported in order (R245). That the kind is reported also where source bytes have
never been written, a command to which R313 gives no result, is the model's choice (log entry 10, DESIGN CHOICE). -/
def Obligations.LengthBan : Prop :=
  (∀ (k : UrlPadKind) (m : Mode) (t : List Byte), t.length % 4 = 1 → decBytes k m t = .error .fmt) ∧
  (∀ (i : Instr) (s : State), i.unit = .dec → s.dec.busy = false → s.dec.srcLen ≤ s.cfg.srcSize →
    s.dec.dstCap ≤ s.cfg.dstSize → decodedLength s.dec.srcLen + 1 ≤ s.dec.dstCap → s.cfg.jointErr = .inOrder →
    s.dec.srcLen % 4 = 1 → ∃ t, exec i s = .next t ∧ FailedWith t.dec .fmt)

/-- Padding legality: in STD and MIX three or more trailing pads are FMT, and so are one or two on a length that is not a
multiple of 4; a pad that is not trailing is ICHR, unless the length is 1 modulo 4 or the trailing run itself is illegal,
where FMT comes first; so a text that contains a pad anywhere and whose length is not a multiple of 4 fails (R243). -/
def Obligations.PaddingLegality : Prop :=
  ∀ (k : UrlPadKind) (m : Mode) (t : List Byte), m = .std ∨ m = .mix →
    (3 ≤ padCount t → decBytes k m t = .error .fmt) ∧
    (1 ≤ padCount t → t.length % 4 ≠ 0 → decBytes k m t = .error .fmt) ∧
    (t.length % 4 = 1 → decBytes k m t = .error .fmt) ∧
    (t.length % 4 ≠ 1 → padCount t ≤ 2 → (padCount t = 0 ∨ t.length % 4 = 0) → padSymbol ∈ bodyOf t →
      decBytes k m t = .error .ichr) ∧
    (padSymbol ∈ t → t.length % 4 ≠ 0 → ∃ e, decBytes k m t = .error e)

/-- An invalid symbol anywhere in the body fails the whole call with ICHR, once the length and pad checks have passed,
whatever the rest of the body is: the bit check is made only in the last group and only when its symbols are all valid
(R188). -/
def Obligations.InvalidSymbolIsIllegalCharacter : Prop :=
  ∀ (k : UrlPadKind) (m : Mode) (t : List Byte), t.length % 4 ≠ 1 → padCheck k m t = none →
    (∃ c ∈ bodyOf t, decTab m c = none) → decBytes k m t = .error .ichr

/-- Bit-legality: when every body symbol is valid and no earlier check fails, a body ending in a 2-symbol tail whose
second value has non-zero low 4 bits, or in a 3-symbol tail whose third value has non-zero low 2 bits, is ISEQ
(R244). `v` is the value of the last body symbol. Of the 64 symbols 4 are legal as the second of a 2-symbol tail and 16
as the third of a 3-symbol tail, which is R244's own derivation. -/
def Obligations.UnusedBitsMustBeZero : Prop :=
  ∀ (k : UrlPadKind) (m : Mode) (t : List Byte) (c : Byte) (v : Sextet), t.length % 4 ≠ 1 → padCheck k m t = none →
    (∀ d ∈ bodyOf t, decTab m d ≠ none) → (bodyOf t).getLast? = some c → decTab m c = some v →
    ((bodyOf t).length % 4 = 2 → v.extractLsb' 0 4 ≠ 0 → decBytes k m t = .error .iseq) ∧
    ((bodyOf t).length % 4 = 3 → v.extractLsb' 0 2 ≠ 0 → decBytes k m t = .error .iseq) ∧
    (List.range 64).filter (fun n => (BitVec.ofNat 6 n).extractLsb' 0 4 == 0) = [0, 16, 32, 48] ∧
    ((List.range 64).filter (fun n => (BitVec.ofNat 6 n).extractLsb' 0 2 == 0)).length = 16

/-- Accepted texts, exactly: length, pads, symbols and unused bits (R203, derived by the spec). -/
def Obligations.AcceptedTextsExactly : Prop :=
  ∀ (k : UrlPadKind) (m : Mode) (t : List Byte),
    (∃ out, decBytes k m t = .ok out) ↔
      (t.length % 4 ≠ 1 ∧
       (m = .url → padCount t = 0) ∧
       (m ≠ .url → padCount t ≤ 2 ∧ (padCount t = 0 ∨ t.length % 4 = 0)) ∧
       (∀ c ∈ bodyOf t, decTab m c ≠ none) ∧
       (∀ c v, (bodyOf t).getLast? = some c → decTab m c = some v →
         ((bodyOf t).length % 4 = 2 → v.extractLsb' 0 4 = 0) ∧ ((bodyOf t).length % 4 = 3 → v.extractLsb' 0 2 = 0)))

/-- Canonical form: a Standard text that decodes is the encoding of its bytes, with its pads or without them; a URL-safe
text that decodes is the encoding of its bytes; a Mixed text becomes one of these when every `-` is read as `+` and
every `_` as `/`, and its Standard encoding without pads is its body so read (R246, derived by the spec). -/
def Obligations.DecodedTextIsCanonical : Prop :=
  ∀ (k : UrlPadKind) (t out : List Byte),
    let std := fun c : Byte => if c = 0x2D then (0x2B : Byte) else if c = 0x5F then 0x2F else c
    (decBytes k .std t = .ok out → t = encText .std out ∨ t = bodyOf (encText .std out)) ∧
    (decBytes k .url t = .ok out → t = encText .url out) ∧
    (decBytes k .mix t = .ok out → t.map std = encText .std out ∨ t.map std = bodyOf (encText .std out))

/-- The length of a decoded result is `decoded_length` of the body's length, and within `decoded_length` of the whole
text's (R197 and R144, derived by the spec). -/
def Obligations.DecodedResultLength : Prop :=
  ∀ (k : UrlPadKind) (m : Mode) (t out : List Byte), decBytes k m t = .ok out →
    out.length = decodedLength (t.length - padCount t) ∧ out.length ≤ decodedLength t.length

/-! ## The instructions -/

/-- ENC.STD, when its checks pass, completes: STATUS 0x02, DST_LEN the encoded length, and at DST the Standard text and
the null terminator (section 4 of 42_encoder.md, R161). -/
def Obligations.EncStdCompletes : Prop :=
  ∀ (s : State) (b : List Byte) (e : Nat), EncReady s b e →
    ∃ t, exec .encStd s = .next t ∧ Succeeded t.enc e ∧ t.enc.cmd = 0x00 ∧
      t.enc.dst.readBytes 0 (e + 1) = some (encText .std b ++ [0x00])

/-- ENC.URL, when its checks pass, completes: STATUS 0x02, DST_LEN the encoded length minus the pads, and at DST the
URL-safe text and the null terminator (section 4 of 42_encoder.md, R162). -/
def Obligations.EncUrlCompletes : Prop :=
  ∀ (s : State) (b : List Byte) (e : Nat), EncReady s b e →
    ∃ t, exec .encUrl s = .next t ∧ Succeeded t.enc (e - pads s.enc.srcLen) ∧ t.enc.cmd = 0x01 ∧
      t.enc.dst.readBytes 0 (e - pads s.enc.srcLen + 1) = some (encText .url b ++ [0x00])

/-- DEC.STD, on a text it accepts, completes: STATUS 0x02, DST_LEN the number of bytes, and at DST the bytes and the null
terminator (section 5 of 43_decoder.md, R198). -/
def Obligations.DecStdCompletes : Prop :=
  ∀ (s : State) (t out : List Byte), DecReady s t → decBytes s.cfg.urlPadKind .std t = .ok out →
    ∃ u, exec .decStd s = .next u ∧ Succeeded u.dec out.length ∧ u.dec.cmd = 0x04 ∧
      u.dec.dst.readBytes 0 (out.length + 1) = some (out ++ [0x00])

/-- DEC.URL, on a text it accepts, completes (section 5 of 43_decoder.md, R199). -/
def Obligations.DecUrlCompletes : Prop :=
  ∀ (s : State) (t out : List Byte), DecReady s t → decBytes s.cfg.urlPadKind .url t = .ok out →
    ∃ u, exec .decUrl s = .next u ∧ Succeeded u.dec out.length ∧ u.dec.cmd = 0x05 ∧
      u.dec.dst.readBytes 0 (out.length + 1) = some (out ++ [0x00])

/-- DEC.MIX, on a text it accepts, completes (section 5 of 43_decoder.md, R200). -/
def Obligations.DecMixCompletes : Prop :=
  ∀ (s : State) (t out : List Byte), DecReady s t → decBytes s.cfg.urlPadKind .mix t = .ok out →
    ∃ u, exec .decMix s = .next u ∧ Succeeded u.dec out.length ∧ u.dec.cmd = 0x06 ∧
      u.dec.dst.readBytes 0 (out.length + 1) = some (out ++ [0x00])

/-- Empty input: an encode or a decode of no bytes with a capacity of at least 1 succeeds, writes the terminator at
index 0 and reports length 0; with capacity 0 it fails with CAP (R166, R205; 90_conflicts.md C2). -/
def Obligations.EmptyInputSucceeds : Prop :=
  ∀ (i : Instr) (s : State), (s.unit i.unit).busy = false → (s.unit i.unit).srcLen = 0 →
    (s.unit i.unit).dstCap ≤ s.cfg.dstSize →
    (1 ≤ (s.unit i.unit).dstCap →
      ∃ t, exec i s = .next t ∧ Succeeded (t.unit i.unit) 0 ∧ (t.unit i.unit).dst.read 0 = some 0x00) ∧
    ((s.unit i.unit).dstCap = 0 →
      ∃ t, exec i s = .next t ∧ FailedWith (t.unit i.unit) .cap)

/-- The encoder's failures, in their order: IARG for a size beyond the spaces, then OVF, then CAP; each leaves every byte
of DST as it was (section 2 of 42_encoder.md; the causes and the order are decisions D6, D7, D11). -/
def Obligations.EncodeFailuresInOrder : Prop :=
  ∀ (i : Instr) (s : State), i.unit = .enc → s.enc.busy = false →
    (s.cfg.srcSize < s.enc.srcLen ∨ s.cfg.dstSize < s.enc.dstCap →
      ∃ t, exec i s = .next t ∧ FailedWith t.enc .iarg ∧ t.enc.dst = s.enc.dst) ∧
    (s.enc.srcLen ≤ s.cfg.srcSize → s.enc.dstCap ≤ s.cfg.dstSize → encodedLength s.cfg s.enc.srcLen = none →
      ∃ t, exec i s = .next t ∧ FailedWith t.enc .ovf ∧ t.enc.dst = s.enc.dst) ∧
    (∀ e, s.enc.srcLen ≤ s.cfg.srcSize → s.enc.dstCap ≤ s.cfg.dstSize → encodedLength s.cfg s.enc.srcLen = some e →
      s.enc.dstCap < e + 1 →
      ∃ t, exec i s = .next t ∧ FailedWith t.enc .cap ∧ t.enc.dst = s.enc.dst)

/-- The decoder's failures: IARG, first under either policy, and, under `in_order`, CAP leave DST as it was; under
`in_order` a text that `dec_bytes` rejects ends with exactly the kind `dec_bytes` gives, and no byte at or above the
capacity changes (sections 1, 2 and 6 of 43_decoder.md; the causes and places of IARG and CAP are decisions D6, D7,
D10). -/
def Obligations.DecodeFailuresInOrder : Prop :=
  ∀ (i : Instr) (m : Mode) (s : State),
    i.decodeMode = some m → s.dec.busy = false →
    (s.cfg.srcSize < s.dec.srcLen ∨ s.cfg.dstSize < s.dec.dstCap →
      ∃ u, exec i s = .next u ∧ FailedWith u.dec .iarg ∧ u.dec.dst = s.dec.dst) ∧
    (s.cfg.jointErr = .inOrder →
      (s.dec.srcLen ≤ s.cfg.srcSize → s.dec.dstCap ≤ s.cfg.dstSize → s.dec.dstCap < decodedLength s.dec.srcLen + 1 →
        ∃ u, exec i s = .next u ∧ FailedWith u.dec .cap ∧ u.dec.dst = s.dec.dst) ∧
      (∀ t k, DecReady s t → decBytes s.cfg.urlPadKind m t = .error k →
        ∃ u, exec i s = .next u ∧ FailedWith u.dec k ∧
          ∀ a, s.dec.dstCap ≤ a → u.dec.dst.read a = s.dec.dst.read a))

/-- Under either JOINT_ERR_POLICY a decode of a written text within the sizes of the spaces fails, with DST_LEN = 0, when
`dec_bytes` rejects the text or the capacity is short, and the kind is one whose check the input violates, each check
evaluated on its own; and a decode that ends with a kind other than IARG always ends with such a one (R201, U1; the
freedom is decision D8, how each check is evaluated in URL mode log entry 9). -/
def Obligations.ReportedKindIsApplicable : Prop :=
  ∀ (i : Instr) (m : Mode) (s : State) (t : List Byte),
    i.decodeMode = some m → s.dec.src.readBytes 0 s.dec.srcLen = some t →
    (s.dec.busy = false → s.dec.srcLen ≤ s.cfg.srcSize → s.dec.dstCap ≤ s.cfg.dstSize →
      (s.dec.dstCap < decodedLength s.dec.srcLen + 1 ∨ ∃ k, decBytes s.cfg.urlPadKind m t = .error k) →
      ∃ u k, exec i s = .next u ∧ k ∈ applicable s.cfg m t s.dec.dstCap ∧ FailedWith u.dec k) ∧
    (∀ u, exec i s = .next u → u.dec.err ≠ codeOk →
      u.dec.err = ErrKind.iarg.code ∨ ∃ k ∈ applicable s.cfg m t s.dec.dstCap, u.dec.err = k.code)

/-- Which codes an instruction can end with: an encode 0, 1, 5 or 7, a decode 0 to 5; so `STATUS.ERR` is always one of
0, 1, 2, 3, 4, 5, 7 (R261, R274; the numbers are decision D5). -/
def Obligations.CodesOfEachInstruction : Prop :=
  ∀ (i : Instr) (s t : State), exec i s = .next t →
    (i.unit = .enc → t.enc.err ∈ ([0, 1, 5, 7] : List (BitVec 4))) ∧
    (i.unit = .dec → t.dec.err ∈ ([0, 1, 2, 3, 4, 5] : List (BitVec 4)))

/-! ## Frames -/

/-- Frame of ENC.STD and ENC.URL: the DEC unit, SRC_LEN, DST_CAP, SRC and everything outside the unit are as before; CMD
holds the word. Every byte of DST at or above the capacity reads as before; after a failure every byte does; under
`reference` so does every byte above the terminator, which stands at index DST_LEN. -/
def Obligations.EncodeFrame : Prop :=
  ∀ (i : Instr) (s t : State), i.unit = .enc → exec i s = .next t →
    EncCommandFrame (encode i) s t ∧
    (∀ a, s.enc.dstCap ≤ a → t.enc.dst.read a = s.enc.dst.read a) ∧
    (t.enc.err ≠ codeOk → ∀ a, t.enc.dst.read a = s.enc.dst.read a) ∧
    (t.enc.err = codeOk → s.cfg.dstResidue = .reference →
      ∀ a, t.enc.dstLen < a → t.enc.dst.read a = s.enc.dst.read a)

/-- Frame of DEC.STD, DEC.URL and DEC.MIX: the ENC unit, SRC_LEN, DST_CAP, SRC and everything outside the unit are as
before; CMD holds the word. Every byte of DST at or above the capacity reads as before; after IARG and CAP every byte
does; after a success under `reference` so does every byte above the terminator. After a failure under `reference`
(R70, R192): every byte does if a check of the command write failed; if a body group failed, the bytes of the groups
before it stand at the start of DST and every byte behind them reads as before. -/
def Obligations.DecodeFrame : Prop :=
  ∀ (i : Instr) (s t : State), i.unit = .dec → exec i s = .next t →
    DecCommandFrame (encode i) s t ∧
    (∀ a, s.dec.dstCap ≤ a → t.dec.dst.read a = s.dec.dst.read a) ∧
    (t.dec.err = ErrKind.iarg.code ∨ t.dec.err = ErrKind.cap.code → ∀ a, t.dec.dst.read a = s.dec.dst.read a) ∧
    (t.dec.err = codeOk → s.cfg.dstResidue = .reference →
      ∀ a, t.dec.dstLen < a → t.dec.dst.read a = s.dec.dst.read a) ∧
    (t.dec.err ≠ codeOk → s.cfg.dstResidue = .reference →
      (s.dec.dstCap < decodedLength s.dec.srcLen + 1 ∨ s.dec.srcLen % 4 = 1 →
        ∀ a, t.dec.dst.read a = s.dec.dst.read a) ∧
      (∀ m b, i.decodeMode = some m → s.dec.src.readBytes 0 s.dec.srcLen = some b →
        (padCheck s.cfg.urlPadKind m b ≠ none → ∀ a, t.dec.dst.read a = s.dec.dst.read a) ∧
        (DecReady s b → b.length % 4 ≠ 1 → padCheck s.cfg.urlPadKind m b = none →
          let out := (decBody (decTab m) (bodyOf b)).1
          t.dec.dst.readBytes 0 out.length = some out ∧
            ∀ a, out.length ≤ a → t.dec.dst.read a = s.dec.dst.read a)))

/-- A word the unit does not accept ends at once with IARG: STATUS reads 0x12, DST_LEN 0, CMD holds the word, and nothing
else that a host can see changes, in either unit (R93, R262; decision D6). The ENC unit and the DEC unit alike, whether
the write runs to DONE or only issues. -/
def Obligations.UnacceptedWordReportsIarg : Prop :=
  ∀ (s : State) (w : Byte) (rest : List Move) (issued : Bool),
    (accepted .enc w = none → s.enc.busy = false →
      s.moves = (if issued then .issue .enc w else .write .enc .cmd w.toNat) :: rest →
      ∃ t, step s = .next t ∧ FailedWith t.enc .iarg ∧ t.enc.status = 0x12 ∧
        EncCommandFrame w { s with moves := rest } t ∧ t.enc.dst = s.enc.dst) ∧
    (accepted .dec w = none → s.dec.busy = false →
      s.moves = (if issued then .issue .dec w else .write .dec .cmd w.toNat) :: rest →
      ∃ t, step s = .next t ∧ FailedWith t.dec .iarg ∧ t.dec.status = 0x12 ∧
        DecCommandFrame w { s with moves := rest } t ∧ t.dec.dst = s.dec.dst)

/-! ## Steps -/

/-- A step whose move is the host's write of a word the unit accepts is exec of the word's instruction, the move taken
off. That this one step runs the operation to DONE, where R222 alone leaves the unit in RUN, is the model's reading of
the licence that R165, R204 and decision D1 give (log entry 7, DEDUCED). -/
def Obligations.StepRunsDecodedCommand : Prop :=
  ∀ (s : State) (i : Instr) (w : Byte) (rest : List Move), decode w = .ok i →
    s.moves = .write i.unit .cmd w.toNat :: rest → step s = exec i { s with moves := rest }

/-- The word that `withFetchWord` places is run by the very next step. The block fetches nothing: that `withFetchWord`
is the host's write of CMD in front of the pending moves, and that this write runs to DONE, are the model's choices (log
entries 6 and 7, DEDUCED). -/
def Obligations.FetchedWordRunsNext : Prop :=
  ∀ (s : State) (i : Instr), step (s.withFetchWord 8 (encode i).toNat) = exec i s

/-- With no move pending and no unit running nothing happens: a unit in IDLE or DONE waits for a command write (R290);
so reset starts no operation, for any parameters (R301, decision D16). -/
def Obligations.QuietMachineStays : Prop :=
  (∀ s : State, s.moves = [] → s.enc.busy = false → s.dec.busy = false → step s = .next s) ∧
    (∀ p : Params, step (State.resetWith p) = .next (State.resetWith p))

/-- While BUSY = 1 a host write of CMD, SRC_LEN, DST_CAP, SRC or DST and a host read of DST or DST_LEN have no meaning
(R310, decision D17): the machine refuses each by name. A read of STATUS is answered, and returns BUSY = 1, DONE = 0
and, the ERR field being clear, 0x01. -/
def Obligations.BusyUnitRefusesHost : Prop :=
  ∀ (s : State) (u : UnitId) (rest : List Move), (s.unit u).busy = true →
    (∀ m, s.moves = m :: rest →
      ((∃ v, v < 256 ∧ m = .write u .cmd v) ∨ (∃ w, m = .issue u w) ∨ (∃ v, m = .write u .srcLen v) ∨
        (∃ v, m = .write u .dstCap v) ∨ (∃ sp i bs, m = .writeMem u sp i bs) ∨ (∃ i n, m = .readMem u .dst i n) ∨
        m = .read u .dstLen) →
      step s = .refused (.hostAccessWhileBusy u)) ∧
    (s.moves = .read u .status :: rest → (s.unit u).err = codeOk →
      step s = .next { s with moves := rest, replies := s.replies ++ [.value 0x01] })

/-- Host accesses to the operand registers: SRC_LEN and DST_CAP take any value up to MAXLEN while the unit is not busy,
and nothing else changes (R27, R28); a read of CMD, SRC_LEN or DST_CAP returns what the register holds, the value last
written, and changes nothing (R25 to R28; that it is answered also while BUSY = 1 is log entry 11, DEDUCED). -/
def Obligations.HostWritesOperandRegisters : Prop :=
  ∀ (s : State) (v : Nat) (rest : List Move), v ≤ s.cfg.maxLen →
    (s.enc.busy = false →
      (s.moves = .write .enc .srcLen v :: rest →
        step s = .next { s with moves := rest, enc := { s.enc with srcLen := v } }) ∧
      (s.moves = .write .enc .dstCap v :: rest →
        step s = .next { s with moves := rest, enc := { s.enc with dstCap := v } })) ∧
    (s.dec.busy = false →
      (s.moves = .write .dec .srcLen v :: rest →
        step s = .next { s with moves := rest, dec := { s.dec with srcLen := v } }) ∧
      (s.moves = .write .dec .dstCap v :: rest →
        step s = .next { s with moves := rest, dec := { s.dec with dstCap := v } })) ∧
    (∀ u : UnitId,
      (s.moves = .read u .cmd :: rest →
        step s = .next { s with moves := rest, replies := s.replies ++ [.value (s.unit u).cmd.toNat] }) ∧
      (s.moves = .read u .srcLen :: rest →
        step s = .next { s with moves := rest, replies := s.replies ++ [.value (s.unit u).srcLen] }) ∧
      (s.moves = .read u .dstCap :: rest →
        step s = .next { s with moves := rest, replies := s.replies ++ [.value (s.unit u).dstCap] }))

/-- Collecting: when DONE = 1 a host that reads STATUS, DST_LEN and the result bytes gets what the operation left, and
the unit is as it was, so that reading again gives the same (R225, decision D25). R75 and R311 promise this to a host
that has seen DONE = 1 in STATUS; that the reads of DST_LEN and DST are answered without it is the model's choice (log
entry 8, DEDUCED, unsafe). -/
def Obligations.HostCollectsResult : Prop :=
  ∀ (s : State) (u : UnitId) (rest : List Move) (n : Nat) (bs : List Byte), (s.unit u).isDone = true →
    n ≤ cells s.cfg .dst → (s.unit u).dst.readBytes 0 n = some bs →
    (s.moves = .read u .status :: rest →
      step s = .next { s with moves := rest, replies := s.replies ++ [.value (s.unit u).status.toNat] }) ∧
    (s.moves = .poll u :: rest →
      step s = .next { s with moves := rest, replies := s.replies ++ [.value (s.unit u).status.toNat] }) ∧
    (s.moves = .read u .dstLen :: rest →
      step s = .next { s with moves := rest, replies := s.replies ++ [.value (s.unit u).dstLen] }) ∧
    (s.moves = .readMem u .dst 0 n :: rest →
      step s = .next { s with moves := rest, replies := s.replies ++ [.bytes bs] })

/-- The host's bytes arrive: after a host write of bytes to a space of a unit that is not busy, those cells read the
bytes, every other cell of the space reads as before, and the space keeps its canonical form (R38, R65, R225). -/
def Obligations.HostMemoryWriteReadsBack : Prop :=
  ∀ (s : State) (u : UnitId) (sp : Space) (i : Nat) (bs : List Byte) (rest : List Move), (s.unit u).busy = false →
    i + bs.length ≤ cells s.cfg sp → s.moves = .writeMem u sp i bs :: rest →
    ∃ t, step s = .next t ∧ ((t.unit u).space sp).readBytes i bs.length = some bs ∧
      (∀ a, a < i ∨ i + bs.length ≤ a → ((t.unit u).space sp).read a = ((s.unit u).space sp).read a) ∧
      (((s.unit u).space sp).wf → ((t.unit u).space sp).wf)

/-- Reset, at any time and whatever runs, puts both units at the reset table and abandons every operation: PHASE IDLE,
STATUS 0x00, DST_LEN, CMD, SRC_LEN, DST_CAP 0, stage valid bits 0 (R40, R300, R302; decision D16). That no cell of any
space then holds a value is how the model says that its bytes are unspecified (log entry 3). -/
def Obligations.ResetAtAnyTime : Prop :=
  ∀ (s : State) (u : UnitId) (rest : List Move), s.moves = .reset :: rest →
    ∃ t, step s = .next t ∧ t.cfg = s.cfg ∧ (t.unit u).phase = .idle ∧ (t.unit u).status = 0x00 ∧
      (t.unit u).dstLen = 0 ∧ (t.unit u).cmd = 0x00 ∧ (t.unit u).srcLen = 0 ∧ (t.unit u).dstCap = 0 ∧
      (t.unit u).hid.valid = List.replicate s.cfg.pipeDepth false ∧
      (∀ a, (t.unit u).src.read a = none ∧ (t.unit u).dst.read a = none)

/-! ## The reference sequencing -/

/-- The command write of an accepted encode initialises the unit (R155, decision D15): the latches copy the operands,
the indexes are 0, STATUS reads 0x01, and no byte is touched yet; the unit is then in RUN. -/
def Obligations.IssueLatchesOperands : Prop :=
  ∀ (i : Instr) (s : State) (b : List Byte) (e : Nat), i.unit = .enc → EncReady s b e →
    ∃ t, issue i s = .next t ∧ t.enc.phase = .run ∧ t.enc.status = 0x01 ∧ t.enc.dstLen = 0 ∧
      t.enc.hid = { op := (encode i).extractLsb' 0 3, n := s.enc.srcLen, cap := s.enc.dstCap, ipos := 0, opos := 0,
                    valid := List.replicate s.cfg.pipeDepth false } ∧
      EncCommandFrame (encode i) s t ∧ t.enc.dst = s.enc.dst

/-- The command write of a decode that passes its checks loads, beside the latches, the pad count and the body length
(R183, decision D15): D.P holds the count, at most 2 by then, and D.L the length without the pads. -/
def Obligations.IssueLoadsBody : Prop :=
  ∀ (i : Instr) (m : Mode) (s : State) (t : List Byte),
    i.decodeMode = some m →
    DecReady s t → t.length % 4 ≠ 1 → padCheck s.cfg.urlPadKind m t = none →
    ∃ u, issue i s = .next u ∧ u.dec.phase = .run ∧ u.dec.status = 0x01 ∧ u.dec.dstLen = 0 ∧
      u.dec.hid = { op := (encode i).extractLsb' 0 3, n := s.dec.srcLen, cap := s.dec.dstCap, ipos := 0, opos := 0,
                    valid := List.replicate s.cfg.pipeDepth false } ∧
      u.decData.p.toNat = padCount t ∧ padCount t ≤ 2 ∧ u.decData.l = s.dec.srcLen - padCount t ∧
      u.dec.cmd = encode i ∧ u.dec.src = s.dec.src ∧ u.dec.dst = s.dec.dst ∧ u.enc = s.enc

/-- One full-group step of the encoder (R158 to R160, decision D15): GRP, NB, the sextets and the characters are loaded,
the four characters stand at OPOS, every other byte of DST is as before, IPOS advances by 3 and OPOS by 4, and the unit
stays in RUN. `a` is the alphabet of `OP[1:0]`. -/
def Obligations.EncoderGroupStep : Prop :=
  ∀ (s : State) (b0 b1 b2 : Byte) (a : Alphabet), s.enc.phase = .run → s.enc.hid.ipos + 3 ≤ s.enc.hid.n →
    s.enc.src.readBytes s.enc.hid.ipos 3 = some [b0, b1, b2] →
    (a = .std ∧ s.enc.hid.op.extractLsb' 0 2 = 0) ∨ (a = .url ∧ s.enc.hid.op.extractLsb' 0 2 = 1) →
    ∃ t, encStep s = .next t ∧ t.encData.grp = b0 ++ b1 ++ b2 ∧ t.encData.nb = 3 ∧
      t.encData.s0 = t.encData.grp.extractLsb' 18 6 ∧ t.encData.s1 = t.encData.grp.extractLsb' 12 6 ∧
      t.encData.s2 = t.encData.grp.extractLsb' 6 6 ∧ t.encData.s3 = t.encData.grp.extractLsb' 0 6 ∧
      t.encData.c0 = encTab a t.encData.s0 ∧ t.encData.c1 = encTab a t.encData.s1 ∧
      t.encData.c2 = encTab a t.encData.s2 ∧ t.encData.c3 = encTab a t.encData.s3 ∧
      t.enc.dst.readBytes s.enc.hid.opos 4 = some [t.encData.c0, t.encData.c1, t.encData.c2, t.encData.c3] ∧
      (∀ k, k < s.enc.hid.opos ∨ s.enc.hid.opos + 4 ≤ k → t.enc.dst.read k = s.enc.dst.read k) ∧
      t.enc.hid = { s.enc.hid with ipos := s.enc.hid.ipos + 3, opos := s.enc.hid.opos + 4 } ∧
      t.enc.phase = .run ∧ t.enc.src = s.enc.src ∧ t.dec = s.dec

/-- One full-group step of the decoder on four valid symbols (R190 to R192, decision D15): the symbols and their values
are loaded, bit 6 of each value clear, the three bytes of GRP stand at OPOS, every other byte of DST is as before, IPOS
advances by 4 and OPOS by 3, and the unit stays in RUN. -/
def Obligations.DecoderGroupStep : Prop :=
  ∀ (s : State) (c0 c1 c2 c3 : Byte) (v0 v1 v2 v3 : Sextet), s.dec.phase = .run →
    s.dec.hid.ipos + 4 ≤ s.decData.l → s.dec.src.readBytes s.dec.hid.ipos 4 = some [c0, c1, c2, c3] →
    decTab (opMode s.dec.hid.op) c0 = some v0 → decTab (opMode s.dec.hid.op) c1 = some v1 →
    decTab (opMode s.dec.hid.op) c2 = some v2 → decTab (opMode s.dec.hid.op) c3 = some v3 →
    ∃ t, decStep s = .next t ∧
      t.decData.y0 = c0 ∧ t.decData.y1 = c1 ∧ t.decData.y2 = c2 ∧ t.decData.y3 = c3 ∧
      t.decData.v0 = 0#1 ++ v0 ∧ t.decData.v1 = 0#1 ++ v1 ∧ t.decData.v2 = 0#1 ++ v2 ∧ t.decData.v3 = 0#1 ++ v3 ∧
      t.decData.grp = v0 ++ v1 ++ v2 ++ v3 ∧ t.decData.p = s.decData.p ∧ t.decData.l = s.decData.l ∧
      t.dec.dst.readBytes s.dec.hid.opos 3 =
        some [t.decData.grp.extractLsb' 16 8, t.decData.grp.extractLsb' 8 8, t.decData.grp.extractLsb' 0 8] ∧
      (∀ k, k < s.dec.hid.opos ∨ s.dec.hid.opos + 3 ≤ k → t.dec.dst.read k = s.dec.dst.read k) ∧
      t.dec.hid = { s.dec.hid with ipos := s.dec.hid.ipos + 4, opos := s.dec.hid.opos + 3 } ∧
      t.dec.phase = .run ∧ t.dec.src = s.dec.src ∧ t.enc = s.enc

/-- Agreement of the two descriptions of an encode: issued, the unit stays in RUN for exactly
`floor(n/3) + (1 if n mod 3 != 0) + 1` of its own steps, the last of which leaves the very state the atomic transition
gives (R165; its licence for the atomic transition is decision D1). -/
def Obligations.EncodeSequencingAgrees : Prop :=
  ∀ (i : Instr) (s : State) (b : List Byte) (e : Nat), i.unit = .enc → EncReady s b e →
    ∃ t, issue i s = .next t ∧
      (∀ j, j < sequencingSteps 3 s.enc.srcLen → ∃ v, unitSteps .enc j t = .next v ∧ v.enc.busy = true) ∧
      unitSteps .enc (sequencingSteps 3 s.enc.srcLen) t = exec i s

/-- Agreement of the two descriptions of a decode, for texts that pass the checks of the command write: issued, the unit
reaches DONE after at most `floor(L/4) + (1 if L mod 4 != 0) + 1` of its own steps, in the very state the atomic
transition gives, whether it succeeds or fails (R204, decision D1). -/
def Obligations.DecodeSequencingAgrees : Prop :=
  ∀ (i : Instr) (m : Mode) (s : State) (t : List Byte),
    i.decodeMode = some m →
    DecReady s t → t.length % 4 ≠ 1 → padCheck s.cfg.urlPadKind m t = none →
    ∃ u, issue i s = .next u ∧ ∃ k, 1 ≤ k ∧ k ≤ sequencingSteps 4 (t.length - padCount t) ∧
      (∀ j, j < k → ∃ v, unitSteps .dec j u = .next v ∧ v.dec.busy = true) ∧
      unitSteps .dec k u = exec i s ∧ ∃ v, exec i s = .next v ∧ v.dec.isDone = true

/-- A command write that fails a check of its own ends the same whether it is run to DONE or only issued: the issue step is
then the whole operation (R222, R321). -/
def Obligations.FailedIssueIsWholeOperation : Prop :=
  ∀ (i : Instr) (s t : State), issue i s = .next t → (t.unit i.unit).busy = false → exec i s = .next t

/-- A unit in RUN always has an enabled step and reaches DONE after a bounded number of its own steps: from every state
of the invariant, at most `floor(MAXLEN/3) + 2` for the encoder and `floor(MAXLEN/4) + 2` for the decoder
(R167, R206, R223, R279). Steps of the machine bring it there too, however the host waits: with no move pending, polling
the unit, polling a unit that is in IDLE, or with a pseudo-operation waiting for the unit (R223's weak fairness; the
schedule is the model's choice, log entries 18 and 19). -/
def Obligations.RunningUnitReachesDone : Prop :=
  ∀ s : State, Inv s →
    (s.enc.busy = true → ∃ k t, k ≤ s.cfg.maxLen / 3 + 2 ∧ unitSteps .enc k s = .next t ∧ t.enc.isDone = true) ∧
    (s.dec.busy = true → ∃ k t, k ≤ s.cfg.maxLen / 4 + 2 ∧ unitSteps .dec k s = .next t ∧ t.dec.isDone = true) ∧
    (∀ v : UnitId, (s.unit v).busy = true → WaitsFor v s →
      ∃ k t, k ≤ s.cfg.maxLen / 3 + s.cfg.maxLen / 4 + 4 ∧ machineSteps k s = .next t ∧ (t.unit v).isDone = true)

/-! ## The whole machine -/

/-- The units share no mutable state and their steps commute: whichever of two enabled steps goes first, the state after
both is the same (R22, R288, derived by the spec). -/
def Obligations.UnitStepsCommute : Prop :=
  ∀ s e d : State, encStep s = .next e → decStep s = .next d → ∃ t, decStep e = .next t ∧ encStep d = .next t

/-- Determinism: what the contract names (ERR, DST_LEN and, on success, the result bytes and terminator) is a function of
the command word, SRC_LEN, DST_CAP and the SRC bytes below SRC_LEN, for fixed parameters; nothing earlier, in the other unit
or in SRC beyond the length has a part in it. Kinds are reported in order: `any_applicable` leaves them free (R251). -/
def Obligations.ResultDependsOnOperandsOnly : Prop :=
  ∀ (u : UnitId) (w : Byte) (s s' t : State), s'.cfg = s.cfg → s.cfg.jointErr = .inOrder →
    (s.unit u).busy = false → (s'.unit u).busy = false →
    (s'.unit u).srcLen = (s.unit u).srcLen → (s'.unit u).dstCap = (s.unit u).dstCap →
    (∀ a, a < (s.unit u).srcLen → (s'.unit u).src.read a = (s.unit u).src.read a) →
    commandWrite u w s = .next t →
    ∃ t', commandWrite u w s' = .next t' ∧ (t'.unit u).err = (t.unit u).err ∧
      (t'.unit u).dstLen = (t.unit u).dstLen ∧
      ((t.unit u).err = codeOk →
        (t'.unit u).dst.readBytes 0 ((t.unit u).dstLen + 1) = (t.unit u).dst.readBytes 0 ((t.unit u).dstLen + 1) ∧
        ((t.unit u).dst.readBytes 0 ((t.unit u).dstLen + 1)).isSome)

/-- A unit's own step never writes SRC, and never writes DST at or above its capacity, from every state of the invariant
(R65, R67, R248). -/
def Obligations.UnitStepKeepsBounds : Prop :=
  ∀ s t : State, Inv s →
    (encStep s = .next t → t.enc.src = s.enc.src ∧ t.dec = s.dec ∧
      ∀ a, s.enc.dstCap ≤ a → t.enc.dst.read a = s.enc.dst.read a) ∧
    (decStep s = .next t → t.dec.src = s.dec.src ∧ t.enc = s.enc ∧
      ∀ a, s.dec.dstCap ≤ a → t.dec.dst.read a = s.dec.dst.read a)

/-- The allocating pseudo-operations (R228 to R231 and R274; decision D22). An overflow of the size answers OVF at once
and leaves the unit alone. Otherwise, on a busy unit, the host waits while the unit steps (R220; log entry 19); on a free
unit the operation answers in one step: NOMEM, nothing but the counter of free values changed, where `allocate` fails;
else IARG, or the text or bytes, handed over in a buffer of the size plus one, or the decoder's kind, the buffer
released. No step ever changes a buffer that has been handed over. -/
def Obligations.PseudoOperationsAnswer : Prop :=
  (∀ (q : Pseudo) (bytes : List Byte) (s : State) (rest : List Move), s.moves = .pseudo q bytes :: rest →
    bytes.length ≤ s.cfg.maxLen →
    let u := q.instr.unit
    (q.size s.cfg bytes.length = none →
      step s = .next { s with moves := rest, replies := s.replies ++ [.failure ErrKind.ovf.code] }) ∧
    (∀ e, q.size s.cfg bytes.length = some e →
      ((s.unit u).busy = true → step s = unitStep u s) ∧
      ((s.unit u).busy = false →
        ∃ t, step s = .next t ∧ t.moves = rest ∧ (∀ v, v ≠ u → t.unit v = s.unit v) ∧
          if Config.freeAlloc u (s.unit u).draw = true then PseudoEnd q bytes e s t
          else t = { (s.drawOne u) with moves := rest, replies := s.replies ++ [.failure ErrKind.nomem.code] }))) ∧
  (∀ s t : State, step s = .next t → s.owned <+: t.owned)

/-- The parameters are fixed for a machine: no step changes them (R9). -/
def Obligations.ParametersNeverChange : Prop :=
  ∀ s t : State, step s = .next t → t.cfg = s.cfg

/-- The reset state meets the invariant, for every legal choice of the parameters (the spaces are empty, every register
at the value of the table of 10_state.md section 5). -/
def Obligations.ResetMeetsInvariant : Prop :=
  (∀ p : Params, p.wf = true → Inv (State.resetWith p)) ∧ Inv State.reset

/-- Every step, whoever takes it, keeps the invariant: the spaces stay canonical and inside the cells that exist, the
length registers fit LENW bits, ERR holds only codes the hardware writes and reads 0 before an operation has ended, a
failed operation reports no data, and a running unit's indexes stay within its latches. -/
def Obligations.StepKeepsInvariant : Prop :=
  ∀ s t : State, Inv s → step s = .next t → Inv t
end

