-- ==== Sys2Proof/Laws/Memory.lean ====
section
/-! SUPPORT. The laws of a byte space: read after write, writes leave every other cell alone, every operation keeps the
canonical form, and the same for runs of consecutive bytes. -/

namespace Sys2Proof.Machine

@[simp] theorem Mem.read_nil (x : Nat) : Mem.read [] x = none := rfl

/-- In a canonical memory nothing is listed below the head's index. -/
theorem Mem.read_lt_head {a : Nat} {v : Byte} {m : Mem} (h : Mem.wf ((a, v) :: m)) {x : Nat} (hx : x < a) :
    Mem.read ((a, v) :: m) x = none := by
  induction m generalizing a v with
  | nil => simp [Mem.read, Nat.ne_of_lt hx]
  | cons c m ih =>
    obtain ⟨b, w⟩ := c
    have hb : a < b := (List.pairwise_cons.1 h).1 _ List.mem_cons_self
    have := ih (a := b) (v := w) (List.pairwise_cons.1 h).2 (Nat.lt_trans hx hb)
    simpa [Mem.read, Nat.ne_of_lt hx] using this

/-- Read after write, at any cell. -/
theorem Mem.read_write (m : Mem) (x y : Nat) (v : Byte) :
    Mem.read (m.write x v) y = if y = x then some v else m.read y := by
  induction m with
  | nil => simp [Mem.write, Mem.read]
  | cons c m ih =>
    obtain ⟨a, w⟩ := c
    unfold Mem.write
    split_ifs with h1 h2 <;> simp only [Mem.read] <;> split_ifs <;> simp_all

@[simp] theorem Mem.read_write_same (m : Mem) (x : Nat) (v : Byte) : Mem.read (m.write x v) x = some v := by
  simp [Mem.read_write]

/-- The cells a write lists are the old ones and the written one. -/
theorem Mem.mem_write {m : Mem} {x : Nat} {v : Byte} {c : Host.Cell} (h : c ∈ m.write x v) : c = (x, v) ∨ c ∈ m := by
  induction m with
  | nil => simpa [Mem.write] using h
  | cons d m ih =>
    obtain ⟨a, w⟩ := d
    unfold Mem.write at h
    split_ifs at h <;> simp only [List.mem_cons] at h ⊢ <;> tauto

/-- A write keeps the canonical form. -/
theorem Mem.wf_write {m : Mem} (h : m.wf) (x : Nat) (v : Byte) : (m.write x v).wf := by
  induction m with
  | nil => simp [Mem.write, Mem.wf]
  | cons c m ih =>
    obtain ⟨a, w⟩ := c
    obtain ⟨hlt, hm⟩ := List.pairwise_cons.1 h
    unfold Mem.write
    split_ifs with h1 h2
    · refine List.pairwise_cons.2 ⟨fun d hd => ?_, h⟩
      rcases List.mem_cons.1 hd with rfl | hd
      · exact h1
      · exact Nat.lt_trans h1 (hlt d hd)
    · subst h2
      exact List.pairwise_cons.2 ⟨hlt, hm⟩
    · refine List.pairwise_cons.2 ⟨fun d hd => ?_, ih hm⟩
      rcases Mem.mem_write hd with rfl | hd
      · simp only; omega
      · exact hlt d hd

@[simp] theorem Mem.writeBytes_nil (m : Mem) (x : Nat) : m.writeBytes x [] = m := rfl

/-- Read after a run of writes: the byte of the run at that place, or what was there. -/
theorem Mem.read_writeBytes (m : Mem) (x y : Nat) (bs : List Byte) :
    Mem.read (m.writeBytes x bs) y = if x ≤ y ∧ y < x + bs.length then bs[y - x]? else m.read y := by
  induction bs generalizing m x with
  | nil => simp [Mem.writeBytes]
  | cons b bs ih =>
    simp only [Mem.writeBytes, ih, Mem.read_write, List.length_cons]
    by_cases h : y = x
    · subst h
      simp
    · by_cases h2 : x + 1 ≤ y ∧ y < x + 1 + bs.length
      · have h3 : x ≤ y ∧ y < x + (bs.length + 1) := by omega
        have h4 : y - x = (y - (x + 1)) + 1 := by omega
        rw [if_pos h2, if_pos h3, h4]
        simp
      · have h3 : ¬(x ≤ y ∧ y < x + (bs.length + 1)) := by omega
        rw [if_neg h2, if_neg h3, if_neg h]

/-- Outside the run nothing changes. -/
theorem Mem.read_writeBytes_outside {m : Mem} {x y : Nat} {bs : List Byte} (h : y < x ∨ x + bs.length ≤ y) :
    Mem.read (m.writeBytes x bs) y = m.read y := by
  rw [Mem.read_writeBytes, if_neg (by omega)]

theorem Mem.mem_writeBytes {m : Mem} {x : Nat} {bs : List Byte} {c : Host.Cell} (h : c ∈ m.writeBytes x bs) :
    (x ≤ c.1 ∧ c.1 < x + bs.length) ∨ c ∈ m := by
  induction bs generalizing m x with
  | nil => exact .inr h
  | cons b bs ih =>
    rcases ih h with h | h
    · left
      simp only [List.length_cons]
      omega
    · rcases Mem.mem_write h with rfl | h
      · left
        simp
      · exact .inr h

/-- A run of writes keeps the canonical form. -/
theorem Mem.wf_writeBytes {m : Mem} (h : m.wf) (x : Nat) (bs : List Byte) : (m.writeBytes x bs).wf := by
  induction bs generalizing m x with
  | nil => exact h
  | cons b bs ih => exact ih (Mem.wf_write h x b) (x + 1)

/-- A run of writes in two pieces. -/
theorem Mem.writeBytes_append (m : Mem) (x : Nat) (as bs : List Byte) :
    m.writeBytes x (as ++ bs) = (m.writeBytes x as).writeBytes (x + as.length) bs := by
  induction as generalizing m x with
  | nil => simp
  | cons a as ih =>
    simp only [List.cons_append, Mem.writeBytes, ih, List.length_cons]
    congr 1
    omega

theorem Mem.write_eq_writeBytes (m : Mem) (x : Nat) (v : Byte) : m.write x v = m.writeBytes x [v] := rfl

/-- A read of consecutive bytes succeeds with `bs` exactly when each cell holds the byte of `bs` at its place. -/
theorem Mem.readBytes_eq_some {m : Mem} {x n : Nat} {bs : List Byte} :
    m.readBytes x n = some bs ↔ bs.length = n ∧ ∀ k, k < n → m.read (x + k) = bs[k]? := by
  induction n generalizing x bs with
  | zero =>
    simp only [Mem.readBytes, Option.some.injEq, Nat.not_lt_zero, false_implies, implies_true, and_true]
    constructor
    · rintro rfl; rfl
    · intro h; exact (List.eq_nil_of_length_eq_zero h).symm
  | succ n ih =>
    unfold Mem.readBytes
    constructor
    · intro h
      split at h
      · cases h
      · rename_i b hb
        split at h
        · cases h
        · rename_i bs' hbs
          cases h
          obtain ⟨hl, hk⟩ := ih.1 hbs
          refine ⟨by simp [hl], fun k hkn => ?_⟩
          cases k with
          | zero => simpa using hb
          | succ k =>
            have := hk k (by omega)
            rw [show x + (k + 1) = x + 1 + k by omega, this]
            simp
    · rintro ⟨hl, hk⟩
      cases bs with
      | nil => simp at hl
      | cons b bs =>
        have h0 : m.read x = some b := by simpa using hk 0 (by omega)
        have h1 : m.readBytes (x + 1) n = some bs := by
          refine ih.2 ⟨by simpa using hl, fun k hkn => ?_⟩
          have := hk (k + 1) (by omega)
          rw [show x + (k + 1) = x + 1 + k by omega] at this
          simpa using this
        simp [h0, h1]

theorem Mem.readBytes_length {m : Mem} {x n : Nat} {bs : List Byte} (h : m.readBytes x n = some bs) : bs.length = n :=
  (Mem.readBytes_eq_some.1 h).1

/-- A run of writes reads back. -/
theorem Mem.readBytes_writeBytes (m : Mem) (x : Nat) (bs : List Byte) :
    (m.writeBytes x bs).readBytes x bs.length = some bs := by
  refine Mem.readBytes_eq_some.2 ⟨rfl, fun k hk => ?_⟩
  rw [Mem.read_writeBytes, if_pos (by omega)]
  congr 1
  omega

/-- Bytes read from a place where both memories agree are the same. -/
theorem Mem.readBytes_congr {m m' : Mem} {x n : Nat} (h : ∀ k, k < n → m.read (x + k) = m'.read (x + k)) :
    m.readBytes x n = m'.readBytes x n := by
  induction n generalizing x with
  | zero => rfl
  | succ n ih =>
    have h0 := h 0 (by omega)
    have ht : m.readBytes (x + 1) n = m'.readBytes (x + 1) n := ih (fun k hk => by
      have := h (k + 1) (by omega)
      rwa [show x + (k + 1) = x + 1 + k by omega] at this)
    simp only [Nat.add_zero] at h0
    unfold Mem.readBytes
    rw [h0, ht]

/-- A part of a run of bytes that is there is there. -/
theorem Mem.readBytes_sub {m : Mem} {x n i k : Nat} {bs : List Byte} (h : m.readBytes x n = some bs) (hik : i + k ≤ n) :
    m.readBytes (x + i) k = some ((bs.drop i).take k) := by
  obtain ⟨hl, hb⟩ := Mem.readBytes_eq_some.1 h
  refine Mem.readBytes_eq_some.2 ⟨by simp; omega, fun j hj => ?_⟩
  rw [Nat.add_assoc, hb (i + j) (by omega), List.getElem?_take_of_lt hj, List.getElem?_drop]

/-- Equal memories are equal data: two canonical memories that read the same everywhere are the same list. -/
theorem Mem.ext_of_wf {m m' : Mem} (h : m.wf) (h' : m'.wf) (hr : ∀ x, m.read x = m'.read x) : m = m' := by
  induction m generalizing m' with
  | nil =>
    cases m' with
    | nil => rfl
    | cons c m' =>
      obtain ⟨a, v⟩ := c
      simpa [Mem.read] using hr a
  | cons c m ih =>
    obtain ⟨a, v⟩ := c
    cases m' with
    | nil => simpa [Mem.read] using hr a
    | cons d m' =>
      obtain ⟨b, w⟩ := d
      have hab : a = b := by
        rcases Nat.lt_trichotomy a b with hlt | heq | hlt
        · have := hr a
          rw [Mem.read_lt_head h' hlt] at this
          simp [Mem.read] at this
        · exact heq
        · have := hr b
          rw [Mem.read_lt_head h hlt] at this
          simp [Mem.read] at this
      subst hab
      have hvw : v = w := by simpa [Mem.read] using hr a
      subst hvw
      congr 1
      refine ih (List.pairwise_cons.1 h).2 (List.pairwise_cons.1 h').2 (fun x => ?_)
      have head_none : ∀ {n : Mem}, Mem.wf ((a, v) :: n) → Mem.read n a = none := by
        intro n hn
        cases n with
        | nil => rfl
        | cons e n =>
          exact Mem.read_lt_head (List.pairwise_cons.1 hn).2 ((List.pairwise_cons.1 hn).1 e (by simp))
      by_cases hx : x = a
      · subst hx
        rw [head_none h, head_none h']
      · simpa [Mem.read, hx] using hr x

end Sys2Proof.Machine
end

