-- ==== Sys2Proof/Laws/State.lean ====
section
/-! SUPPORT. One lemma per field per update of the state, all true by definition, so that no later proof unfolds a
record update. -/

namespace Sys2Proof.Machine

section Units
variable (s : State) (u : UnitId) (x : CodecUnit)

@[simp] theorem State.unit_enc : s.unit .enc = s.enc := rfl
@[simp] theorem State.unit_dec : s.unit .dec = s.dec := rfl
@[simp] theorem State.setUnit_enc_enc : (s.setUnit .enc x).enc = x := rfl
@[simp] theorem State.setUnit_enc_dec : (s.setUnit .enc x).dec = s.dec := rfl
@[simp] theorem State.setUnit_dec_enc : (s.setUnit .dec x).enc = s.enc := rfl
@[simp] theorem State.setUnit_dec_dec : (s.setUnit .dec x).dec = x := rfl
@[simp] theorem State.unit_setUnit : (s.setUnit u x).unit u = x := by cases u <;> rfl
@[simp] theorem State.setUnit_cfg : (s.setUnit u x).cfg = s.cfg := by cases u <;> rfl
@[simp] theorem State.setUnit_encData : (s.setUnit u x).encData = s.encData := by cases u <;> rfl
@[simp] theorem State.setUnit_decData : (s.setUnit u x).decData = s.decData := by cases u <;> rfl
@[simp] theorem State.setUnit_moves : (s.setUnit u x).moves = s.moves := by cases u <;> rfl
@[simp] theorem State.setUnit_replies : (s.setUnit u x).replies = s.replies := by cases u <;> rfl
@[simp] theorem State.setUnit_owned : (s.setUnit u x).owned = s.owned := by cases u <;> rfl

end Units

section Accept
variable (s : State) (u : UnitId) (w : Byte) (p : Params) (x : CodecUnit)

@[simp] theorem State.unit_accept : (s.accept u w).unit u = (s.unit u).accept s.cfg w := by simp [State.accept]
@[simp] theorem State.accept_enc_enc : (s.accept .enc w).enc = s.enc.accept s.cfg w := rfl
@[simp] theorem State.accept_enc_dec : (s.accept .enc w).dec = s.dec := rfl
@[simp] theorem State.accept_dec_enc : (s.accept .dec w).enc = s.enc := rfl
@[simp] theorem State.accept_dec_dec : (s.accept .dec w).dec = s.dec.accept s.cfg w := rfl
@[simp] theorem State.accept_cfg : (s.accept u w).cfg = s.cfg := by simp [State.accept]
@[simp] theorem State.accept_encData : (s.accept u w).encData = s.encData := by simp [State.accept]
@[simp] theorem State.accept_decData : (s.accept u w).decData = s.decData := by simp [State.accept]
@[simp] theorem State.accept_moves : (s.accept u w).moves = s.moves := by simp [State.accept]
@[simp] theorem State.accept_replies : (s.accept u w).replies = s.replies := by simp [State.accept]
@[simp] theorem State.accept_owned : (s.accept u w).owned = s.owned := by simp [State.accept]

@[simp] theorem CodecUnit.accept_cmd : (x.accept p w).cmd = w := rfl
@[simp] theorem CodecUnit.accept_srcLen : (x.accept p w).srcLen = x.srcLen := rfl
@[simp] theorem CodecUnit.accept_dstCap : (x.accept p w).dstCap = x.dstCap := rfl
@[simp] theorem CodecUnit.accept_phase : (x.accept p w).phase = .run := rfl
@[simp] theorem CodecUnit.accept_err : (x.accept p w).err = codeOk := rfl
@[simp] theorem CodecUnit.accept_dstLen : (x.accept p w).dstLen = 0 := rfl
@[simp] theorem CodecUnit.accept_op : (x.accept p w).hid.op = w.extractLsb' 0 3 := rfl
@[simp] theorem CodecUnit.accept_n : (x.accept p w).hid.n = x.srcLen := rfl
@[simp] theorem CodecUnit.accept_cap : (x.accept p w).hid.cap = x.dstCap := rfl
@[simp] theorem CodecUnit.accept_ipos : (x.accept p w).hid.ipos = 0 := rfl
@[simp] theorem CodecUnit.accept_opos : (x.accept p w).hid.opos = 0 := rfl
@[simp] theorem CodecUnit.accept_valid : (x.accept p w).hid.valid = List.replicate p.pipeDepth false := rfl
@[simp] theorem CodecUnit.accept_src : (x.accept p w).src = x.src := rfl
@[simp] theorem CodecUnit.accept_dst : (x.accept p w).dst = x.dst := rfl
@[simp] theorem CodecUnit.accept_draw : (x.accept p w).draw = x.draw := rfl

end Accept

section Ended
variable (s : State) (u : UnitId) (c : BitVec 4) (l : Nat) (d : Mem) (p : Params) (x : CodecUnit)

@[simp] theorem CodecUnit.ended_cmd : (x.ended p u c l d).cmd = x.cmd := rfl
@[simp] theorem CodecUnit.ended_srcLen : (x.ended p u c l d).srcLen = x.srcLen := rfl
@[simp] theorem CodecUnit.ended_dstCap : (x.ended p u c l d).dstCap = x.dstCap := rfl
@[simp] theorem CodecUnit.ended_phase : (x.ended p u c l d).phase = .done := rfl
@[simp] theorem CodecUnit.ended_err : (x.ended p u c l d).err = c := rfl
@[simp] theorem CodecUnit.ended_dstLen : (x.ended p u c l d).dstLen = l := rfl
@[simp] theorem CodecUnit.ended_hid : (x.ended p u c l d).hid = freeHidden p u x.draw := rfl
@[simp] theorem CodecUnit.ended_src : (x.ended p u c l d).src = x.src := rfl
@[simp] theorem CodecUnit.ended_dst : (x.ended p u c l d).dst = d := rfl

@[simp] theorem State.unit_endUnit : (s.endUnit u c l d).unit u = (s.unit u).ended s.cfg u c l d := by cases u <;> rfl
@[simp] theorem State.endUnit_enc_enc : (s.endUnit .enc c l d).enc = s.enc.ended s.cfg .enc c l d := rfl
@[simp] theorem State.endUnit_enc_dec : (s.endUnit .enc c l d).dec = s.dec := rfl
@[simp] theorem State.endUnit_enc_decData : (s.endUnit .enc c l d).decData = s.decData := rfl
@[simp] theorem State.endUnit_dec_dec : (s.endUnit .dec c l d).dec = s.dec.ended s.cfg .dec c l d := rfl
@[simp] theorem State.endUnit_dec_enc : (s.endUnit .dec c l d).enc = s.enc := rfl
@[simp] theorem State.endUnit_dec_encData : (s.endUnit .dec c l d).encData = s.encData := rfl
@[simp] theorem State.endUnit_dec_decData : (s.endUnit .dec c l d).decData = freeDecData s.cfg s.dec.draw := rfl
@[simp] theorem State.endUnit_cfg : (s.endUnit u c l d).cfg = s.cfg := by cases u <;> rfl
@[simp] theorem State.endUnit_moves : (s.endUnit u c l d).moves = s.moves := by cases u <;> rfl
@[simp] theorem State.endUnit_replies : (s.endUnit u c l d).replies = s.replies := by cases u <;> rfl
@[simp] theorem State.endUnit_owned : (s.endUnit u c l d).owned = s.owned := by cases u <;> rfl

end Ended

section Result
variable (s : State) (u : UnitId) (out : List Byte)

@[simp] theorem State.unit_putResult : (s.putResult u out).unit u =
    { s.unit u with dst := (s.unit u).dst.writeBytes 0 out, hid := { (s.unit u).hid with opos := out.length } } := by
  cases u <;> rfl
@[simp] theorem State.putResult_enc_enc : (s.putResult .enc out).enc =
    { s.enc with dst := s.enc.dst.writeBytes 0 out, hid := { s.enc.hid with opos := out.length } } := rfl
@[simp] theorem State.putResult_enc_dec : (s.putResult .enc out).dec = s.dec := rfl
@[simp] theorem State.putResult_dec_dec : (s.putResult .dec out).dec =
    { s.dec with dst := s.dec.dst.writeBytes 0 out, hid := { s.dec.hid with opos := out.length } } := rfl
@[simp] theorem State.putResult_dec_enc : (s.putResult .dec out).enc = s.enc := rfl
@[simp] theorem State.putResult_cfg : (s.putResult u out).cfg = s.cfg := by cases u <;> rfl
@[simp] theorem State.putResult_encData : (s.putResult u out).encData = s.encData := by cases u <;> rfl
@[simp] theorem State.putResult_decData : (s.putResult u out).decData = s.decData := by cases u <;> rfl
@[simp] theorem State.putResult_moves : (s.putResult u out).moves = s.moves := by cases u <;> rfl
@[simp] theorem State.putResult_replies : (s.putResult u out).replies = s.replies := by cases u <;> rfl
@[simp] theorem State.putResult_owned : (s.putResult u out).owned = s.owned := by cases u <;> rfl

end Result

section Body
variable (s : State) (t : List Byte)

@[simp] theorem State.loadBody_cfg : (s.loadBody t).cfg = s.cfg := rfl
@[simp] theorem State.loadBody_enc : (s.loadBody t).enc = s.enc := rfl
@[simp] theorem State.loadBody_dec : (s.loadBody t).dec = s.dec := rfl
@[simp] theorem State.loadBody_encData : (s.loadBody t).encData = s.encData := rfl
@[simp] theorem State.loadBody_l : (s.loadBody t).decData.l = t.length - padCount t := rfl
@[simp] theorem State.loadBody_p : (s.loadBody t).decData.p = BitVec.ofNat 2 (padCountSaturated t) := rfl
@[simp] theorem State.loadBody_moves : (s.loadBody t).moves = s.moves := rfl
@[simp] theorem State.loadBody_replies : (s.loadBody t).replies = s.replies := rfl
@[simp] theorem State.loadBody_owned : (s.loadBody t).owned = s.owned := rfl

end Body

section Replies
variable (s : State) (r : Reply) (u : UnitId)

@[simp] theorem State.reply_cfg : (s.reply r).cfg = s.cfg := rfl
@[simp] theorem State.reply_enc : (s.reply r).enc = s.enc := rfl
@[simp] theorem State.reply_dec : (s.reply r).dec = s.dec := rfl
@[simp] theorem State.reply_unit : (s.reply r).unit u = s.unit u := by cases u <;> rfl
@[simp] theorem State.reply_encData : (s.reply r).encData = s.encData := rfl
@[simp] theorem State.reply_decData : (s.reply r).decData = s.decData := rfl
@[simp] theorem State.reply_moves : (s.reply r).moves = s.moves := rfl
@[simp] theorem State.reply_replies : (s.reply r).replies = s.replies ++ [r] := rfl
@[simp] theorem State.reply_owned : (s.reply r).owned = s.owned := rfl

@[simp] theorem State.unit_drawOne : (s.drawOne u).unit u = { s.unit u with draw := (s.unit u).draw + 1 } := by
  simp [State.drawOne]
@[simp] theorem State.drawOne_cfg : (s.drawOne u).cfg = s.cfg := by simp [State.drawOne]
@[simp] theorem State.drawOne_moves : (s.drawOne u).moves = s.moves := by simp [State.drawOne]
@[simp] theorem State.drawOne_replies : (s.drawOne u).replies = s.replies := by simp [State.drawOne]
@[simp] theorem State.drawOne_owned : (s.drawOne u).owned = s.owned := by simp [State.drawOne]

end Replies

section Status
variable (x : CodecUnit)

/-- BUSY is PHASE = RUN (R29). -/
@[simp] theorem CodecUnit.busy_eq_true : x.busy = true ↔ x.phase = .run := by simp [CodecUnit.busy]
@[simp] theorem CodecUnit.busy_eq_false : x.busy = false ↔ x.phase ≠ .run := by simp [CodecUnit.busy]
/-- DONE is PHASE = DONE (R29). -/
@[simp] theorem CodecUnit.isDone_eq_true : x.isDone = true ↔ x.phase = .done := by simp [CodecUnit.isDone]

/-- STATUS of a unit that has ended: the code and DONE (R104). -/
theorem CodecUnit.status_of_done (h : x.phase = .done) : x.status = x.err ++ (0b0010 : BitVec 4) := by
  have key : ∀ e : BitVec 4, e ++ (0 : BitVec 2) ++ BitVec.ofBool true ++ BitVec.ofBool false = e ++ (0b0010 : BitVec 4) := by
    decide
  unfold CodecUnit.status CodecUnit.isDone CodecUnit.busy
  rw [h]
  exact key x.err

/-- STATUS of a running unit: the code, which is 0, and BUSY (R104). -/
theorem CodecUnit.status_of_run (h : x.phase = .run) : x.status = x.err ++ (0b0001 : BitVec 4) := by
  have key : ∀ e : BitVec 4, e ++ (0 : BitVec 2) ++ BitVec.ofBool false ++ BitVec.ofBool true = e ++ (0b0001 : BitVec 4) := by
    decide
  unfold CodecUnit.status CodecUnit.isDone CodecUnit.busy
  rw [h]
  exact key x.err

end Status

end Sys2Proof.Machine
end

