-- ==== Sys2Proof/Laws/Tables.lean ====
section
/-! SUPPORT. The laws of the tables, the group and the size calculator that the laws of the two units rest on. -/

namespace Sys2Proof.Machine
set_option Elab.async false

/-! ### Tables -/

/-- The matching decode table gives every sextet's character its value back. -/
theorem decTab_encTab_std : ∀ s : Sextet, decTab .std (encTab .std s) = some s := by decide +kernel
theorem decTab_encTab_url : ∀ s : Sextet, decTab .url (encTab .url s) = some s := by decide +kernel
theorem decTab_mix_encTab_std : ∀ s : Sextet, decTab .mix (encTab .std s) = some s := by decide +kernel
theorem decTab_mix_encTab_url : ∀ s : Sextet, decTab .mix (encTab .url s) = some s := by decide +kernel

/-- What the Standard table accepts is the character of its value. -/
theorem encTab_of_decTab_std : ∀ (c : Byte) (s : Sextet), decTab .std c = some s → encTab .std s = c := by
  have h : ∀ c : Byte, (decTab .std c).all (fun s => encTab .std s == c) = true := by decide +kernel
  intro c s hs
  simpa [hs] using h c

/-- What the URL-safe table accepts is the character of its value. -/
theorem encTab_of_decTab_url : ∀ (c : Byte) (s : Sextet), decTab .url c = some s → encTab .url s = c := by
  have h : ∀ c : Byte, (decTab .url c).all (fun s => encTab .url s == c) = true := by decide +kernel
  intro c s hs
  simpa [hs] using h c

/-- What the Mixed table accepts is the Standard character of its value once `-` is read as `+` and `_` as `/`. -/
theorem encTab_of_decTab_mix : ∀ (c : Byte) (s : Sextet), decTab .mix c = some s →
    encTab .std s = (if c = 0x2D then 0x2B else if c = 0x5F then 0x2F else c) := by
  have h : ∀ c : Byte, (decTab .mix c).all (fun s =>
      encTab .std s == (if c = 0x2D then 0x2B else if c = 0x5F then 0x2F else c)) = true := by decide +kernel
  intro c s hs
  simpa [hs] using h c

/-- The pad is INVALID in every table (R127). -/
theorem decTab_pad (m : Mode) : decTab m padSymbol = none := by cases m <;> decide

/-- No symbol is the pad. -/
theorem encTab_ne_pad (a : Alphabet) : ∀ s : Sextet, encTab a s ≠ padSymbol := by cases a <;> decide +kernel

/-- No symbol is the null byte (R164). -/
theorem encTab_ne_zero (a : Alphabet) : ∀ s : Sextet, encTab a s ≠ terminator := by cases a <;> decide +kernel

/-! ### The group -/

/-- The sextets of a packed group are the sextets. -/
@[simp] theorem sextet0_packSextets (a b c d : Sextet) : sextet0 (packSextets a b c d) = a := by
  unfold sextet0 packSextets; ext i hi; simp; grind
@[simp] theorem sextet1_packSextets (a b c d : Sextet) : sextet1 (packSextets a b c d) = b := by
  unfold sextet1 packSextets; ext i hi; simp; grind
@[simp] theorem sextet2_packSextets (a b c d : Sextet) : sextet2 (packSextets a b c d) = c := by
  unfold sextet2 packSextets; ext i hi; simp; grind
@[simp] theorem sextet3_packSextets (a b c d : Sextet) : sextet3 (packSextets a b c d) = d := by
  unfold sextet3 packSextets; ext i hi; simp; grind

/-- The bytes of a packed group are the bytes. -/
@[simp] theorem byte0_packBytes (a b c : Byte) : byte0 (packBytes a b c) = a := by
  unfold byte0 packBytes; ext i hi; simp; grind
@[simp] theorem byte1_packBytes (a b c : Byte) : byte1 (packBytes a b c) = b := by
  unfold byte1 packBytes; ext i hi; simp; grind
@[simp] theorem byte2_packBytes (a b c : Byte) : byte2 (packBytes a b c) = c := by
  unfold byte2 packBytes; ext i hi; simp; grind

/-- A group is the sextets it splits into. -/
theorem packSextets_sextets (g : Group) : packSextets (sextet0 g) (sextet1 g) (sextet2 g) (sextet3 g) = g := by
  unfold sextet0 sextet1 sextet2 sextet3 packSextets; ext i hi; simp; grind

/-- A group is the bytes it splits into. -/
theorem packBytes_bytes (g : Group) : packBytes (byte0 g) (byte1 g) (byte2 g) = g := by
  unfold byte0 byte1 byte2 packBytes; ext i hi; simp; grind

end Sys2Proof.Machine
end

