-- ==== Sys2Proof/Laws/Text.lean ====
section
/-! SUPPORT. The laws of encoded text: a text is the characters of the sextets of its bytes, then its pads; the body
decoder turns those sextets back into the bytes, and accepts nothing else. -/

namespace Sys2Proof.Machine

/-! ### The sextets of a byte sequence -/

/-- The 6-bit values that carry a byte sequence, the unused bits of the last one zero (R95 to R97). -/
def sextetsOf : List Byte → List Sextet
  | b0 :: b1 :: b2 :: rest =>
    let g := packBytes b0 b1 b2
    sextet0 g :: sextet1 g :: sextet2 g :: sextet3 g :: sextetsOf rest
  | [b0, b1] => let g := packBytes b0 b1 0; [sextet0 g, sextet1 g, sextet2 g]
  | [b0] => let g := packBytes b0 0 0; [sextet0 g, sextet1 g]
  | [] => []

/-- A text is the characters of its sextets and then its pads (R98, R99). -/
theorem encText_eq (a : Alphabet) (b : List Byte) :
    encText a b = (sextetsOf b).map (encTab a) ++ tailPads a (pads b.length) := by
  induction b using sextetsOf.induct with
  | case1 b0 b1 b2 rest ih =>
    have hp : pads (rest.length + 1 + 1 + 1) = pads rest.length := by unfold pads; omega
    simp [encText, sextetsOf, ih, hp]
  | case2 b0 b1 => simp [encText, sextetsOf, pads]
  | case3 b0 => simp [encText, sextetsOf, pads]
  | case4 => cases a <;> rfl

/-- How many sextets carry `n` bytes. -/
theorem length_sextetsOf (b : List Byte) :
    (sextetsOf b).length = b.length / 3 * 4 + (if b.length % 3 = 0 then 0 else b.length % 3 + 1) := by
  induction b using sextetsOf.induct with
  | case1 b0 b1 b2 rest ih =>
    have h1 : (rest.length + 1 + 1 + 1) / 3 = rest.length / 3 + 1 := by omega
    have h2 : (rest.length + 1 + 1 + 1) % 3 = rest.length % 3 := by omega
    simp only [sextetsOf, List.length_cons, ih, h1, h2]
    omega
  | case2 b0 b1 => simp [sextetsOf]
  | case3 b0 => simp [sextetsOf]
  | case4 => rfl

theorem pads_le (n : Nat) : pads n ≤ 2 := by unfold pads; omega

theorem length_tailPads_std (k : Nat) : (tailPads .std k).length = k := by simp [tailPads]
@[simp] theorem tailPads_url (k : Nat) : tailPads .url k = [] := rfl
@[simp] theorem tailPads_std (k : Nat) : tailPads .std k = List.replicate k padSymbol := rfl

/-- The Standard text is as long as a whole number of groups (R98). -/
theorem length_encText_std (b : List Byte) : (encText .std b).length = (b.length + 2) / 3 * 4 := by
  rw [encText_eq, List.length_append, List.length_map, length_sextetsOf, length_tailPads_std]
  unfold pads
  split_ifs <;> omega

/-- The URL-safe text is that minus the pads (R99). -/
theorem length_encText_url (b : List Byte) : (encText .url b).length = (b.length + 2) / 3 * 4 - pads b.length := by
  rw [encText_eq, List.length_append, List.length_map, length_sextetsOf, tailPads_url, List.length_nil]
  unfold pads
  split_ifs <;> omega

/-- A text is never longer than `encoded_length` (R157). -/
theorem length_encText_le (a : Alphabet) (b : List Byte) : (encText a b).length ≤ (b.length + 2) / 3 * 4 := by
  cases a
  · exact (length_encText_std b).le
  · rw [length_encText_url]; omega

/-! ### Pads -/

/-- The pads at the end of a text are counted, if the symbol before them is none. -/
theorem padCount_append_replicate (l : List Byte) (k : Nat) (h : ∀ c ∈ l, c ≠ padSymbol) :
    padCount (l ++ List.replicate k padSymbol) = k := by
  unfold padCount
  rw [List.reverse_append, List.reverse_replicate, List.takeWhile_append_of_pos (by simp)]
  have : l.reverse.takeWhile (· == padSymbol) = [] := by
    cases hl : l.reverse with
    | nil => rfl
    | cons c r =>
      have hc : c ≠ padSymbol := h c (by rw [← List.mem_reverse, hl]; exact List.mem_cons_self)
      simp [hc]
  simp [this]

/-- A text splits into its body and its pads. -/
theorem bodyOf_append_pads (t : List Byte) : bodyOf t ++ List.replicate (padCount t) padSymbol = t := by
  have h : t.reverse = t.reverse.takeWhile (· == padSymbol) ++ t.reverse.dropWhile (· == padSymbol) :=
    (List.takeWhile_append_dropWhile).symm
  have hrep : t.reverse.takeWhile (· == padSymbol) = List.replicate (padCount t) padSymbol := by
    refine List.eq_replicate_iff.2 ⟨rfl, fun c hc => ?_⟩
    simpa using List.mem_takeWhile_imp hc
  have ht : t = (t.reverse.dropWhile (· == padSymbol)).reverse ++ List.replicate (padCount t) padSymbol := by
    have := congrArg List.reverse h
    rw [List.reverse_reverse, List.reverse_append, hrep, List.reverse_replicate] at this
    exact this
  unfold bodyOf
  generalize padCount t = k at *
  generalize (t.reverse.dropWhile (· == padSymbol)).reverse = l at ht
  subst ht
  simp

theorem length_bodyOf (t : List Byte) : (bodyOf t).length = t.length - padCount t := by
  unfold bodyOf; simp

theorem padCount_le (t : List Byte) : padCount t ≤ t.length := by
  unfold padCount
  have := (List.takeWhile_sublist (l := t.reverse) (· == padSymbol)).length_le
  simpa using this

/-- The body of symbols followed by pads is the symbols. -/
theorem bodyOf_append_replicate (l : List Byte) (k : Nat) (h : ∀ c ∈ l, c ≠ padSymbol) :
    bodyOf (l ++ List.replicate k padSymbol) = l := by
  unfold bodyOf
  rw [padCount_append_replicate l k h]
  simp

theorem length_takeWhile_take {α : Type} (q : α → Bool) (n : Nat) (r : List α) :
    ((r.take n).takeWhile q).length = min (r.takeWhile q).length n := by
  induction n generalizing r with
  | zero => simp
  | succ n ih =>
    cases r with
    | nil => simp
    | cons a r =>
      simp only [List.take_succ_cons, List.takeWhile_cons]
      split <;> simp [ih]

/-- The saturated count of the reference hardware agrees with the count up to two and says three beyond (R187, D27). -/
theorem padCountSaturated_eq (t : List Byte) : padCountSaturated t = min (padCount t) 3 :=
  length_takeWhile_take _ _ _

/-- Symbols are no pads. -/
theorem map_encTab_ne_pad (a : Alphabet) (l : List Sextet) : ∀ c ∈ l.map (encTab a), c ≠ padSymbol := by
  intro c hc
  obtain ⟨s, -, rfl⟩ := List.mem_map.1 hc
  exact encTab_ne_pad a s

/-- The body of a text is its symbols. -/
theorem bodyOf_encText (a : Alphabet) (b : List Byte) : bodyOf (encText a b) = (sextetsOf b).map (encTab a) := by
  rw [encText_eq]
  cases a
  · exact bodyOf_append_replicate _ _ (map_encTab_ne_pad _ _)
  · simpa using bodyOf_append_replicate _ 0 (map_encTab_ne_pad .url (sextetsOf b))

theorem padCount_encText_std (b : List Byte) : padCount (encText .std b) = pads b.length := by
  rw [encText_eq]
  exact padCount_append_replicate _ _ (map_encTab_ne_pad _ _)

theorem padCount_encText_url (b : List Byte) : padCount (encText .url b) = 0 := by
  rw [encText_eq]
  simpa using padCount_append_replicate _ 0 (map_encTab_ne_pad .url (sextetsOf b))

/-! ### The body decoder -/

/-- The body decoder, group after group. -/
@[simp] theorem decBody_cons4 (D : Byte → Option Sextet) (c0 c1 c2 c3 : Byte) (rest : List Byte) :
    decBody D (c0 :: c1 :: c2 :: c3 :: rest) =
      match decGroup D [c0, c1, c2, c3] with
      | .error k => ([], some k)
      | .ok bs => (bs ++ (decBody D rest).1, (decBody D rest).2) := by
  cases h : decGroup D [c0, c1, c2, c3] <;> simp [decBody, h]

/-- A full group of valid symbols (R192). -/
theorem decGroup_full {D : Byte → Option Sextet} {c0 c1 c2 c3 : Byte} {v0 v1 v2 v3 : Sextet} (h0 : D c0 = some v0)
    (h1 : D c1 = some v1) (h2 : D c2 = some v2) (h3 : D c3 = some v3) :
    decGroup D [c0, c1, c2, c3] = .ok [byte0 (packSextets v0 v1 v2 v3), byte1 (packSextets v0 v1 v2 v3),
      byte2 (packSextets v0 v1 v2 v3)] := by
  simp only [decGroup, lookupAll, h0, h1, h2, h3, unpackGroup]

/-- A three-symbol tail of valid symbols (R193, R195). -/
theorem decGroup_tail3 {D : Byte → Option Sextet} {c0 c1 c2 : Byte} {v0 v1 v2 : Sextet} (h0 : D c0 = some v0)
    (h1 : D c1 = some v1) (h2 : D c2 = some v2) :
    decGroup D [c0, c1, c2] = if v2.extractLsb' 0 2 ≠ 0 then .error .iseq
      else .ok [byte0 (packSextets v0 v1 v2 0), byte1 (packSextets v0 v1 v2 0)] := by
  simp only [decGroup, lookupAll, h0, h1, h2, unpackGroup]

/-- A two-symbol tail of valid symbols (R194, R195). -/
theorem decGroup_tail2 {D : Byte → Option Sextet} {c0 c1 : Byte} {v0 v1 : Sextet} (h0 : D c0 = some v0)
    (h1 : D c1 = some v1) :
    decGroup D [c0, c1] = if v1.extractLsb' 0 4 ≠ 0 then .error .iseq
      else .ok [byte0 (packSextets v0 v1 0 0)] := by
  simp only [decGroup, lookupAll, h0, h1, unpackGroup]

/-- A tail is one group. -/
theorem decBody_tail (D : Byte → Option Sextet) (tail : List Byte) (h : tail.length < 4) :
    decBody D tail = match decGroup D tail with | .error k => ([], some k) | .ok bs => (bs, none) := by
  match tail, h with
  | [], _ => rfl
  | [a], _ => rfl
  | [a, b], _ => rfl
  | [a, b, c], _ => rfl

/-- The unused bits of a two-byte tail are zero (R97). -/
theorem unused_bits_two (b0 b1 : Byte) : (sextet2 (packBytes b0 b1 0)).extractLsb' 0 2 = 0 := by
  unfold sextet2 packBytes; ext i hi; simp; grind

/-- The unused bits of a one-byte tail are zero (R96). -/
theorem unused_bits_one (b0 : Byte) : (sextet1 (packBytes b0 0 0)).extractLsb' 0 4 = 0 := by
  unfold sextet1 packBytes; ext i hi; simp; grind

theorem byte0_two (b0 b1 : Byte) : byte0 (packSextets (sextet0 (packBytes b0 b1 0)) (sextet1 (packBytes b0 b1 0))
    (sextet2 (packBytes b0 b1 0)) 0) = b0 := by
  unfold byte0 packSextets sextet0 sextet1 sextet2 packBytes; ext i hi; simp; grind

theorem byte1_two (b0 b1 : Byte) : byte1 (packSextets (sextet0 (packBytes b0 b1 0)) (sextet1 (packBytes b0 b1 0))
    (sextet2 (packBytes b0 b1 0)) 0) = b1 := by
  unfold byte1 packSextets sextet0 sextet1 sextet2 packBytes; ext i hi; simp; grind

theorem byte0_one (b0 : Byte) :
    byte0 (packSextets (sextet0 (packBytes b0 0 0)) (sextet1 (packBytes b0 0 0)) 0 0) = b0 := by
  unfold byte0 packSextets sextet0 sextet1 packBytes; ext i hi; simp; grind

/-- Symbols of a byte sequence decode to it, whatever table inverts the characters used. -/
theorem decBody_sextetsOf (D : Byte → Option Sextet) (f : Sextet → Byte) (h : ∀ s, D (f s) = some s)
    (b : List Byte) : decBody D ((sextetsOf b).map f) = (b, none) := by
  induction b using sextetsOf.induct with
  | case1 b0 b1 b2 rest ih =>
    simp only [sextetsOf, List.map_cons]
    rw [decBody_cons4, decGroup_full (h _) (h _) (h _) (h _), ih]
    simp [packSextets_sextets]
  | case2 b0 b1 =>
    simp only [sextetsOf, List.map_cons, List.map_nil]
    rw [decBody_tail _ _ (by simp), decGroup_tail3 (h _) (h _) (h _), if_neg (not_not.2 (unused_bits_two b0 b1)),
      byte0_two, byte1_two]
  | case3 b0 =>
    simp only [sextetsOf, List.map_cons, List.map_nil]
    rw [decBody_tail _ _ (by simp), decGroup_tail2 (h _) (h _), if_neg (not_not.2 (unused_bits_one b0)), byte0_one]
  | case4 => rfl

/-! ### What a body decodes to -/

/-- Induction over a text in groups of four, the tail last. -/
theorem four_induct {motive : List Byte → Prop}
    (group : ∀ c0 c1 c2 c3 rest, motive rest → motive (c0 :: c1 :: c2 :: c3 :: rest))
    (tail : ∀ t : List Byte, t.length < 4 → motive t) : ∀ t, motive t
  | c0 :: c1 :: c2 :: c3 :: rest => group c0 c1 c2 c3 rest (four_induct group tail rest)
  | [] => tail _ (by simp)
  | [_] => tail _ (by simp)
  | [_, _] => tail _ (by simp)
  | [_, _, _] => tail _ (by simp)

/-- A lookup of some symbols fails exactly when one of them is INVALID. -/
theorem lookupAll_eq_none {D : Byte → Option Sextet} {t : List Byte} :
    lookupAll D t = none ↔ ∃ c ∈ t, D c = none := by
  induction t with
  | nil => simp [lookupAll]
  | cons c cs ih =>
    unfold lookupAll
    cases h : D c with
    | none => simp [h]
    | some v =>
      cases hs : lookupAll D cs with
      | none => simpa [h] using ih.1 hs
      | some vs =>
        have := mt ih.2 (by simp [hs])
        simpa [h] using this

/-- One value a symbol. -/
theorem length_lookupAll {D : Byte → Option Sextet} {t : List Byte} {vs : List Sextet} (h : lookupAll D t = some vs) :
    vs.length = t.length := by
  induction t generalizing vs with
  | nil => cases h; rfl
  | cons c cs ih =>
    unfold lookupAll at h
    cases hc : D c <;> simp only [hc] at h
    · cases h
    · cases hs : lookupAll D cs <;> simp only [hs] at h
      · cases h
      · cases h; simp [ih hs]

/-- The kind a body fails with, said of its symbols (R188, R189, R195). -/
def bodyKind (D : Byte → Option Sextet) (t : List Byte) : Option ErrKind :=
  match lookupAll D t with
  | none => some .ichr
  | some _ =>
    match unpackGroup ((lookupAll D (tailOf t)).getD []) with
    | .error k => some k
    | .ok _ => none

/-- The tail is what is left after the full groups. -/
theorem tailOf_cons4 (c0 c1 c2 c3 : Byte) (rest : List Byte) :
    tailOf (c0 :: c1 :: c2 :: c3 :: rest) = tailOf rest := by
  unfold tailOf
  have h1 : (rest.length + 1 + 1 + 1 + 1) % 4 = rest.length % 4 := by omega
  have h2 : rest.length + 1 + 1 + 1 + 1 - rest.length % 4 = rest.length - rest.length % 4 + 1 + 1 + 1 + 1 := by omega
  simp only [List.length_cons, h1, h2, List.drop_succ_cons]

/-- Fewer than four symbols are all tail. -/
theorem tailOf_short (t : List Byte) (h : t.length < 4) : tailOf t = t := by
  unfold tailOf
  rw [Nat.mod_eq_of_lt h]; simp

/-- The kind a body fails with depends on its symbols as a whole and on its tail, not on where the groups before the
tail fail (R192, R195). -/
theorem decBody_kind (D : Byte → Option Sextet) (t : List Byte) : (decBody D t).2 = bodyKind D t := by
  induction t using four_induct with
  | group c0 c1 c2 c3 rest ih =>
    rw [decBody_cons4]
    unfold bodyKind at ih ⊢
    rw [tailOf_cons4]
    cases h0 : D c0 <;> cases h1 : D c1 <;> cases h2 : D c2 <;> cases h3 : D c3 <;> cases hr : lookupAll D rest <;>
      simp_all [decGroup, lookupAll, unpackGroup]
  | tail t hl =>
    rw [decBody_tail _ _ hl]
    unfold bodyKind decGroup
    rw [tailOf_short _ hl]
    cases lookupAll D t with
    | none => rfl
    | some vs => simp only [Option.getD_some]; cases unpackGroup vs <;> rfl

/-- The sextets of a full group's bytes are its values (R192). -/
theorem sextetsOf_full (v0 v1 v2 v3 : Sextet) (b : List Byte) :
    sextetsOf (byte0 (packSextets v0 v1 v2 v3) :: byte1 (packSextets v0 v1 v2 v3) ::
      byte2 (packSextets v0 v1 v2 v3) :: b) = v0 :: v1 :: v2 :: v3 :: sextetsOf b := by
  simp [sextetsOf, packBytes_bytes]

/-- With its unused bits zero a three-symbol tail is what carries its bytes (R193). -/
theorem sextetsOf_tail3 (v0 v1 v2 : Sextet) (h : v2.extractLsb' 0 2 = 0) :
    sextetsOf [byte0 (packSextets v0 v1 v2 0), byte1 (packSextets v0 v1 v2 0)] = [v0, v1, v2] := by
  have h0 : v2.getLsbD 0 = false := by have := congrArg (fun x => x.getLsbD 0) h; simpa using this
  have h1 : v2.getLsbD 1 = false := by have := congrArg (fun x => x.getLsbD 1) h; simpa using this
  simp only [sextetsOf, List.cons.injEq, and_true]
  refine ⟨?_, ?_, ?_⟩
  all_goals (unfold byte0 byte1 packSextets packBytes; first | unfold sextet0 | unfold sextet1 | unfold sextet2)
  all_goals (ext i hi; simp; grind)

/-- With its unused bits zero a two-symbol tail is what carries its byte (R194). -/
theorem sextetsOf_tail2 (v0 v1 : Sextet) (h : v1.extractLsb' 0 4 = 0) :
    sextetsOf [byte0 (packSextets v0 v1 0 0)] = [v0, v1] := by
  have h0 : v1.getLsbD 0 = false := by have := congrArg (fun x => x.getLsbD 0) h; simpa using this
  have h1 : v1.getLsbD 1 = false := by have := congrArg (fun x => x.getLsbD 1) h; simpa using this
  have h2 : v1.getLsbD 2 = false := by have := congrArg (fun x => x.getLsbD 2) h; simpa using this
  have h3 : v1.getLsbD 3 = false := by have := congrArg (fun x => x.getLsbD 3) h; simpa using this
  simp only [sextetsOf, List.cons.injEq, and_true]
  refine ⟨?_, ?_⟩
  all_goals (unfold byte0 packSextets packBytes; first | unfold sextet0 | unfold sextet1)
  all_goals (ext i hi; simp; grind)

/-- The bytes of a group of valid symbols carry exactly their values. -/
theorem sextetsOf_unpackGroup {vs : List Sextet} {bs : List Byte} (hl : vs.length < 4)
    (h : unpackGroup vs = .ok bs) : sextetsOf bs = vs := by
  match vs, hl with
  | [], _ => cases h; rfl
  | [_], _ => cases h
  | [v0, v1], _ =>
    simp only [unpackGroup] at h
    split_ifs at h with h0
    cases h; exact sextetsOf_tail2 _ _ (not_not.1 h0)
  | [v0, v1, v2], _ =>
    simp only [unpackGroup] at h
    split_ifs at h with h0
    cases h; exact sextetsOf_tail3 _ _ _ (not_not.1 h0)

/-- A body that decodes consists of the symbols that carry the bytes it decodes to (R246). -/
theorem lookupAll_of_decBody {D : Byte → Option Sextet} {t out : List Byte} (h : decBody D t = (out, none)) :
    lookupAll D t = some (sextetsOf out) := by
  induction t using four_induct generalizing out with
  | group c0 c1 c2 c3 rest ih =>
    rw [decBody_cons4] at h
    cases h0 : D c0 <;> cases h1 : D c1 <;> cases h2 : D c2 <;> cases h3 : D c3 <;>
      simp only [decGroup, lookupAll, unpackGroup, h0, h1, h2, h3, Prod.mk.injEq, reduceCtorEq, and_false] at h
    obtain ⟨rfl, hn⟩ := h
    have := ih (out := (decBody D rest).1) (by rw [← hn])
    simp only [lookupAll, h0, h1, h2, h3, this, List.cons_append, List.nil_append, sextetsOf_full]
  | tail t hl =>
    rw [decBody_tail _ _ hl] at h
    unfold decGroup at h
    cases hv : lookupAll D t with
    | none => simp [hv] at h
    | some vs =>
      rw [hv] at h
      simp only at h
      cases hu : unpackGroup vs with
      | error k => simp [hu] at h
      | ok bs =>
        simp only [hu, Prod.mk.injEq, and_true] at h
        subst h
        rw [sextetsOf_unpackGroup (by rw [length_lookupAll hv]; exact hl) hu]

/-- Characters given back from the values, if every single one is. -/
theorem lookupAll_map {D : Byte → Option Sextet} {f : Sextet → Byte} {g : Byte → Byte}
    (h : ∀ c s, D c = some s → f s = g c) {t : List Byte} {vs : List Sextet} (hv : lookupAll D t = some vs) :
    vs.map f = t.map g := by
  induction t generalizing vs with
  | nil => cases hv; rfl
  | cons c cs ih =>
    unfold lookupAll at hv
    cases hc : D c <;> simp only [hc] at hv
    · cases hv
    · cases hs : lookupAll D cs <;> simp only [hs] at hv
      · cases hv
      · cases hv; simp [ih hs, h _ _ hc]

/-! ### What a text decodes to -/

/-- What `dec_bytes` gives once the length and pad checks have passed (R181). -/
theorem decBytes_eq (k : UrlPadKind) (m : Mode) (t : List Byte) (hl : t.length % 4 ≠ 1) (hp : padCheck k m t = none) :
    decBytes k m t = match bodyKind (decTab m) (bodyOf t) with
      | some e => .error e
      | none => .ok (decBody (decTab m) (bodyOf t)).1 := by
  unfold decBytes lengthBanned
  rw [if_neg (by simpa using hl), hp, ← decBody_kind]
  rcases decBody (decTab m) (bodyOf t) with ⟨out, _ | e⟩ <;> rfl

/-- What a text that decodes has passed (R181). -/
theorem decBytes_ok {k : UrlPadKind} {m : Mode} {t out : List Byte} (h : decBytes k m t = .ok out) :
    t.length % 4 ≠ 1 ∧ padCheck k m t = none ∧ decBody (decTab m) (bodyOf t) = (out, none) := by
  unfold decBytes lengthBanned at h
  by_cases hl : t.length % 4 = 1
  · simp [hl] at h
  rw [if_neg (by simpa using hl)] at h
  cases hp : padCheck k m t with
  | some e => simp [hp] at h
  | none =>
    simp only [hp] at h
    rcases hb : decBody (decTab m) (bodyOf t) with ⟨o, _ | e⟩
    · simp only [hb, Except.ok.injEq] at h; subst h; exact ⟨hl, rfl, rfl⟩
    · simp [hb] at h

/-- A two-symbol tail of valid symbols. -/
theorem tail_two (D : Byte → Option Sextet) (l : List Byte) (hall : ∀ d ∈ l, D d ≠ none)
    (hl : l.length % 4 = 2) :
    ∃ c0 c1 v0 v1, tailOf l = [c0, c1] ∧ l.getLast? = some c1 ∧ D c0 = some v0 ∧ D c1 = some v1 := by
  induction l using four_induct with
  | group c0 c1 c2 c3 rest ih =>
    have hr : rest.length % 4 = 2 := by simp only [List.length_cons] at hl; omega
    obtain ⟨a, b, v, w, h1, h2, h3, h4⟩ := ih (fun d hd => hall d (by simp [hd])) hr
    have : rest ≠ [] := by rintro rfl; simp at hr
    refine ⟨a, b, v, w, by rw [tailOf_cons4, h1], ?_, h3, h4⟩
    simp [List.getLast?_cons, h2]
  | tail t h =>
    match t, h, hl with
    | [], _, hl => simp at hl
    | [_], _, hl => simp at hl
    | [_, _, _], _, hl => simp at hl
    | [c0, c1], _, _ =>
      obtain ⟨v, hv⟩ := Option.ne_none_iff_exists'.1 (hall c0 (by simp))
      obtain ⟨w, hw⟩ := Option.ne_none_iff_exists'.1 (hall c1 (by simp))
      exact ⟨c0, c1, v, w, rfl, rfl, hv, hw⟩

/-- A three-symbol tail of valid symbols. -/
theorem tail_three (D : Byte → Option Sextet) (l : List Byte) (hall : ∀ d ∈ l, D d ≠ none)
    (hl : l.length % 4 = 3) :
    ∃ c0 c1 c2 v0 v1 v2, tailOf l = [c0, c1, c2] ∧ l.getLast? = some c2 ∧
      D c0 = some v0 ∧ D c1 = some v1 ∧ D c2 = some v2 := by
  induction l using four_induct with
  | group c0 c1 c2 c3 rest ih =>
    have hr : rest.length % 4 = 3 := by simp only [List.length_cons] at hl; omega
    obtain ⟨a, b, c, v, w, x, h1, h2, h3, h4, h5⟩ := ih (fun d hd => hall d (by simp [hd])) hr
    refine ⟨a, b, c, v, w, x, by rw [tailOf_cons4, h1], ?_, h3, h4, h5⟩
    simp [List.getLast?_cons, h2]
  | tail t h =>
    match t, h, hl with
    | [c0, c1, c2], _, _ =>
      obtain ⟨v, hv⟩ := Option.ne_none_iff_exists'.1 (hall c0 (by simp))
      obtain ⟨w, hw⟩ := Option.ne_none_iff_exists'.1 (hall c1 (by simp))
      obtain ⟨x, hx⟩ := Option.ne_none_iff_exists'.1 (hall c2 (by simp))
      exact ⟨c0, c1, c2, v, w, x, rfl, rfl, hv, hw, hx⟩

/-- The kind a body of valid symbols fails with: it depends on its length and on its last symbol (R189, R195). -/
theorem bodyKind_valid (D : Byte → Option Sextet) (l : List Byte) (hall : ∀ d ∈ l, D d ≠ none) :
   (l.length % 4 = 0 → bodyKind D l = none) ∧ (l.length % 4 = 1 → bodyKind D l = some .ichr) ∧
   (∀ c v, l.getLast? = some c → D c = some v →
     (l.length % 4 = 2 → bodyKind D l = if v.extractLsb' 0 4 ≠ 0 then some .iseq else none) ∧
     (l.length % 4 = 3 → bodyKind D l = if v.extractLsb' 0 2 ≠ 0 then some .iseq else none)) := by
  have hsome : ∃ vs, lookupAll D l = some vs := by
    cases h : lookupAll D l with
    | some vs => exact ⟨vs, rfl⟩
    | none => obtain ⟨c, hc, hn⟩ := lookupAll_eq_none.1 h; exact absurd hn (hall c hc)
  obtain ⟨vs, hvs⟩ := hsome
  have hlen : (tailOf l).length = l.length % 4 := by unfold tailOf; simp; omega
  refine ⟨fun h => ?_, fun h => ?_, fun c v hc hv => ⟨fun h => ?_, fun h => ?_⟩⟩
  · have : tailOf l = [] := by apply List.eq_nil_of_length_eq_zero; omega
    simp [bodyKind, hvs, this, lookupAll, unpackGroup]
  · obtain ⟨d, hd⟩ := List.length_eq_one_iff.1 (hlen.trans h)
    have : D d ≠ none := hall d (by
      have : d ∈ tailOf l := by simp [hd]
      exact List.mem_of_mem_drop this)
    obtain ⟨w, hw⟩ := Option.ne_none_iff_exists'.1 this
    simp [bodyKind, hvs, hd, lookupAll, hw, unpackGroup]
  · obtain ⟨c0, c1, v0, v1, h1, h2, h3, h4⟩ := tail_two D l hall h
    rw [hc] at h2; cases h2; rw [hv] at h4; cases h4
    simp only [bodyKind, hvs, h1, lookupAll, h3, hv, unpackGroup, Option.getD_some]
    split_ifs <;> rfl
  · obtain ⟨c0, c1, c2, v0, v1, v2, h1, h2, h3, h4, h5⟩ := tail_three D l hall h
    rw [hc] at h2; cases h2; rw [hv] at h5; cases h5
    simp only [bodyKind, hvs, h1, lookupAll, h3, h4, hv, unpackGroup, Option.getD_some]
    split_ifs <;> rfl

/-- When the pad check passes (R187). -/
theorem padCheck_none_iff (k : UrlPadKind) (m : Mode) (t : List Byte) :
    padCheck k m t = none ↔ (m = .url → padCount t = 0) ∧
      (m ≠ .url → padCount t ≤ 2 ∧ (padCount t = 0 ∨ t.length % 4 = 0)) := by
  cases m <;> simp only [padCheck] <;> split_ifs <;> simp <;> omega

/-- The bytes of a group fit `decoded_length` of its symbols. -/
theorem length_unpackGroup_le {vs : List Sextet} {bs : List Byte} (h : unpackGroup vs = .ok bs) :
    bs.length ≤ decodedLength vs.length := by
  unfold unpackGroup at h
  split at h <;> (try split at h) <;> first | (cases h; done) | (cases h; simp [decodedLength])

theorem length_decGroup_le {D : Byte → Option Sextet} {ys bs : List Byte} (h : decGroup D ys = .ok bs) :
    bs.length ≤ decodedLength ys.length := by
  unfold decGroup at h
  cases hv : lookupAll D ys with
  | none => simp [hv] at h
  | some vs => rw [hv] at h; rw [← length_lookupAll hv]; exact length_unpackGroup_le h

/-- The bytes a body commits, failing or not, are at most `decoded_length` of its length (R185). -/
theorem length_decBody_le (D : Byte → Option Sextet) (t : List Byte) :
    (decBody D t).1.length ≤ decodedLength t.length := by
  induction t using four_induct with
  | group c0 c1 c2 c3 rest ih =>
    rw [decBody_cons4]
    cases hg : decGroup D [c0, c1, c2, c3] with
    | error k => simp
    | ok bs =>
      have := length_decGroup_le hg
      simp only [List.length_append, List.length_cons, decodedLength, List.length_nil] at this ih ⊢
      omega
  | tail t hl =>
    rw [decBody_tail _ _ hl]
    cases hg : decGroup D t with
    | error k => simp
    | ok bs => exact length_decGroup_le hg

end Sys2Proof.Machine
end

