-- ==== Sys2Proof/Laws/Units.lean ====
section
/-! SUPPORT. What each shared operation of the two units can do, said once: the ends of an operation, the command write
of an encode and of a decode, and the operations themselves. -/

namespace Sys2Proof.Machine

/-! ### The ends of an operation -/

@[simp] theorem State.raise_cfg (s : State) (u : UnitId) (k : ErrKind) : (s.raise u k).cfg = s.cfg := by
  simp [State.raise]
@[simp] theorem State.finish_cfg (s : State) (u : UnitId) : (s.finish u).cfg = s.cfg := by simp [State.finish]

/-- A raised unit reports its kind (R270). -/
theorem State.raise_failedWith (s : State) (u : UnitId) (k : ErrKind) : FailedWith ((s.raise u k).unit u) k := by
  simp only [State.raise, State.unit_endUnit]
  exact ⟨rfl, rfl, CodecUnit.status_of_done _ rfl, rfl⟩

/-- A finished unit reports success with the length `OPOS` (R271). -/
theorem State.finish_succeeded (s : State) (u : UnitId) : Succeeded ((s.finish u).unit u) (s.unit u).hid.opos := by
  simp only [State.finish, State.unit_endUnit]
  refine ⟨rfl, ?_, rfl⟩
  rw [CodecUnit.status_of_done _ rfl, CodecUnit.ended_err]
  decide

/-- A failure leaves every destination byte at or above the capacity as it was (R67). -/
theorem failDst_read_above (p : Params) (u : UnitId) (k : ErrKind) (x : CodecUnit) {a : Nat} (h : x.hid.cap ≤ a) :
    (failDst p u k x).read a = x.dst.read a := by
  have hw : (x.dst.writeBytes 0 (freeBytes u x.draw x.hid.cap)).read a = x.dst.read a :=
    Mem.read_writeBytes_outside (.inr (by simpa [freeBytes] using h))
  cases k <;> cases hp : p.dstResidue <;> simp only [failDst, hp, hw]

/-- IARG, OVF and CAP write nothing (R71). -/
theorem failDst_of_early (p : Params) (u : UnitId) {k : ErrKind} (x : CodecUnit)
    (h : k = .iarg ∨ k = .ovf ∨ k = .cap) : failDst p u k x = x.dst := by
  rcases h with rfl | rfl | rfl <;> rfl

/-- A success leaves every destination byte at or above the capacity as it was, the terminator being below it (R67). -/
theorem finishDst_read_above (p : Params) (u : UnitId) (x : CodecUnit) {a : Nat} (ho : x.hid.opos < x.hid.cap)
    (h : x.hid.cap ≤ a) : (finishDst p u x).read a = x.dst.read a := by
  unfold finishDst
  split
  · rw [Mem.read_writeBytes_outside (.inr (by simp [freeBytes]; omega)), Mem.read_write, if_neg (by omega)]
  · rw [Mem.read_write, if_neg (by omega)]

/-- A success leaves the result bytes below the terminator as they were written (R69). -/
theorem finishDst_read_below (p : Params) (u : UnitId) (x : CodecUnit) {a : Nat} (h : a < x.hid.opos) :
    (finishDst p u x).read a = x.dst.read a := by
  unfold finishDst
  split
  · rw [Mem.read_writeBytes_outside (.inl (by omega)), Mem.read_write, if_neg (by omega)]
  · rw [Mem.read_write, if_neg (by omega)]

/-- A success writes the terminator at `OPOS` (R69). -/
theorem finishDst_read_terminator (p : Params) (u : UnitId) (x : CodecUnit) :
    (finishDst p u x).read x.hid.opos = some terminator := by
  unfold finishDst
  split
  · rw [Mem.read_writeBytes_outside (.inl (by omega)), Mem.read_write_same]
  · rw [Mem.read_write_same]

/-- Under `reference` a success leaves every byte above the terminator as it was (R70). -/
theorem finishDst_read_residue {p : Params} (hp : p.dstResidue = .reference) (u : UnitId) (x : CodecUnit) {a : Nat}
    (h : x.hid.opos < a) : (finishDst p u x).read a = x.dst.read a := by
  unfold finishDst
  rw [hp, Mem.read_write, if_neg (by omega)]

/-- A result that is put at index 0 and finished stands at DST with its terminator (R69). -/
theorem finish_putResult_reads (s : State) (u : UnitId) (out : List Byte) :
    (((s.putResult u out).finish u).unit u).dst.readBytes 0 (out.length + 1) = some (out ++ [terminator]) := by
  simp only [State.finish, State.unit_endUnit, CodecUnit.ended_dst, State.unit_putResult, State.putResult_cfg]
  refine Mem.readBytes_eq_some.2 ⟨by simp, fun k hk => ?_⟩
  rw [Nat.zero_add]
  rcases Nat.lt_or_eq_of_le (Nat.lt_succ_iff.1 hk) with h | h
  · rw [finishDst_read_below _ _ _ (by simpa using h), Mem.read_writeBytes, if_pos (by omega)]
    simp [List.getElem?_append_left h]
  · subst h
    simpa using finishDst_read_terminator s.cfg u
      { s.unit u with dst := (s.unit u).dst.writeBytes 0 out, hid := { (s.unit u).hid with opos := out.length } }

/-! ### The command write of an encode -/

theorem badSizes_accept (p : Params) (x : CodecUnit) (w : Byte) :
    badSizes p (x.accept p w) = true ↔ p.srcSize < x.srcLen ∨ p.dstSize < x.dstCap := by
  simp only [badSizes, Bool.or_eq_true, decide_eq_true_eq]
  rfl

/-- The checks of the command write, on the operands (R152, R153, R156). -/
theorem encCheck_accept (p : Params) (x : CodecUnit) (w : Byte) :
    encCheck p (x.accept p w) =
      if p.srcSize < x.srcLen ∨ p.dstSize < x.dstCap then some .iarg
      else
        match encodedLength p x.srcLen with
        | none => some .ovf
        | some e => if x.dstCap < e + 1 then some .cap else none := by
  unfold encCheck
  simp only [badSizes_accept]
  rfl

/-- Everything the command write of an encode can do: a refusal while busy, a failed check, a missing source byte, or a
running unit. -/
theorem encStart_cases (i : Instr) (s : State) :
    (s.enc.busy = true ∧ encStart i s = .ended (.refused (.hostAccessWhileBusy .enc))) ∨
    (s.enc.busy = false ∧ ∃ k, encCheck s.cfg (s.enc.accept s.cfg (encode i)) = some k ∧
      (k = .iarg ∨ k = .ovf ∨ k = .cap) ∧ encStart i s = .ended (.next ((s.accept .enc (encode i)).raise .enc k))) ∨
    (s.enc.busy = false ∧ encCheck s.cfg (s.enc.accept s.cfg (encode i)) = none ∧
      s.enc.src.readBytes 0 s.enc.srcLen = none ∧ encStart i s = .ended (.fault (.unwrittenSource .enc))) ∨
    (∃ b e, EncReady s b e ∧ encStart i s = .running (s.accept .enc (encode i)) b) := by
  by_cases hb : s.enc.busy = true
  · exact .inl ⟨hb, by simp only [encStart, hb, if_true]⟩
  · have hf : s.enc.busy = false := by simpa using hb
    right
    cases hc : encCheck s.cfg (s.enc.accept s.cfg (encode i)) with
    | some k =>
      left
      refine ⟨hf, k, rfl, ?_, ?_⟩
      · rw [encCheck_accept] at hc
        split at hc
        · cases hc; exact .inl rfl
        · split at hc
          · cases hc; exact .inr (.inl rfl)
          · split at hc
            · cases hc; exact .inr (.inr rfl)
            · cases hc
      · simp only [encStart, hf, Bool.false_eq_true, if_false, State.accept_cfg, State.accept_enc_enc, hc]
    | none =>
      right
      cases hs : s.enc.src.readBytes 0 s.enc.srcLen with
      | none =>
        left
        refine ⟨hf, rfl, rfl, ?_⟩
        simp only [encStart, hf, Bool.false_eq_true, if_false, State.accept_cfg, State.accept_enc_enc, hc, sourceBytes,
          CodecUnit.accept_src, CodecUnit.accept_n, hs]
      | some b =>
        right
        have hc' := hc
        rw [encCheck_accept] at hc'
        split at hc'
        · cases hc'
        · rename_i hsz
          split at hc'
          · cases hc'
          · rename_i e he
            split at hc'
            · cases hc'
            · rename_i hcap
              refine ⟨b, e, ⟨hf, by omega, by omega, he, by omega, hs⟩, ?_⟩
              simp only [encStart, hf, Bool.false_eq_true, if_false, State.accept_cfg, State.accept_enc_enc, sourceBytes,
                CodecUnit.accept_src, CodecUnit.accept_n, hs, hc]

/-- A ready encode command starts running. -/
theorem encStart_of_ready {s : State} {b : List Byte} {e : Nat} (h : EncReady s b e) (i : Instr) :
    encStart i s = .running (s.accept .enc (encode i)) b := by
  rcases encStart_cases i s with ⟨hb, -⟩ | ⟨-, k, hk, -, -⟩ | ⟨-, -, hn, -⟩ | ⟨b', e', h', hr⟩
  · exact absurd hb (by simp [h.free])
  · have hs : ¬(s.cfg.srcSize < s.enc.srcLen ∨ s.cfg.dstSize < s.enc.dstCap) := by
      have := h.srcFits; have := h.dstFits; omega
    have hc : ¬(s.enc.dstCap < e + 1) := by have := h.room; omega
    simp [encCheck_accept, hs, h.size, hc] at hk
  · rw [h.written] at hn; cases hn
  · have : b = b' := Option.some.inj (h.written.symm.trans h'.written)
    rw [this]; exact hr

/-- An encode that is ready ends with its text put and finished (R161, R162). -/
theorem runEncode_of_ready {s : State} {b : List Byte} {e : Nat} (h : EncReady s b e) (a : Alphabet) (i : Instr) :
    runEncode a i s = .next (((s.accept .enc (encode i)).putResult .enc (encText a b)).finish .enc) := by
  unfold runEncode
  rw [encStart_of_ready h]

/-! ### The command write of a decode -/

/-- What a failing decode can answer: a fault when the choice of the kind depends on a byte that holds no value, or the
raise of a kind, which is the first failing one or an applicable one (R201). -/
theorem decFail_cases (mode : Mode) (k : ErrKind) (s : State) :
    (s.cfg.jointErr = .anyApplicable ∧ sourceBytes s.dec = none ∧
      decFail mode k s = .fault (.unwrittenSource .dec)) ∨
    (∃ k', decFail mode k s = .next (s.raise .dec k') ∧
      ((s.cfg.jointErr = .inOrder ∧ k' = k) ∨
       (s.cfg.jointErr = .anyApplicable ∧ ∃ t, sourceBytes s.dec = some t ∧
         k' = pickKind (applicable s.cfg mode t s.dec.hid.cap) k s.dec.draw))) := by
  cases hj : s.cfg.jointErr with
  | inOrder => exact .inr ⟨k, by simp [decFail, reportKind, hj], .inl ⟨rfl, rfl⟩⟩
  | anyApplicable =>
    cases hs : sourceBytes s.dec with
    | none => exact .inl ⟨rfl, rfl, by simp [decFail, reportKind, hj, hs]⟩
    | some t => exact .inr ⟨_, by simp only [decFail, reportKind, hj, hs], .inr ⟨rfl, t, rfl, rfl⟩⟩

/-- Under `in_order` the kind reported is the first that fails (R201). -/
theorem decFail_inOrder {s : State} (h : s.cfg.jointErr = .inOrder) (mode : Mode) (k : ErrKind) :
    decFail mode k s = .next (s.raise .dec k) := by
  simp [decFail, reportKind, h]

/-- A picked kind is in the list, or the list is empty and it is the first failing one. -/
theorem pickKind_mem (kinds : List ErrKind) (k : ErrKind) (d : Nat) :
    pickKind kinds k d ∈ kinds ∨ (kinds = [] ∧ pickKind kinds k d = k) := by
  unfold pickKind
  cases kinds with
  | nil => exact .inr ⟨rfl, rfl⟩
  | cons a l =>
    left
    have hlt : Config.freePick .dec d % (a :: l).length < (a :: l).length := Nat.mod_lt _ (by simp)
    rw [List.getD_eq_getElem _ _ hlt]
    exact List.getElem_mem hlt

/-- Everything the command write of a decode can do. -/
theorem decStart_cases (mode : Mode) (i : Instr) (s : State) :
    (s.dec.busy = true ∧ decStart mode i s = .ended (.refused (.hostAccessWhileBusy .dec))) ∨
    (s.dec.busy = false ∧ (s.cfg.srcSize < s.dec.srcLen ∨ s.cfg.dstSize < s.dec.dstCap) ∧
      decStart mode i s = .ended (.next ((s.accept .dec (encode i)).raise .dec .iarg))) ∨
    (s.dec.busy = false ∧ s.dec.srcLen ≤ s.cfg.srcSize ∧ s.dec.dstCap ≤ s.cfg.dstSize ∧
      s.dec.dstCap < decodedLength s.dec.srcLen + 1 ∧
      decStart mode i s = .ended (decFail mode .cap (s.accept .dec (encode i)))) ∨
    (s.dec.busy = false ∧ s.dec.srcLen ≤ s.cfg.srcSize ∧ s.dec.dstCap ≤ s.cfg.dstSize ∧
      decodedLength s.dec.srcLen + 1 ≤ s.dec.dstCap ∧ s.dec.srcLen % 4 = 1 ∧
      decStart mode i s = .ended (decFail mode .fmt (s.accept .dec (encode i)))) ∨
    (s.dec.busy = false ∧ s.dec.src.readBytes 0 s.dec.srcLen = none ∧
      decStart mode i s = .ended (.fault (.unwrittenSource .dec))) ∨
    (∃ t k, DecReady s t ∧ s.dec.srcLen % 4 ≠ 1 ∧ padCheck s.cfg.urlPadKind mode t = some k ∧
      decStart mode i s = .ended (decFail mode k (s.accept .dec (encode i)))) ∨
    (∃ t, DecReady s t ∧ s.dec.srcLen % 4 ≠ 1 ∧ padCheck s.cfg.urlPadKind mode t = none ∧
      decStart mode i s = .running ((s.accept .dec (encode i)).loadBody t) t) := by
  by_cases hb : s.dec.busy = true
  · exact .inl ⟨hb, by simp only [decStart, hb, if_true]⟩
  have hf : s.dec.busy = false := by simpa using hb
  right
  by_cases hsz : s.cfg.srcSize < s.dec.srcLen ∨ s.cfg.dstSize < s.dec.dstCap
  · left
    refine ⟨hf, hsz, ?_⟩
    simp only [decStart, hf, Bool.false_eq_true, if_false, badSizes, State.accept_cfg, State.accept_dec_dec,
      CodecUnit.accept_n, CodecUnit.accept_cap, Bool.or_eq_true, decide_eq_true_eq, hsz, if_true]
  have hs1 : s.dec.srcLen ≤ s.cfg.srcSize := by omega
  have hs2 : s.dec.dstCap ≤ s.cfg.dstSize := by omega
  right
  by_cases hc : s.dec.dstCap < decodedLength s.dec.srcLen + 1
  · left
    refine ⟨hf, hs1, hs2, hc, ?_⟩
    simp only [decStart, hf, Bool.false_eq_true, if_false, badSizes, State.accept_cfg, State.accept_dec_dec,
      CodecUnit.accept_n, CodecUnit.accept_cap, Bool.or_eq_true, decide_eq_true_eq, hsz, hc, if_true]
  right
  by_cases hl : s.dec.srcLen % 4 = 1
  · left
    refine ⟨hf, hs1, hs2, by omega, hl, ?_⟩
    simp only [decStart, hf, Bool.false_eq_true, if_false, badSizes, State.accept_cfg, State.accept_dec_dec,
      CodecUnit.accept_n, CodecUnit.accept_cap, Bool.or_eq_true, decide_eq_true_eq, hsz, hc, lengthBanned, hl, beq_self_eq_true,
      if_true]
  right
  cases hr : s.dec.src.readBytes 0 s.dec.srcLen with
  | none =>
    left
    refine ⟨hf, rfl, ?_⟩
    simp only [decStart, hf, Bool.false_eq_true, if_false, badSizes, State.accept_cfg, State.accept_dec_dec,
      CodecUnit.accept_n, CodecUnit.accept_cap, Bool.or_eq_true, decide_eq_true_eq, hsz, hc, lengthBanned, beq_iff_eq, hl,
      sourceBytes, CodecUnit.accept_src, hr]
  | some t =>
    right
    have hready : DecReady s t := ⟨hf, hs1, hs2, by omega, hr⟩
    cases hp : padCheck s.cfg.urlPadKind mode t with
    | some k =>
      left
      refine ⟨t, k, hready, hl, hp, ?_⟩
      simp only [decStart, hf, Bool.false_eq_true, if_false, badSizes, State.accept_cfg, State.accept_dec_dec,
        CodecUnit.accept_n, CodecUnit.accept_cap, Bool.or_eq_true, decide_eq_true_eq, hsz, hc, lengthBanned, beq_iff_eq, hl,
        sourceBytes, CodecUnit.accept_src, hr, hp]
    | none =>
      right
      refine ⟨t, hready, hl, hp, ?_⟩
      simp only [decStart, hf, Bool.false_eq_true, if_false, badSizes, State.accept_cfg, State.accept_dec_dec,
        CodecUnit.accept_n, CodecUnit.accept_cap, Bool.or_eq_true, decide_eq_true_eq, hsz, hc, lengthBanned, beq_iff_eq, hl,
        sourceBytes, CodecUnit.accept_src, hr, hp]

/-- The length of the text of a ready decode is SRC_LEN. -/
theorem DecReady.length {s : State} {t : List Byte} (h : DecReady s t) : t.length = s.dec.srcLen :=
  Mem.readBytes_length h.written

/-- The length of the input of a ready encode is SRC_LEN. -/
theorem EncReady.length {s : State} {b : List Byte} {e : Nat} (h : EncReady s b e) : b.length = s.enc.srcLen :=
  Mem.readBytes_length h.written

/-- A decode whose text passes the checks of the command write starts running. -/
theorem decStart_of_ready {s : State} {t : List Byte} {mode : Mode} (h : DecReady s t) (hl : t.length % 4 ≠ 1)
    (hp : padCheck s.cfg.urlPadKind mode t = none) (i : Instr) :
    decStart mode i s = .running ((s.accept .dec (encode i)).loadBody t) t := by
  rw [h.length] at hl
  have h1 := h.srcFits; have h2 := h.dstFits; have h3 := h.room
  rcases decStart_cases mode i s with ⟨hb, -⟩ | ⟨-, hz, -⟩ | ⟨-, -, -, hc, -⟩ | ⟨-, -, -, -, hm, -⟩ | ⟨-, hn, -⟩ |
    ⟨t', k, h', -, hk, -⟩ | ⟨t', h', -, -, hr⟩
  · exact absurd hb (by simp [h.free])
  · omega
  · omega
  · omega
  · rw [h.written] at hn; cases hn
  · have : t = t' := Option.some.inj (h.written.symm.trans h'.written)
    rw [← this, hp] at hk; cases hk
  · have : t = t' := Option.some.inj (h.written.symm.trans h'.written)
    rw [this]; exact hr

/-! ### The operations -/

/-- Everything an encode operation can do. -/
theorem runEncode_cases (a : Alphabet) (i : Instr) (s : State) :
    (s.enc.busy = true ∧ runEncode a i s = .refused (.hostAccessWhileBusy .enc)) ∨
    (s.enc.busy = false ∧ ∃ k, encCheck s.cfg (s.enc.accept s.cfg (encode i)) = some k ∧
      (k = .iarg ∨ k = .ovf ∨ k = .cap) ∧ runEncode a i s = .next ((s.accept .enc (encode i)).raise .enc k)) ∨
    (s.enc.busy = false ∧ s.enc.src.readBytes 0 s.enc.srcLen = none ∧
      runEncode a i s = .fault (.unwrittenSource .enc)) ∨
    (∃ b e, EncReady s b e ∧
      runEncode a i s = .next (((s.accept .enc (encode i)).putResult .enc (encText a b)).finish .enc)) := by
  unfold runEncode
  rcases encStart_cases i s with ⟨h, hr⟩ | ⟨h, k, hk, hk', hr⟩ | ⟨h, -, hn, hr⟩ | ⟨b, e, h, hr⟩ <;> rw [hr]
  · exact .inl ⟨h, rfl⟩
  · exact .inr (.inl ⟨h, k, hk, hk', rfl⟩)
  · exact .inr (.inr (.inl ⟨h, hn, rfl⟩))
  · exact .inr (.inr (.inr ⟨b, e, h, rfl⟩))

/-- An encode that fails a check ends with the kind of the check (R152, R153, R156). -/
theorem runEncode_of_check {s : State} (hb : s.enc.busy = false) {i : Instr} {k : ErrKind}
    (h : encCheck s.cfg (s.enc.accept s.cfg (encode i)) = some k) (a : Alphabet) :
    runEncode a i s = .next ((s.accept .enc (encode i)).raise .enc k) := by
  rcases runEncode_cases a i s with ⟨h', -⟩ | ⟨-, k', hk, -, hr⟩ | ⟨-, -, hr⟩ | ⟨b, e, h', -⟩
  · rw [hb] at h'; cases h'
  · rw [h] at hk; cases hk; exact hr
  · simp [runEncode, encStart, hb, h]
  · have h1 := h'.srcFits; have h2 := h'.dstFits; have h3 := h'.room
    rw [encCheck_accept, if_neg (by omega), h'.size] at h
    simp only at h
    rw [if_neg (by omega)] at h; cases h

/-- Everything a decode operation can do. -/
theorem runDecode_cases (m : Mode) (i : Instr) (s : State) :
    (s.dec.busy = true ∧ runDecode m i s = .refused (.hostAccessWhileBusy .dec)) ∨
    (s.dec.busy = false ∧ (s.cfg.srcSize < s.dec.srcLen ∨ s.cfg.dstSize < s.dec.dstCap) ∧
      runDecode m i s = .next ((s.accept .dec (encode i)).raise .dec .iarg)) ∨
    (s.dec.busy = false ∧ s.dec.srcLen ≤ s.cfg.srcSize ∧ s.dec.dstCap ≤ s.cfg.dstSize ∧
      s.dec.dstCap < decodedLength s.dec.srcLen + 1 ∧
      runDecode m i s = decFail m .cap (s.accept .dec (encode i))) ∨
    (s.dec.busy = false ∧ s.dec.srcLen ≤ s.cfg.srcSize ∧ s.dec.dstCap ≤ s.cfg.dstSize ∧
      decodedLength s.dec.srcLen + 1 ≤ s.dec.dstCap ∧ s.dec.srcLen % 4 = 1 ∧
      runDecode m i s = decFail m .fmt (s.accept .dec (encode i))) ∨
    (s.dec.busy = false ∧ s.dec.src.readBytes 0 s.dec.srcLen = none ∧
      runDecode m i s = .fault (.unwrittenSource .dec)) ∨
    (∃ t k, DecReady s t ∧ s.dec.srcLen % 4 ≠ 1 ∧ padCheck s.cfg.urlPadKind m t = some k ∧
      runDecode m i s = decFail m k (s.accept .dec (encode i))) ∨
    (∃ t k, DecReady s t ∧ s.dec.srcLen % 4 ≠ 1 ∧ padCheck s.cfg.urlPadKind m t = none ∧
      bodyKind (decTab m) (bodyOf t) = some k ∧
      runDecode m i s = decFail m k
        (((s.accept .dec (encode i)).loadBody t).putResult .dec (decBody (decTab m) (bodyOf t)).1)) ∨
    (∃ t out, DecReady s t ∧ s.dec.srcLen % 4 ≠ 1 ∧ padCheck s.cfg.urlPadKind m t = none ∧
      decBody (decTab m) (bodyOf t) = (out, none) ∧
      runDecode m i s = .next ((((s.accept .dec (encode i)).loadBody t).putResult .dec out).finish .dec)) := by
  unfold runDecode
  rcases decStart_cases m i s with ⟨h, hr⟩ | ⟨h, h1, hr⟩ | ⟨h, h1, h2, h3, hr⟩ | ⟨h, h1, h2, h3, h4, hr⟩ | ⟨h, hn, hr⟩ |
    ⟨t, k, h, hl, hp, hr⟩ | ⟨t, h, hl, hp, hr⟩ <;> rw [hr]
  · exact .inl ⟨h, rfl⟩
  · exact .inr (.inl ⟨h, h1, rfl⟩)
  · exact .inr (.inr (.inl ⟨h, h1, h2, h3, rfl⟩))
  · exact .inr (.inr (.inr (.inl ⟨h, h1, h2, h3, h4, rfl⟩)))
  · exact .inr (.inr (.inr (.inr (.inl ⟨h, hn, rfl⟩))))
  · exact .inr (.inr (.inr (.inr (.inr (.inl ⟨t, k, h, hl, hp, rfl⟩)))))
  · refine .inr (.inr (.inr (.inr (.inr (.inr ?_)))))
    rcases hb : decBody (decTab m) (bodyOf t) with ⟨out, _ | k⟩
    · exact .inr ⟨t, out, h, hl, hp, hb, by simp only [hb]⟩
    · exact .inl ⟨t, k, h, hl, hp, by rw [← decBody_kind, hb], by simp only [hb]⟩

/-- A decode of a text it accepts ends with its bytes put and finished (R198 to R200). -/
theorem runDecode_of_ok {s : State} {t out : List Byte} {m : Mode} (h : DecReady s t)
    (ho : decBytes s.cfg.urlPadKind m t = .ok out) (i : Instr) :
    runDecode m i s = .next ((((s.accept .dec (encode i)).loadBody t).putResult .dec out).finish .dec) := by
  obtain ⟨hl, hp, hb⟩ := decBytes_ok ho
  unfold runDecode
  rw [decStart_of_ready h hl hp]
  simp only [hb]

/-- No check of a decode gives NOMEM or OVF, and CAP is applicable only when the capacity is short. -/
theorem applicable_kinds {p : Params} {m : Mode} {t : List Byte} {c : Nat} {k : ErrKind} (h : k ∈ applicable p m t c) :
    k ≠ .nomem ∧ k ≠ .ovf ∧ (k = .iarg ∨ k = .cap → c < decodedLength t.length + 1) := by
  have hpk : padKind p.urlPadKind = .fmt ∨ padKind p.urlPadKind = .ichr := by
    cases p.urlPadKind <;> simp [padKind]
  simp only [applicable, List.mem_append] at h
  have mem : ∀ {P : Prop} [Decidable P] {x : ErrKind}, k ∈ (if P then [x] else []) → P ∧ k = x := by
    intro P _ x hx
    split_ifs at hx with hP
    · exact ⟨hP, by simpa using hx⟩
    · cases hx
  rcases h with (((h | h) | h) | h) | h <;> obtain ⟨hP, rfl⟩ := mem h
  · exact ⟨by simp, by simp, fun _ => hP⟩
  · simp
  · rcases hpk with h | h <;> rw [h] <;> simp
  · simp
  · simp

/-- The kinds of the two later steps of the validation order. -/
theorem bodyKind_kinds {D : Byte → Option Sextet} {t : List Byte} {k : ErrKind} (h : bodyKind D t = some k) :
    k = .ichr ∨ k = .iseq := by
  unfold bodyKind at h
  split at h
  · cases h; simp
  · split at h
    · rename_i k hu
      cases h
      unfold unpackGroup at hu
      split at hu <;> (try split at hu) <;> cases hu <;> simp
    · cases h

/-- The kinds of the pad check (R187). -/
theorem padCheck_kinds {q : UrlPadKind} {m : Mode} {t : List Byte} {k : ErrKind} (h : padCheck q m t = some k) :
    k = .fmt ∨ k = .ichr := by
  cases q <;> cases m <;> simp only [padCheck, padKind] at h <;> split_ifs at h <;> cases h <;> simp

/-- A failing decode raises a kind of a decode; IARG and CAP only where the first failing check or a short capacity
gives them. -/
theorem decFail_next {m : Mode} {k : ErrKind} {s t : State} (h : decFail m k s = .next t) (h1 : k ≠ .nomem)
    (h2 : k ≠ .ovf) : ∃ k', t = s.raise .dec k' ∧ k' ≠ .nomem ∧ k' ≠ .ovf ∧
      (k' = .iarg ∨ k' = .cap → k = .iarg ∨ k = .cap ∨ s.dec.hid.cap < decodedLength s.dec.hid.n + 1) := by
  rcases decFail_cases m k s with ⟨-, -, hn⟩ | ⟨k', hn, hk'⟩ <;> rw [h] at hn <;> cases hn
  refine ⟨k', rfl, ?_⟩
  rcases hk' with ⟨-, rfl⟩ | ⟨-, t', ht', rfl⟩
  · exact ⟨h1, h2, fun h => h.elim .inl (fun h => .inr (.inl h))⟩
  · rcases pickKind_mem (applicable s.cfg m t' s.dec.hid.cap) k s.dec.draw with h | ⟨-, h⟩
    · obtain ⟨a, b, c⟩ := applicable_kinds h
      refine ⟨a, b, fun h => .inr (.inr ?_)⟩
      rw [← Mem.readBytes_length ht']; exact c h
    · rw [h]; exact ⟨h1, h2, fun h => h.elim .inl (fun h => .inr (.inl h))⟩

/-- The state a decode operation has reached when it ends: accepted, the body loaded, some bytes committed. -/
def decMid (i : Instr) (s : State) (d : DecData) (out : List Byte) : State :=
  { s.accept .dec (encode i) with decData := d }.putResult .dec out

/-- A decode operation ends in `t` with the datapath `d` loaded and the bytes `out` committed: a kind is raised, or it is
finished. -/
def DecodeEnd (i : Instr) (s t : State) (d : DecData) (out : List Byte) : Prop :=
  (d.l = s.decData.l ∨ d.l ≤ s.dec.srcLen) ∧
  ((∃ k, t = (decMid i s d out).raise .dec k ∧ (out = [] ∨ out.length < s.dec.dstCap) ∧
      k ≠ .nomem ∧ k ≠ .ovf ∧ (k = .iarg ∨ k = .cap → out = [])) ∨
    (out.length < s.dec.dstCap ∧ t = (decMid i s d out).finish .dec))

/-- Every way a decode operation ends in a next state: a kind is raised or it is finished, with committed bytes that fit
the capacity with the terminator, none of them if the kind is IARG or CAP. -/
theorem runDecode_next {m : Mode} {i : Instr} {s t : State} (h : runDecode m i s = .next t) :
    s.dec.busy = false ∧ ∃ d out, DecodeEnd i s t d out := by
  have early : ∀ k, k ≠ .nomem → k ≠ .ovf → decFail m k (s.accept .dec (encode i)) = .next t →
      ∃ d out, DecodeEnd i s t d out := by
    intro k h1 h2 hf
    obtain ⟨k', rfl, a, b, -⟩ := decFail_next hf h1 h2
    exact ⟨s.decData, [], .inl rfl, .inl ⟨k', rfl, .inl rfl, a, b, fun _ => rfl⟩⟩
  have fits : ∀ t, DecReady s t → (decBody (decTab m) (bodyOf t)).1.length < s.dec.dstCap := by
    intro t hr
    have h1 := length_decBody_le (decTab m) (bodyOf t)
    have h2 := hr.room; have h3 := hr.length
    rw [length_bodyOf] at h1
    unfold decodedLength at h1 h2
    omega
  rcases runDecode_cases m i s with ⟨-, hr⟩ | ⟨hb, -, hr⟩ | ⟨hb, h1, h2, h3, hr⟩ | ⟨hb, h1, h2, h3, h4, hr⟩ | ⟨hb, hn, hr⟩ |
    ⟨t', k', h', hl, hp, hr⟩ | ⟨t', k', h', hl, hp, hk, hr⟩ | ⟨t', o, h', hl, hp, hk, hr⟩ <;> rw [h] at hr
  · cases hr
  · cases hr
    exact ⟨hb, s.decData, [], .inl rfl, .inl ⟨.iarg, rfl, .inl rfl, by simp, by simp, fun _ => rfl⟩⟩
  · exact ⟨hb, early _ (by simp) (by simp) hr.symm⟩
  · exact ⟨hb, early _ (by simp) (by simp) hr.symm⟩
  · cases hr
  · refine ⟨h'.free, early k' ?_ ?_ hr.symm⟩ <;> rcases padCheck_kinds hp with rfl | rfl <;> simp
  · have hkk := bodyKind_kinds hk
    obtain ⟨k2, rfl, a, b, c⟩ := decFail_next hr.symm (by rcases hkk with rfl | rfl <;> simp)
      (by rcases hkk with rfl | rfl <;> simp)
    refine ⟨h'.free, ((s.accept .dec (encode i)).loadBody t').decData, _, .inr ?_,
      .inl ⟨k2, rfl, .inr (fits _ h'), a, b, fun hc => ?_⟩⟩
    · have := h'.length; simp; omega
    · exfalso
      have h2 := h'.room
      rcases hkk with rfl | rfl <;> simpa [Nat.not_lt.2 h2] using c hc
  · cases hr
    refine ⟨h'.free, ((s.accept .dec (encode i)).loadBody t').decData, o, .inr ?_, .inr ⟨?_, rfl⟩⟩
    · have := h'.length; simp; omega
    · have := fits _ h'; rwa [hk] at this

end Sys2Proof.Machine
end

