-- ==== Sys2Proof/Laws/Steps.lean ====
section
/-! SUPPORT. What one step can do, said once: the five instructions, one step of a unit, the command write, and the step
of the machine as a whole. -/

namespace Sys2Proof.Machine

/-! ### The instructions -/

/-- The instruction of a mode is the decode operation of the mode. -/
theorem exec_dec {i : Instr} {m : Mode} (hi : i.decodeMode = some m) (s : State) :
    exec i s = runDecode m i s := by
  cases i <;> cases hi <;> rfl

/-- An instruction is an encode or a decode operation. -/
theorem exec_cases (i : Instr) (s : State) :
    (∃ a, i.unit = .enc ∧ exec i s = runEncode a i s ∧ i.encodeAlphabet = some a) ∨
    (∃ m, i.unit = .dec ∧ exec i s = runDecode m i s ∧ i.decodeMode = some m) := by
  cases i
  · exact .inl ⟨.std, rfl, rfl, rfl⟩
  · exact .inl ⟨.url, rfl, rfl, rfl⟩
  · exact .inr ⟨.std, rfl, rfl, rfl⟩
  · exact .inr ⟨.url, rfl, rfl, rfl⟩
  · exact .inr ⟨.mix, rfl, rfl, rfl⟩

/-- `encoded_length(0) = 0` (R142). -/
theorem encodedLength_zero (p : Params) : encodedLength p 0 = some 0 := by simp [encodedLength]

/-! ### One step of a unit -/

/-- Everything one step of the ENC unit can do. -/
theorem encStep_cases (s : State) :
    (s.enc.busy = false ∧ encStep s = .next s) ∨
    (s.enc.busy = true ∧ s.enc.hid.n ≤ s.enc.hid.ipos ∧ encStep s = .next (s.finish .enc)) ∨
    (s.enc.busy = true ∧ encStep s = .fault (.unwrittenSource .enc) ∧
      s.enc.src.readBytes s.enc.hid.ipos (min 3 (s.enc.hid.n - s.enc.hid.ipos)) = none) ∨
    (s.enc.busy = true ∧ s.enc.hid.ipos < s.enc.hid.n ∧ ∃ bs e out,
      s.enc.src.readBytes s.enc.hid.ipos (min 3 (s.enc.hid.n - s.enc.hid.ipos)) = some bs ∧
      e = encGroup (opAlphabet s.enc.hid.op) bs s.encData ∧ out = groupOut (opAlphabet s.enc.hid.op) bs.length e ∧
      encStep s = .next { s with
          encData := e
          enc := { s.enc with
            dst := s.enc.dst.writeBytes s.enc.hid.opos out
            hid := { s.enc.hid with ipos := s.enc.hid.ipos + bs.length, opos := s.enc.hid.opos + out.length } } }) := by
  unfold encStep
  by_cases hb : s.enc.busy = true
  · right
    simp only [hb, if_true]
    by_cases h0 : s.enc.hid.n - s.enc.hid.ipos = 0
    · left; exact ⟨trivial, by omega, by rw [if_pos h0]⟩
    · right
      rw [if_neg h0]
      cases hr : s.enc.src.readBytes s.enc.hid.ipos (min 3 (s.enc.hid.n - s.enc.hid.ipos)) with
      | none => left; exact ⟨trivial, rfl, rfl⟩
      | some bs => right; exact ⟨trivial, by omega, bs, _, _, rfl, rfl, rfl, rfl⟩
  · left; simp [hb]

/-- Everything one step of the DEC unit can do. -/
theorem decStep_cases (s : State) :
    (s.dec.busy = false ∧ decStep s = .next s) ∨
    (s.dec.busy = true ∧ s.decData.l ≤ s.dec.hid.ipos ∧ decStep s = .next (s.finish .dec)) ∨
    (s.dec.busy = true ∧ decStep s = .fault (.unwrittenSource .dec) ∧
      s.dec.src.readBytes s.dec.hid.ipos (min 4 (s.decData.l - s.dec.hid.ipos)) = none) ∨
    (s.dec.busy = true ∧ s.dec.hid.ipos < s.decData.l ∧ ∃ ys,
      s.dec.src.readBytes s.dec.hid.ipos (min 4 (s.decData.l - s.dec.hid.ipos)) = some ys ∧
      ((∃ k, decGroup (decTab (opMode s.dec.hid.op)) ys = .error k ∧
          decStep s = decFail (opMode s.dec.hid.op) k s) ∨
       (∃ bs, decGroup (decTab (opMode s.dec.hid.op)) ys = .ok bs ∧
      decStep s = .next { s with
            decData := decPack ys.length (decFetch (opMode s.dec.hid.op) ys s.decData)
            dec := { s.dec with
              dst := s.dec.dst.writeBytes s.dec.hid.opos bs
              hid := { s.dec.hid with ipos := s.dec.hid.ipos + ys.length, opos := s.dec.hid.opos + bs.length } } }))) := by
  unfold decStep
  by_cases hb : s.dec.busy = true
  · right
    simp only [hb, if_true]
    by_cases h0 : s.decData.l - s.dec.hid.ipos = 0
    · left; exact ⟨trivial, by omega, by rw [if_pos h0]⟩
    · right
      rw [if_neg h0]
      cases hr : s.dec.src.readBytes s.dec.hid.ipos (min 4 (s.decData.l - s.dec.hid.ipos)) with
      | none => left; exact ⟨trivial, rfl, rfl⟩
      | some ys =>
        right
        refine ⟨trivial, by omega, ys, rfl, ?_⟩
        simp only
        cases hg : decGroup (decTab (opMode s.dec.hid.op)) ys with
        | error k => exact .inl ⟨k, rfl, rfl⟩
        | ok bs => exact .inr ⟨bs, rfl, rfl⟩
  · left; simp [hb]

/-- A step of the ENC unit reads and changes nothing of the DEC unit (R22). -/
theorem encStep_local {s t : State} (h : encStep s = .next t) (d : CodecUnit) (dd : DecData) :
    t.dec = s.dec ∧ t.decData = s.decData ∧ t.cfg = s.cfg ∧ t.moves = s.moves ∧ t.replies = s.replies ∧
    t.owned = s.owned ∧
    encStep { s with dec := d, decData := dd } = .next { t with dec := d, decData := dd } := by
  have hu := h
  unfold encStep at hu ⊢
  simp only at hu ⊢
  by_cases hb : s.enc.busy = true
  · simp only [hb, if_true] at hu ⊢
    by_cases h0 : s.enc.hid.n - s.enc.hid.ipos = 0
    · rw [if_pos h0] at hu ⊢; cases hu
      refine ⟨rfl, rfl, rfl, rfl, rfl, rfl, rfl⟩
    · rw [if_neg h0] at hu ⊢
      cases hr : s.enc.src.readBytes s.enc.hid.ipos (min 3 (s.enc.hid.n - s.enc.hid.ipos)) with
      | none => rw [hr] at hu; cases hu
      | some bs => rw [hr] at hu; cases hu; refine ⟨rfl, rfl, rfl, rfl, rfl, rfl, rfl⟩
  · simp only [hb] at hu ⊢; cases hu; refine ⟨rfl, rfl, rfl, rfl, rfl, rfl, rfl⟩

/-- The end of a decode reads and changes nothing of the ENC unit (R22). -/
theorem decFail_local {m : Mode} {k : ErrKind} {s t : State} (h : decFail m k s = .next t) (d : CodecUnit)
    (dd : EncData) :
    t.enc = s.enc ∧ t.encData = s.encData ∧ t.cfg = s.cfg ∧ t.moves = s.moves ∧ t.replies = s.replies ∧
    t.owned = s.owned ∧
    decFail m k { s with enc := d, encData := dd } = .next { t with enc := d, encData := dd } := by
  unfold decFail at h ⊢
  simp only at h ⊢
  cases hr : reportKind s.cfg m s.dec k with
  | none => rw [hr] at h; cases h
  | some k => rw [hr] at h; cases h; refine ⟨rfl, rfl, rfl, rfl, rfl, rfl, rfl⟩

/-- A step of the DEC unit reads and changes nothing of the ENC unit (R22). -/
theorem decStep_local {s t : State} (h : decStep s = .next t) (d : CodecUnit) (dd : EncData) :
    t.enc = s.enc ∧ t.encData = s.encData ∧ t.cfg = s.cfg ∧ t.moves = s.moves ∧ t.replies = s.replies ∧
    t.owned = s.owned ∧
    decStep { s with enc := d, encData := dd } = .next { t with enc := d, encData := dd } := by
  have hu := h
  unfold decStep at hu ⊢
  simp only at hu ⊢
  by_cases hb : s.dec.busy = true
  · simp only [hb, if_true] at hu ⊢
    by_cases h0 : s.decData.l - s.dec.hid.ipos = 0
    · rw [if_pos h0] at hu ⊢; cases hu
      refine ⟨rfl, rfl, rfl, rfl, rfl, rfl, rfl⟩
    · rw [if_neg h0] at hu ⊢
      cases hr : s.dec.src.readBytes s.dec.hid.ipos (min 4 (s.decData.l - s.dec.hid.ipos)) with
      | none => rw [hr] at hu; cases hu
      | some ys =>
        rw [hr] at hu; simp only at hu ⊢
        cases hg : decGroup (decTab (opMode s.dec.hid.op)) ys with
        | error k => rw [hg] at hu; exact decFail_local hu d dd
        | ok bs => rw [hg] at hu; cases hu; refine ⟨rfl, rfl, rfl, rfl, rfl, rfl, rfl⟩
  · simp only [hb] at hu ⊢; cases hu; refine ⟨rfl, rfl, rfl, rfl, rfl, rfl, rfl⟩

/-- What a size that did not overflow is (R140). -/
theorem encodedLength_some {p : Params} {n e : Nat} (h : encodedLength p n = some e) :
    e = (n + 2) / 3 * 4 ∧ e ≤ p.maxLen := by
  unfold encodedLength at h; simp only at h; split_ifs at h; cases h; exact ⟨rfl, by omega⟩

/-- A group is at most four characters. -/
theorem length_groupOut_le (a : Alphabet) (k : Nat) (e : EncData) : (groupOut a k e).length ≤ 4 := by
  unfold groupOut; cases a <;> simp

/-- The facts about a running encoder's next group. -/
theorem encGroup_bounds {p : Params} {x : CodecUnit} {bs out : List Byte} (h : EncRunInv p x) (hr : x.phase = .run)
    (hlt : x.hid.ipos < x.hid.n) (hb : bs.length = min 3 (x.hid.n - x.hid.ipos)) (ho : out.length ≤ 4) :
    x.hid.ipos % 3 = 0 ∧ x.hid.ipos + bs.length ≤ x.hid.n ∧
      ((x.hid.ipos + bs.length) % 3 = 0 ∨ x.hid.ipos + bs.length = x.hid.n) ∧
      x.hid.opos + out.length ≤ (x.hid.ipos + bs.length + 2) / 3 * 4 ∧
      (x.hid.ipos + bs.length + 2) / 3 * 4 < x.hid.cap := by
  obtain ⟨-, ⟨e, h1, h2⟩, h3, h4, h5⟩ := h hr
  obtain ⟨rfl, -⟩ := encodedLength_some h1
  omega

/-- The facts about a running decoder's next group. -/
theorem decGroup_bounds {x : CodecUnit} {d : DecData} {ys bs : List Byte} (h : DecRunInv x d) (hr : x.phase = .run)
    (hlt : x.hid.ipos < d.l) (hy : ys.length = min 4 (d.l - x.hid.ipos)) (ho : bs.length ≤ decodedLength ys.length) :
    x.hid.ipos % 4 = 0 ∧ x.hid.ipos + ys.length ≤ d.l ∧
      ((x.hid.ipos + ys.length) % 4 = 0 ∨ x.hid.ipos + ys.length = d.l) ∧
      x.hid.opos + bs.length ≤ decodedLength (x.hid.ipos + ys.length) ∧
      decodedLength (x.hid.ipos + ys.length) < x.hid.cap := by
  obtain ⟨-, h2, h3, h4, h5, h6⟩ := h hr
  unfold decodedLength at *
  omega

/-- A running decode has room for its terminator. -/
theorem finish_bounds_dec {x : CodecUnit} {d : DecData} (h : DecRunInv x d) (hr : x.phase = .run) :
    x.hid.opos < x.hid.cap := by
  obtain ⟨-, h2, h3, h4, h5, h6⟩ := h hr
  unfold decodedLength at *
  omega

/-- A running encode has room for its terminator. -/
theorem finish_bounds_enc {p : Params} {x : CodecUnit} (h : EncRunInv p x) (hr : x.phase = .run) :
    x.hid.opos < x.hid.cap := by
  obtain ⟨-, ⟨e, h1, h2⟩, h3, h4, h5⟩ := h hr
  obtain ⟨rfl, -⟩ := encodedLength_some h1
  omega

/-! ### One step of the machine -/

/-- A decode keeps the parameters. -/
theorem runDecode_next_cfg {m : Mode} {i : Instr} {s t : State} (h : runDecode m i s = .next t) : t.cfg = s.cfg := by
  obtain ⟨-, d, out, -, ⟨k, rfl, -⟩ | ⟨-, rfl⟩⟩ := runDecode_next h <;> simp [decMid]

/-- An instruction keeps the parameters. -/
theorem exec_cfg {i : Instr} {s t : State} (h : exec i s = .next t) : t.cfg = s.cfg := by
  rcases exec_cases i s with ⟨a, -, he, -⟩ | ⟨m, -, he, -⟩ <;> rw [he] at h
  · rcases runEncode_cases a i s with ⟨-, h'⟩ | ⟨-, k, -, -, h'⟩ | ⟨-, -, h'⟩ | ⟨b, e, -, h'⟩ <;>
      rw [h] at h' <;> cases h' <;> simp
  · exact runDecode_next_cfg h

/-- Everything the Issue step of an accepted word can do: the whole operation, or a running unit. -/
theorem issue_next {i : Instr} {s t : State} (h : issue i s = .next t) :
    exec i s = .next t ∨ 
    (i.unit = .enc ∧ (∃ b e, EncReady s b e) ∧ t = s.accept .enc (encode i)) ∨
    (i.unit = .dec ∧ ∃ m b, i.decodeMode = some m ∧ DecReady s b ∧ b.length % 4 ≠ 1 ∧
      padCheck s.cfg.urlPadKind m b = none ∧ t = (s.accept .dec (encode i)).loadBody b) := by
  have hE : ∀ a, issueEncode i s = .next t →
      runEncode a i s = .next t ∨ ((∃ b e, EncReady s b e) ∧ t = s.accept .enc (encode i)) := by
    intro a h
    rcases encStart_cases i s with ⟨-, h'⟩ | ⟨-, k, -, -, h'⟩ | ⟨-, -, -, h'⟩ | ⟨b', e, hr, h'⟩ <;>
      simp only [issueEncode, runEncode, h'] at h ⊢
    · cases h
    · exact .inl h
    · cases h
    · cases h; exact .inr ⟨⟨b', e, hr⟩, rfl⟩
  have hD : ∀ m, issueDecode m i s = .next t → runDecode m i s = .next t ∨
      ∃ b, DecReady s b ∧ b.length % 4 ≠ 1 ∧ padCheck s.cfg.urlPadKind m b = none ∧
        t = (s.accept .dec (encode i)).loadBody b := by
    intro m h
    rcases decStart_cases m i s with ⟨-, h'⟩ | ⟨-, -, h'⟩ | ⟨-, -, -, -, h'⟩ | ⟨-, -, -, -, -, h'⟩ | ⟨-, -, h'⟩ |
      ⟨t, k, -, -, -, h'⟩ | ⟨t, hr, hl, hp, h'⟩ <;> simp only [issueDecode, runDecode, h'] at h ⊢
    · cases h
    · exact .inl h
    · exact .inl h
    · exact .inl h
    · cases h
    · exact .inl h
    · cases h; exact .inr ⟨t, hr, by rw [hr.length]; exact hl, hp, rfl⟩
  cases i
  · exact (hE .std h).imp id (fun h => .inl ⟨rfl, h⟩)
  · exact (hE .url h).imp id (fun h => .inl ⟨rfl, h⟩)
  · exact (hD .std h).imp id (fun ⟨b, h⟩ => .inr ⟨rfl, .std, b, rfl, h⟩)
  · exact (hD .url h).imp id (fun ⟨b, h⟩ => .inr ⟨rfl, .url, b, rfl, h⟩)
  · exact (hD .mix h).imp id (fun ⟨b, h⟩ => .inr ⟨rfl, .mix, b, rfl, h⟩)

/-- What an accepted word is. -/
theorem accepted_some {u : UnitId} {w : Byte} {i : Instr} (h : accepted u w = some i) :
    decode w = .ok i ∧ i.unit = u := by
  unfold accepted at h; split at h
  · split_ifs at h with hu; cases h; exact ⟨by assumption, hu⟩
  · cases h

/-- What a step did, to the state from which its move has been taken. -/
inductive StepCase (s : State) (t : State) : Prop where
  | same (h : t = s)
  | execd (i : Instr) (h : exec i s = .next t)
  | issued (i : Instr) (h : issue i s = .next t)
  | illegal (u : UnitId) (w : Byte) (hb : (s.unit u).busy = false) (h : t = (s.accept u w).raise u .iarg)
  | setSrcLen (u : UnitId) (v : Nat) (hb : (s.unit u).busy = false) (hv : v ≤ s.cfg.maxLen)
      (h : t = s.setUnit u { s.unit u with srcLen := v })
  | setDstCap (u : UnitId) (v : Nat) (hb : (s.unit u).busy = false) (hv : v ≤ s.cfg.maxLen)
      (h : t = s.setUnit u { s.unit u with dstCap := v })
  | replied (r : Reply) (h : t = s.reply r)
  | wroteMem (u : UnitId) (sp : Space) (i : Nat) (bs : List Byte) (hb : (s.unit u).busy = false)
      (hv : bs = [] ∨ i + bs.length ≤ cells s.cfg sp)
      (h : t = s.setUnit u ((s.unit u).setSpace sp (((s.unit u).space sp).writeBytes i bs)))
  | encStepped (h : encStep s = .next t)
  | decStepped (h : decStep s = .next t)
  | pseudoed (q : Pseudo) (bs : List Byte) (e : Nat) (hb : (s.unit q.instr.unit).busy = false)
      (hl : bs.length ≤ s.cfg.maxLen) (hz : q.size s.cfg bs.length = some e) (h : runPseudo q bs e s = .next t)
  | reset (h : t = s.resetBlock)

/-- Everything a machine without a pending move can do. -/
theorem idleStep_case {s t : State} (h : idleStep s = .next t) : StepCase s t := by
  unfold idleStep at h
  split_ifs at h
  · exact .encStepped h
  · exact .decStepped h
  · cases h; exact .same rfl

/-- A step of a unit's own. -/
theorem unitStep_case {u : UnitId} {s t : State} (h : unitStep u s = .next t) : StepCase s t := by
  cases u
  · exact .encStepped h
  · exact .decStepped h

/-- Everything a wait can do. -/
theorem waitFor_case {u : UnitId} {m : Move} {s t : State} (h : waitFor u m s = .next t) :
    StepCase { s with moves := m :: s.moves } t := by
  unfold waitFor at h
  simp only at h
  split_ifs at h
  · exact unitStep_case h
  · exact idleStep_case h

/-- Everything a step can do. -/
theorem step_cases {s t : State} (h : step s = .next t) : ∃ ms, StepCase { s with moves := ms } t := by
  unfold step advance at h
  cases hm : s.moves with
  | nil =>
    rw [hm] at h
    refine ⟨[], ?_⟩
    have hs : ({ s with moves := [] } : State) = s := by rw [← hm]
    rw [hs]
    exact idleStep_case h
  | cons m rest =>
    rw [hm] at h
    simp only at h
    generalize hs0 : ({ s with moves := rest } : State) = s0 at h
    cases m with
    | write u r v =>
      refine ⟨rest, ?_⟩
      rw [hs0]
      cases r <;> simp only [runMove, hostWrite] at h
      · split_ifs at h
        unfold commandWrite at h
        cases ha : accepted u (BitVec.ofNat 8 v) with
        | some i => rw [ha] at h; exact .execd i h
        | none =>
          rw [ha] at h; simp only [illegalCommand] at h
          split_ifs at h with hb; cases h; exact .illegal u _ (by simpa using hb) rfl
      · split_ifs at h with hb hv; cases h; exact .setSrcLen u v (by simpa using hb) hv rfl
      · split_ifs at h with hb hv; cases h; exact .setDstCap u v (by simpa using hb) hv rfl
      · cases h
      · cases h
    | issue u w =>
      refine ⟨rest, ?_⟩
      rw [hs0]
      simp only [runMove, issueWrite] at h
      cases ha : accepted u w with
      | some i => rw [ha] at h; exact .issued i h
      | none =>
        rw [ha] at h; simp only [illegalCommand] at h
        split_ifs at h with hb; cases h; exact .illegal u _ (by simpa using hb) rfl
    | read u r =>
      refine ⟨rest, ?_⟩
      rw [hs0]
      simp only [runMove, hostRead] at h
      split_ifs at h; cases h; exact .replied _ rfl
    | writeMem u sp i bs =>
      refine ⟨rest, ?_⟩
      rw [hs0]
      simp only [runMove, hostWriteMem] at h
      split_ifs at h with hb hv; cases h; exact .wroteMem u sp i bs (by simpa using hb) hv rfl
    | readMem u sp i n =>
      refine ⟨rest, ?_⟩
      rw [hs0]
      simp only [runMove, hostReadMem] at h
      split_ifs at h
      split at h
      · cases h; exact .replied _ rfl
      · cases h
    | poll u =>
      simp only [runMove] at h
      split_ifs at h
      · refine ⟨rest, ?_⟩
        rw [hs0]
        cases h; exact .replied _ rfl
      · refine ⟨.poll u :: rest, ?_⟩
        subst hs0
        exact waitFor_case h
    | unitStep u =>
      refine ⟨rest, ?_⟩
      rw [hs0]
      exact unitStep_case h
    | pseudo q bs =>
      simp only [runMove, execPseudo] at h
      by_cases hl : s0.cfg.maxLen < bs.length
      · rw [if_pos hl] at h; cases h
      rw [if_neg hl] at h
      cases hz : q.size s0.cfg bs.length with
      | none =>
        refine ⟨rest, ?_⟩
        rw [hs0]
        rw [hz] at h; cases h; exact .replied _ rfl
      | some e =>
        rw [hz] at h
        simp only at h
        split_ifs at h with hb
        · refine ⟨.pseudo q bs :: rest, ?_⟩
          subst hs0
          exact waitFor_case h
        · refine ⟨rest, ?_⟩
          rw [hs0]
          exact .pseudoed q bs e (by simpa using hb) (by omega) hz h
    | reset =>
      refine ⟨rest, ?_⟩
      rw [hs0]
      cases h; exact .reset rfl

/-- Everything an allocating pseudo-operation can do on a unit that is not busy. -/
theorem runPseudo_next {q : Pseudo} {bs : List Byte} {e : Nat} {s t : State} (h : runPseudo q bs e s = .next t) :
    (Config.freeAlloc q.instr.unit (s.unit q.instr.unit).draw = false ∧
      t = (s.drawOne q.instr.unit).reply (.failure ErrKind.nomem.code)) ∨
    (Config.freeAlloc q.instr.unit (s.unit q.instr.unit).draw = true ∧
      ∃ t', exec q.instr (prepare q.instr.unit bs (e + 1) (s.drawOne q.instr.unit)) = .next t' ∧
        t = collect q.instr.unit (e + 1) t') := by
  unfold runPseudo at h
  simp only at h
  split_ifs at h with ha
  · right
    split at h
    · rename_i t' ht'; cases h; exact ⟨ha, t', ht', rfl⟩
    · cases h
    · cases h
  · cases h; exact .inl ⟨by simpa using ha, rfl⟩

@[simp] theorem collect_cfg (u : UnitId) (c : Nat) (s : State) : (collect u c s).cfg = s.cfg := by
  unfold collect; simp only; split_ifs <;> rfl

end Sys2Proof.Machine
end

