-- ==== Sys2Proof/Laws/Invariant.lean ====
section
/-! SUPPORT. How the shared operations keep the parts of the invariant: the free lengths, the spaces, an ended unit, an
accepted one, an idle one, and a state in which only one unit has changed. -/

namespace Sys2Proof.Machine

/-- A free length fits LENW bits. -/
theorem freeLen_le (p : Params) (u : UnitId) (d : Nat) : freeLen p u d ≤ p.maxLen := by
  unfold freeLen Params.maxLen
  have := Nat.mod_lt (Config.freeNat u d) (show 0 < 2 ^ p.lenW by positivity)
  omega

/-- Legal parameters: the cells that exist are those the sizes name (R9, R38). -/
theorem cells_of_wf {p : Params} (h : p.wf = true) :
    4 ≤ p.lenW ∧ cells p .src = p.srcSize ∧ cells p .dst = p.dstSize := by
  simp only [Params.wf, Bool.and_eq_true, Params.widthOk, Params.sizesOk, Params.depthOk, decide_eq_true_eq] at h
  refine ⟨h.1.1, ?_, ?_⟩ <;> simp only [cells] <;> omega

/-- A run of writes below `k` lists no cell at or above `k`. -/
theorem Mem.writeBytes_lt {m : Mem} {x k : Nat} {bs : List Byte} (h : ∀ c ∈ m, c.1 < k)
    (hb : bs = [] ∨ x + bs.length ≤ k) : ∀ c ∈ m.writeBytes x bs, c.1 < k := by
  intro c hc
  rcases hb with rfl | hb
  · exact h c hc
  · rcases Mem.mem_writeBytes hc with h' | h'
    · omega
    · exact h c h'

/-- A failure keeps the destination canonical and inside its cells. -/
theorem failDst_keeps {p : Params} {u : UnitId} {k : ErrKind} {x : CodecUnit} (h : x.dst.wf)
    (h2 : ∀ c ∈ x.dst, c.1 < cells p .dst) (hc : x.hid.cap ≤ cells p .dst ∨ k = .iarg ∨ k = .cap ∨ k = .ovf) :
    (failDst p u k x).wf ∧ ∀ c ∈ failDst p u k x, c.1 < cells p .dst := by
  unfold failDst
  split <;> (try split) <;> first
    | exact ⟨h, h2⟩
    | exact ⟨Mem.wf_writeBytes h _ _, Mem.writeBytes_lt h2 (.inr (by simp [freeBytes] at hc ⊢; omega))⟩

/-- A success keeps the destination canonical and inside its cells. -/
theorem finishDst_keeps {p : Params} {u : UnitId} {x : CodecUnit} (h : x.dst.wf)
    (h2 : ∀ c ∈ x.dst, c.1 < cells p .dst) (ho : x.hid.opos < x.hid.cap) (hc : x.hid.cap ≤ cells p .dst) :
    (finishDst p u x).wf ∧ ∀ c ∈ finishDst p u x, c.1 < cells p .dst := by
  unfold finishDst
  have hw : ∀ c ∈ x.dst.write x.hid.opos terminator, c.1 < cells p .dst := by
    rw [Mem.write_eq_writeBytes]
    exact Mem.writeBytes_lt h2 (.inr (by simp; omega))
  split
  · exact ⟨Mem.wf_writeBytes (Mem.wf_write h _ _) _ _,
      Mem.writeBytes_lt hw (.inr (by simp [freeBytes]; omega))⟩
  · exact ⟨Mem.wf_write h _ _, hw⟩

/-- The hardware writes the code of every kind but NOMEM (R261). -/
theorem ErrKind.code_mem {k : ErrKind} (h : k ≠ .nomem) : k.code ∈ ([0, 1, 2, 3, 4, 5, 7] : List (BitVec 4)) := by
  cases k <;> first | decide | exact absurd rfl h

/-- An ended unit meets its invariant: the registers it keeps do, and what it has been given does. -/
theorem CodecUnit.ended_inv {p : Params} {x : CodecUnit} {u : UnitId} {code : BitVec 4} {len : Nat} {dst : Mem}
    (hsrc : x.src.wf) (hdst : dst.wf) (hsrcIn : ∀ c ∈ x.src, c.1 < cells p .src)
    (hdstIn : ∀ c ∈ dst, c.1 < cells p .dst) (hlen : x.srcLen ≤ p.maxLen) (hcap : x.dstCap ≤ p.maxLen)
    (hout : len ≤ p.maxLen) (hcode : code ∈ ([0, 1, 2, 3, 4, 5, 7] : List (BitVec 4)))
    (hfail : code ≠ codeOk → len = 0) : UnitInv p (x.ended p u code len dst) where
  srcSorted := hsrc
  dstSorted := hdst
  srcExists := hsrcIn
  dstExists := hdstIn
  srcLen := hlen
  dstCap := hcap
  dstLen := hout
  n := freeLen_le _ _ _
  cap := freeLen_le _ _ _
  ipos := freeLen_le _ _ _
  opos := freeLen_le _ _ _
  stages := by simp [freeHidden]
  code := hcode
  quiet := fun h => absurd rfl h
  failed := hfail
  latched := fun h => by cases h

/-- An accepted unit meets its invariant if its sizes are legal and its source bytes are there. -/
theorem CodecUnit.accept_inv {p : Params} {x : CodecUnit} {w : Byte} (h : UnitInv p x) (hs : x.srcLen ≤ p.srcSize)
    (hd : x.dstCap ≤ p.dstSize) (hr : ∃ b, x.src.readBytes 0 x.srcLen = some b) : UnitInv p (x.accept p w) where
  srcSorted := h.srcSorted
  dstSorted := h.dstSorted
  srcExists := h.srcExists
  dstExists := h.dstExists
  srcLen := h.srcLen
  dstCap := h.dstCap
  dstLen := Nat.zero_le _
  n := h.srcLen
  cap := h.dstCap
  ipos := Nat.zero_le _
  opos := Nat.zero_le _
  stages := by simp
  code := by simp [codeOk]
  quiet := fun _ => ⟨rfl, rfl⟩
  failed := fun h => absurd rfl h
  latched := fun _ => ⟨rfl, rfl, rfl, hs, hd, hr⟩

/-- If only the ENC unit has changed, only its part of the invariant is to be shown. -/
theorem Inv.of_enc {s t : State} (h : Inv s) (hc : t.cfg = s.cfg) (hd : t.dec = s.dec) (hdd : t.decData = s.decData)
    (hu : UnitInv s.cfg t.enc) (hr : EncRunInv s.cfg t.enc) : Inv t where
  cfg := by rw [hc]; exact h.cfg
  enc := by rw [hc]; exact hu
  dec := by rw [hc, hd]; exact h.dec
  encRun := by rw [hc]; exact hr
  decRun := by rw [hd, hdd]; exact h.decRun
  bodyLen := by rw [hc, hdd]; exact h.bodyLen

/-- If only the DEC unit has changed, only its part of the invariant is to be shown. -/
theorem Inv.of_dec {s t : State} (h : Inv s) (hc : t.cfg = s.cfg) (hd : t.enc = s.enc) (hu : UnitInv s.cfg t.dec)
    (hr : DecRunInv t.dec t.decData) (hb : t.decData.l ≤ s.cfg.maxLen) : Inv t where
  cfg := by rw [hc]; exact h.cfg
  enc := by rw [hc, hd]; exact h.enc
  dec := by rw [hc]; exact hu
  encRun := by rw [hc, hd]; exact h.encRun
  decRun := hr
  bodyLen := by rw [hc]; exact hb

end Sys2Proof.Machine
end

