-- ==== Sys2Proof/Laws/PerInstr.lean ====
section
/-! SUPPORT. One lemma per instruction for the family `Encoding`. -/

namespace Sys2Proof.Laws.Encoding
set_option Elab.async false

/-- An instruction is well-formed, its word is a well-formed command word whose fields are those of the opcode table, the
word decodes back to it, and the unit the word is meant for, and only that unit, accepts it (R91 to R93). -/
def Statement (i : Instr) : Prop :=
  i.wf = true ∧ CommandWord.wf (encode i) = true ∧
    fieldRsv (encode i) = 0 ∧ fieldDir (encode i) = encodeDir i ∧ fieldAlpha (encode i) = encodeAlpha i ∧
    decode (encode i) = .ok i ∧ wordUnit (encode i) = i.unit ∧
    ∀ u, accepted u (encode i) = if i.unit = u then some i else none

theorem encStd : Statement .encStd := by
  refine ⟨rfl, by decide, by decide, by decide, by decide, by decide, by decide, fun u => by cases u <;> decide⟩

theorem encUrl : Statement .encUrl := by
  refine ⟨rfl, by decide, by decide, by decide, by decide, by decide, by decide, fun u => by cases u <;> decide⟩

theorem decStd : Statement .decStd := by
  refine ⟨rfl, by decide, by decide, by decide, by decide, by decide, by decide, fun u => by cases u <;> decide⟩

theorem decUrl : Statement .decUrl := by
  refine ⟨rfl, by decide, by decide, by decide, by decide, by decide, by decide, fun u => by cases u <;> decide⟩

theorem decMix : Statement .decMix := by
  refine ⟨rfl, by decide, by decide, by decide, by decide, by decide, by decide, fun u => by cases u <;> decide⟩

end Sys2Proof.Laws.Encoding
end

