-- ==== Sys2Proof/Tests/Slice0.lean ====
section
/-! SUPPORT. The model's own tests, and one witness for every obligation that has hypotheses. Expected results are those
of 95_test_vectors.md (V<n> and P<n> are its numbers, 2.x its sections) or are computed by hand from the rule named. -/

namespace Sys2Proof.Tests
set_option Elab.async false
open Sys2Proof.Machine

/-! ### Helpers -/

/-- A small machine: LENW 8, spaces of 200 bytes, residue as the reference leaves it. -/
def small : Params where
  lenW := 8
  srcSize := 200
  dstSize := 200
  urlPadKind := .ichr
  jointErr := .inOrder
  dstResidue := .reference
  pipeDepth := 4
  regBase := 0
  regStride := 1

/-- The small machine under `any_applicable`. -/
def smallAny : Params := { small with jointErr := .anyApplicable }

/-- A unit with source bytes, length and capacity set up by the host. -/
def loaded (p : Params) (src : List Byte) (cap : Nat) : CodecUnit :=
  { CodecUnit.reset p with src := Mem.writeBytes [] 0 src, srcLen := src.length, dstCap := cap }

/-- The ENC unit set up. -/
def encState (src : List Byte) (cap : Nat) : State := { State.resetWith small with enc := loaded small src cap }

/-- The DEC unit set up. -/
def decState (src : List Byte) (cap : Nat) : State := { State.resetWith small with dec := loaded small src cap }

/-- The next state's answer to a question, `none` where there is no next state. -/
def ask {α : Type} (o : Host.Outcome State Fault Refusal) (f : State → α) : Option α :=
  match o with
  | .next t => some (f t)
  | .fault _ => none
  | .refused _ => none

/-- Why an outcome stops, `none` where it goes on. -/
def stop (o : Host.Outcome State Fault Refusal) : Option (Fault ⊕ Refusal) :=
  match o with
  | .next _ => none
  | .fault r => some (.inl r)
  | .refused r => some (.inr r)

/-- STATUS, DST_LEN and the first `n` bytes of DST. -/
def seen (u : UnitId) (n : Nat) (t : State) : BitVec 8 × Nat × Option (List Byte) :=
  ((t.unit u).status, (t.unit u).dstLen, (t.unit u).dst.readBytes 0 n)

/-- "hello world". -/
def hello : List Byte := [0x68, 0x65, 0x6C, 0x6C, 0x6F, 0x20, 0x77, 0x6F, 0x72, 0x6C, 0x64]

/-- "aGVsbG8gd29ybGQ=". -/
def hello64 : List Byte :=
  [0x61, 0x47, 0x56, 0x73, 0x62, 0x47, 0x38, 0x67, 0x64, 0x32, 0x39, 0x79, 0x62, 0x47, 0x51, 0x3D]

/-! ### Well-formedness: an ill-formed term for each check -/

theorem test_wf_reserved_bits : CommandWord.reservedClear 0x08 = false ∧ CommandWord.wf 0x08 = false := by decide
theorem test_wf_selector : CommandWord.selectorKnown 0x07 = false ∧ CommandWord.wf 0x07 = false := by decide
theorem test_wf_encode_mixed : CommandWord.mixedOnlyDecodes 0x02 = false ∧ CommandWord.wf 0x02 = false := by decide
theorem test_wf_width : ({ small with lenW := 3, srcSize := 8, dstSize := 8 } : Params).wf = false := by decide
theorem test_wf_sizes : ({ small with srcSize := 257 } : Params).wf = false ∧
    ({ small with dstSize := 257 } : Params).wf = false := by decide
theorem test_wf_depth : ({ small with pipeDepth := 0 } : Params).wf = false := by decide
theorem test_wf_small : small.wf = true ∧ smallAny.wf = true := by decide

/-! ### Decoding: the words of R92 bit by bit, and the rejected words of R93 by name -/

theorem test_decode_encStd : decode 0b00000000 = .ok .encStd ∧ encode .encStd = 0x00 := by decide
theorem test_decode_encUrl : decode 0b00000001 = .ok .encUrl ∧ encode .encUrl = 0x01 := by decide
theorem test_decode_decStd : decode 0b00000100 = .ok .decStd ∧ encode .decStd = 0x04 := by decide
theorem test_decode_decUrl : decode 0b00000101 = .ok .decUrl ∧ encode .decUrl = 0x05 := by decide
theorem test_decode_decMix : decode 0b00000110 = .ok .decMix ∧ encode .decMix = 0x06 := by decide
theorem test_decode_rejected : decode 0b00000010 = .error .encodeMixed ∧ decode 0b00000011 = .error .reservedSelector ∧
    decode 0b00000111 = .error .reservedSelector ∧ decode 0b00001000 = .error .reservedBits ∧
    decode 0b10000000 = .error .reservedBits ∧ decodeBytes [] = .error .noWord := by decide

/-- R93 (d): a legal word written to the other unit is not accepted. -/
theorem test_decode_wrong_unit : accepted .enc 0x04 = none ∧ accepted .dec 0x00 = none ∧
    accepted .dec 0x05 = some .decUrl := by decide

/-! ### Tables and sizes (95_test_vectors.md 2.1, 2.2; LENW 8 of P5 and R141) -/

theorem test_tables : encTab .std 0 = 0x41 ∧ encTab .std 25 = 0x5A ∧ encTab .std 26 = 0x61 ∧ encTab .std 61 = 0x39 ∧
    encTab .std 62 = 0x2B ∧ encTab .std 63 = 0x2F ∧ encTab .url 62 = 0x2D ∧ encTab .url 63 = 0x5F ∧
    decTab .std 0x2D = none ∧ decTab .url 0x2B = none ∧ decTab .mix 0x5F = some 63 ∧ decTab .mix 0x3D = none := by
  decide
theorem test_sizes : decodedLength 15 = 11 ∧ decodedLength 16 = 12 ∧ encodedLength small 189 = some 252 ∧
    encodedLength small 190 = none ∧ pads 11 = 1 := by decide
theorem test_size_32_bits : encodedLength { small with lenW := 32 } 3221225469 = some 4294967292 ∧
    encodedLength { small with lenW := 32 } 3221225470 = none := by decide

/-! ### The instructions -/

/-- V1. -/
theorem test_encStd_hello : ask (exec .encStd (encState hello 17)) (seen .enc 17) =
    some (0x02, 16, some (hello64 ++ [0x00])) := by decide +kernel

/-- V5: one byte short, and nothing written. -/
theorem test_encStd_one_short : ask (exec .encStd (encState hello 16)) (fun t => (seen .enc 0 t, t.enc.dst)) =
    some ((0x52, 0, some []), []) := by decide +kernel

/-- R99, R162: bytes FB FF encode to "-_8", unpadded; the capacity asked for is that of the padded text. -/
theorem test_encUrl_tail : ask (exec .encUrl (encState [0xFB, 0xFF] 5)) (seen .enc 4) =
    some (0x02, 3, some [0x2D, 0x5F, 0x38, 0x00]) := by decide +kernel

/-- P5: 190 bytes overflow an 8-bit length. -/
theorem test_encUrl_overflow : ask (exec .encUrl { State.resetWith small with
    enc := { CodecUnit.reset small with srcLen := 190, dstCap := 200 } }) (seen .enc 0) = some (0x72, 0, some []) := by
  decide +kernel

/-- V2. -/
theorem test_decStd_hello : ask (exec .decStd (decState hello64 13)) (seen .dec 12) =
    some (0x02, 11, some (hello ++ [0x00])) := by decide +kernel

/-- V4, "invalid=+". -/
theorem test_decStd_length : ask (exec .decStd (decState [0x69, 0x6E, 0x76, 0x61, 0x6C, 0x69, 0x64, 0x3D, 0x2B] 7))
    (seen .dec 0) = some (0x22, 0, some []) := by decide +kernel

/-- R199: "-_8" gives FB FF. -/
theorem test_decUrl_tail : ask (exec .decUrl (decState [0x2D, 0x5F, 0x38] 3)) (seen .dec 3) =
    some (0x02, 2, some [0xFB, 0xFF, 0x00]) := by decide +kernel

/-- R187: a trailing pad is URL_PAD_KIND, here ICHR. -/
theorem test_decUrl_pad : ask (exec .decUrl (decState [0x51, 0x51, 0x3D, 0x3D] 4)) (seen .dec 0) =
    some (0x32, 0, some []) := by decide +kernel

/-- R200: the text 2D 2F 38 3D, symbols of both alphabets and a pad, gives FB FF. -/
theorem test_decMix_both : ask (exec .decMix (decState [0x2D, 0x2F, 0x38, 0x3D] 4)) (seen .dec 3) =
    some (0x02, 2, some [0xFB, 0xFF, 0x00]) := by decide +kernel

/-- R195: "QR" has non-zero unused bits. -/
theorem test_decMix_unused_bits : ask (exec .decMix (decState [0x51, 0x52] 2)) (seen .dec 0) =
    some (0x42, 0, some []) := by decide +kernel

/-- R201: the kinds "invalid=+" may be reported with, FMT and ICHR, exactly the pair the source allows (V4). -/
theorem test_applicable : applicable smallAny .std [0x69, 0x6E, 0x76, 0x61, 0x6C, 0x69, 0x64, 0x3D, 0x2B] 7 =
    [.fmt, .ichr] := by decide +kernel

/-- R68: a source byte below SRC_LEN that nothing has written. -/
theorem test_unwritten_source : stop (exec .encStd { State.resetWith small with
    enc := { CodecUnit.reset small with srcLen := 1, dstCap := 9 } }) = some (.inl (.unwrittenSource .enc)) := by
  decide +kernel

/-! ### The host, the units' own steps, reset -/

/-- The host's whole protocol for the one byte 66 (R220 to R226): write, issue, poll while the unit steps, collect
"Zg==" and the terminator. Nine steps: four writes, three that poll while the unit steps, one that sees DONE, one read. -/
theorem test_protocol : ask (Host.Core.run core 9 { State.resetWith small with moves :=
      [.writeMem .enc .src 0 [0x66], .write .enc .srcLen 1, .write .enc .dstCap 5, .issue .enc 0x00, .poll .enc,
       .readMem .enc .dst 0 5] }) (fun t => (t.replies, t.moves, t.enc.cmd)) =
    some ([.value 0x02, .bytes [0x5A, 0x67, 0x3D, 0x3D, 0x00]], [], 0x00) := by decide +kernel

/-- V1's second group: GRP, the sextets, OPOS and the characters after two steps. -/
theorem test_second_group : ask (issue .encStd (encState hello 17)) (fun t =>
      ask (unitSteps .enc 2 t) (fun v => v.encData.grp == 0x6C6F20 && v.encData.s1 == 6 && v.enc.hid.ipos == 6 &&
        v.enc.hid.opos == 8 && v.enc.status == 0x01 && v.enc.dst.readBytes 4 4 == some [0x62, 0x47, 0x38, 0x67])) =
    some (some true) := by decide +kernel

/-- R310: DST_LEN is not to be read while BUSY = 1. -/
theorem test_busy_read : ask (issue .encStd (encState hello 17)) (fun t =>
      stop (step { t with moves := [.read .enc .dstLen] })) = some (some (.inr (.hostAccessWhileBusy .enc))) := by
  decide +kernel

/-- R223: polling a unit in IDLE keeps no other unit from its steps. The DEC unit is in RUN, the host polls ENC: after
five steps of the machine (three groups, the tail, FINISH) DEC is DONE. -/
theorem test_poll_idle : ask (issue .decStd (decState hello64 13)) (fun t =>
      ask (machineSteps 5 { t with moves := [.poll .enc] }) (fun v =>
        (v.dec.status, v.dec.dst.readBytes 0 11, v.moves))) =
    some (some (0x02, some hello, [.poll .enc])) := by decide +kernel

/-- R220: a pseudo-operation on a busy unit waits while the unit steps. -/
theorem test_pseudo_waits : ask (issue .encStd (encState hello 17)) (fun t =>
      ask (step { t with moves := [.pseudo .encUrlA [0x66]] }) (fun v => (v.enc.hid.ipos, v.moves))) =
    some (some (3, [.pseudo .encUrlA [0x66]])) := by decide +kernel

/-- R228: the size overflows whatever the unit is doing. -/
theorem test_pseudo_overflow : ask (issue .encStd (encState hello 17)) (fun t =>
      ask (step { t with moves := [.pseudo .encUrlA (List.replicate 190 0x66)] }) (fun v =>
        (v.enc.hid.ipos, v.moves, v.replies))) =
    some (some (0, [], [.failure 7])) := by decide +kernel

/-- R228, R231: the buffer a successful pseudo-operation hands over for the byte 66. -/
theorem test_pseudo_collect : ask (exec .encStd (prepare .enc [0x66] 5 (State.resetWith small))) (fun t =>
      ((collect .enc 5 t).replies, (collect .enc 5 t).owned)) =
    some ([.success 4], [{ unit := .enc, size := 5, bytes := [0x5A, 0x67, 0x3D, 0x3D, 0x00] }]) := by decide +kernel

/-- R70, R192: "AAAAA!" under `reference`: ICHR, and the first group's bytes stay. -/
theorem test_reference_residue : ask (exec .decStd (decState [0x41, 0x41, 0x41, 0x41, 0x41, 0x21] 9)) (fun t =>
      (seen .dec 3 t, t.dec.dst.read 3)) = some ((0x32, 0, some [0, 0, 0]), none) := by decide +kernel

/-- R26 to R28: a read of CMD, SRC_LEN and DST_CAP returns the value last written. -/
theorem test_operand_reads : ask (Host.Core.run core 4 { State.resetWith small with moves :=
      [.write .dec .cmd 0xFF, .read .dec .cmd, .write .dec .srcLen 9, .read .dec .srcLen] }) (fun t => t.replies) =
    some [.value 0xFF, .value 9] := by decide +kernel

/-- R25: STATUS is read only, and a value of more than LENW bits cannot be written. -/
theorem test_register_refusals :
    stop (hostWrite .enc .status 0 (State.resetWith small)) = some (.inr (.readOnlyRegister .enc .status)) ∧
      stop (hostWrite .dec .srcLen 256 (State.resetWith small)) = some (.inr (.valueTooWide .dec .srcLen 256)) := by
  decide +kernel

/-- R38, R40: a cell that does not exist, and one that holds no value. -/
theorem test_memory_faults :
    stop (hostReadMem .enc .dst 199 2 (State.resetWith small)) = some (.inl (.noSuchCell .enc .dst 200)) ∧
      stop (hostReadMem .enc .dst 7 1 (State.resetWith small)) = some (.inl (.unwrittenRead .enc .dst 7)) := by
  decide +kernel

/-- R302: reset in the middle of an operation. -/
theorem test_reset_running : ask (issue .encStd (encState hello 17)) (fun t =>
      ask (step { t with moves := [.reset] }) (seen .enc 0)) = some (some (0x00, 0, some [])) := by decide +kernel

/-! ### Witnesses: for each obligation with hypotheses a state and operands that meet them -/

/-- Two outcomes that ask the same: there is a next state. -/
theorem next_of_ask {α : Type} {o : Host.Outcome State Fault Refusal} {f : State → α} {a : α} (h : ask o f = some a) :
    ∃ t, o = .next t ∧ f t = a := by
  cases o with
  | next t => exact ⟨t, rfl, by simpa [ask] using h⟩
  | fault r => cases h
  | refused r => cases h

/-- The ready encode of "hello world", the capacity at its least. -/
theorem witness_encReady : EncReady (encState hello 17) hello 16 :=
  ⟨by decide, by decide, by decide, by decide, by decide, by decide +kernel⟩

/-- The ready decode of its text, the capacity at its least; the text passes the checks of the command write. -/
theorem witness_decReady : DecReady (decState hello64 13) hello64 ∧ hello64.length % 4 ≠ 1 ∧
    padCheck .ichr .std hello64 = none ∧ decBytes .ichr .std hello64 = .ok hello ∧
    decBytes .ichr .mix hello64 = .ok hello :=
  ⟨⟨by decide, by decide, by decide, by decide, by decide +kernel⟩, by decide, by decide +kernel, by decide +kernel,
    by decide +kernel⟩

/-- DecUrlCompletes, IssueLoadsBody, DecodeSequencingAgrees: the ready decode of "-_8". -/
theorem witness_decUrl : DecReady (decState [0x2D, 0x5F, 0x38] 3) [0x2D, 0x5F, 0x38] ∧
    ([0x2D, 0x5F, 0x38] : List Byte).length % 4 ≠ 1 ∧ padCheck .ichr .url [0x2D, 0x5F, 0x38] = none ∧
    decBytes .ichr .url [0x2D, 0x5F, 0x38] = .ok [0xFB, 0xFF] ∧ Instr.decodeMode .decUrl = some .url :=
  ⟨⟨by decide, by decide, by decide, by decide, by decide +kernel⟩, by decide, by decide +kernel, by decide +kernel, rfl⟩

/-- OnlyTheFiveWordsDecode has none; DecodeTableInvertsEncodeTable, MixedTableIsUnion, NonSymbolsAreInvalid: a symbol
both tables accept, and a byte that is no symbol. -/
theorem witness_tables : decTab .std 0x41 = some 0 ∧ decTab .url 0x41 = some 0 ∧ (0x80 : Byte) ≤ 0xFF := by decide

/-- EncodedLengthExactOrOverflow, OverflowThreshold, SlackByteNeverWraps: the lengths on both sides of the boundary. -/
theorem witness_sizes : small.wf = true ∧ 189 ≤ 3 * 63 ∧ 3 * 63 < 189 + 3 ∧ 63 * 4 ≤ small.maxLen ∧
    190 ≤ small.maxLen ∧ 190 ≤ 3 * 64 ∧ 3 * 64 < 190 + 3 ∧ small.maxLen < 64 * 4 ∧
    encodedLength small 189 = some 252 := by decide

/-- EncodedLengthExactOrOverflow, EncodeFailuresInOrder (OVF): a length that overflows inside legal sizes. -/
theorem witness_overflow : encodedLength small 190 = none ∧ 190 ≤ small.srcSize ∧ (200 : Nat) ≤ small.dstSize := by
  decide

/-- EncodedTextLengths. -/
theorem witness_text_length : encodedLength small ([0x66] : List Byte).length = some 4 := by decide

/-- EncodedTextCharacters: a symbol and a pad in the last position. -/
theorem witness_text_character : (encText .std [0x66])[0]? = some 0x5A ∧ (encText .std [0x66])[3]? = some padSymbol := by
  decide +kernel

/-- CrossModeRejection: a text with a pad, one with a `+` and no pad, a URL-safe one with a `-`. -/
theorem witness_cross_mode : padSymbol ∈ encText .std [0x66] ∧ padSymbol ∉ encText .std [0xFB, 0xFF, 0xFF] ∧
    (0x2B : Byte) ∈ encText .std [0xFB, 0xFF, 0xFF] ∧ (0x2D : Byte) ∈ encText .url [0xFB, 0xFF, 0xFF] := by
  decide +kernel

/-- EncodingIsInjective: equal texts. -/
theorem witness_injective : encText .url [0x66] = encText .url [0x66] := rfl

/-- LengthBan: a text of length 1, and a unit set up with length 1 and the capacity at its least. -/
theorem witness_length_ban : ([0x41] : List Byte).length % 4 = 1 ∧ (decState [0x41] 1).dec.busy = false ∧
    decodedLength (decState [0x41] 1).dec.srcLen + 1 ≤ (decState [0x41] 1).dec.dstCap ∧
    (decState [0x41] 1).dec.srcLen % 4 = 1 ∧ (decState [0x41] 1).cfg.jointErr = .inOrder := by decide

/-- PaddingLegality: "====", "QQ=", "QQ=Q". -/
theorem witness_pads : 3 ≤ padCount [0x3D, 0x3D, 0x3D] ∧ 1 ≤ padCount [0x51, 0x51, 0x3D] ∧
    padCount [0x51, 0x51, 0x3D, 0x51] = 0 ∧ padSymbol ∈ bodyOf [0x51, 0x51, 0x3D, 0x51] := by decide +kernel

/-- InvalidSymbolIsIllegalCharacter: "AA!A". -/
theorem witness_invalid_symbol : padCheck .ichr .std [0x41, 0x41, 0x21, 0x41] = none ∧
    decTab .std 0x21 = none ∧ (0x21 : Byte) ∈ bodyOf [0x41, 0x41, 0x21, 0x41] := by decide +kernel

/-- UnusedBitsMustBeZero: "QR" and "QUJ". -/
theorem witness_unused_bits : padCheck .ichr .std [0x51, 0x52] = none ∧ (bodyOf [0x51, 0x52]).getLast? = some 0x52 ∧
    decTab .std 0x52 = some 17 ∧ (17 : Sextet).extractLsb' 0 4 ≠ 0 ∧ (∀ d ∈ bodyOf [0x51, 0x52], decTab .std d ≠ none) ∧
    (bodyOf [0x51, 0x55, 0x4A]).getLast? = some 0x4A ∧ decTab .std 0x4A = some 9 ∧
    (9 : Sextet).extractLsb' 0 2 ≠ 0 ∧ (∀ d ∈ bodyOf [0x51, 0x55, 0x4A], decTab .std d ≠ none) := by decide +kernel

/-- DecodedTextIsCanonical, DecodedResultLength: a text of each mode that decodes. -/
theorem witness_decodes : decBytes .fmt .std [0x51, 0x51, 0x3D, 0x3D] = .ok [0x41] ∧
    decBytes .fmt .url [0x51, 0x51] = .ok [0x41] ∧ decBytes .fmt .mix [0x2D, 0x2F, 0x38, 0x3D] = .ok [0xFB, 0xFF] := by
  decide +kernel

/-- EmptyInputSucceeds: capacity 1 and capacity 0, in either unit. -/
theorem witness_empty : (encState [] 1).enc.srcLen = 0 ∧ 1 ≤ (encState [] 1).enc.dstCap ∧
    (decState [] 0).dec.srcLen = 0 ∧ (decState [] 0).dec.dstCap = 0 := by decide

/-- EncodeFailuresInOrder: a length beyond SRC_SIZE, a capacity beyond DST_SIZE, a capacity one short. -/
theorem witness_encode_failures : small.srcSize < 201 ∧ (encState hello 201).cfg.dstSize < (encState hello 201).enc.dstCap ∧
    encodedLength small (encState hello 16).enc.srcLen = some 16 ∧ (encState hello 16).enc.dstCap < 16 + 1 := by decide

/-- DecodeFailuresInOrder: a capacity beyond DST_SIZE, one short, and a text that is rejected. -/
theorem witness_decode_failures : (decState hello64 201).cfg.dstSize < (decState hello64 201).dec.dstCap ∧
    (decState hello64 12).dec.dstCap < decodedLength (decState hello64 12).dec.srcLen + 1 ∧
    DecReady (decState [0x51, 0x52] 2) [0x51, 0x52] ∧ decBytes .ichr .std [0x51, 0x52] = .error .iseq :=
  ⟨by decide, by decide, ⟨by decide, by decide, by decide, by decide, by decide +kernel⟩, by decide +kernel⟩

/-- ReportedKindIsApplicable: under `any_applicable`, a text that is rejected and a capacity that is short. -/
theorem witness_any_applicable : ∃ s : State, s.cfg.jointErr = .anyApplicable ∧ s.dec.busy = false ∧
    s.dec.src.readBytes 0 s.dec.srcLen = some [0x51, 0x52] ∧ s.dec.srcLen ≤ s.cfg.srcSize ∧ s.dec.dstCap ≤ s.cfg.dstSize ∧
    s.dec.dstCap < decodedLength s.dec.srcLen + 1 ∧ decBytes s.cfg.urlPadKind .std [0x51, 0x52] = .error .iseq :=
  ⟨{ State.resetWith smallAny with dec := loaded smallAny [0x51, 0x52] 1 }, by decide, by decide, by decide +kernel,
    by decide, by decide, by decide, by decide +kernel⟩

/-- DecodeFrame: failures under `reference`: of the capacity, of the length, of the pads, and of a body group. -/
theorem witness_reference_failures : small.dstResidue = .reference ∧
    (∃ t, exec .decStd (decState hello64 12) = .next t ∧ t.dec.err = 5) ∧
    (∃ t, exec .decStd (decState [0x41] 1) = .next t ∧ t.dec.err = 2) ∧
    (padCheck .ichr .std [0x51, 0x51, 0x3D] ≠ none ∧ (decState [0x51, 0x51, 0x3D] 3).dec.src.readBytes 0 3 =
      some [0x51, 0x51, 0x3D] ∧ ∃ t, exec .decStd (decState [0x51, 0x51, 0x3D] 3) = .next t ∧ t.dec.err = 2) ∧
    DecReady (decState [0x51, 0x52] 2) [0x51, 0x52] ∧ padCheck .ichr .std [0x51, 0x52] = none :=
  ⟨rfl, next_of_ask (f := fun t => t.dec.err) (by decide +kernel),
    next_of_ask (f := fun t => t.dec.err) (by decide +kernel),
    ⟨by decide +kernel, by decide +kernel, next_of_ask (f := fun t => t.dec.err) (by decide +kernel)⟩,
    ⟨by decide, by decide, by decide, by decide, by decide +kernel⟩, by decide +kernel⟩

/-- ReportedKindIsApplicable, CodesOfEachInstruction, DecodeFrame: a decode that ends with a kind. -/
theorem witness_decode_fails : (decState [0x51, 0x52] 2).dec.src.readBytes 0 2 = some [0x51, 0x52] ∧
    ∃ t, exec .decStd (decState [0x51, 0x52] 2) = .next t ∧ t.dec.err = 4 :=
  ⟨by decide +kernel, next_of_ask (f := fun t => t.dec.err) (by decide +kernel)⟩

/-- CodesOfEachInstruction, EncodeFrame: an encode that succeeds, and one that fails. -/
theorem witness_encode_ends : (∃ t, exec .encStd (encState hello 17) = .next t ∧ t.enc.err = codeOk) ∧
    ∃ t, exec .encStd (encState hello 16) = .next t ∧ t.enc.err = 5 :=
  ⟨next_of_ask (f := fun t => t.enc.err) (by decide +kernel), next_of_ask (f := fun t => t.enc.err) (by decide +kernel)⟩

/-- DecodeFrame: a decode that succeeds under `reference`, and one that fails with CAP. -/
theorem witness_decode_ends : (∃ t, exec .decStd (decState hello64 13) = .next t ∧ t.dec.err = codeOk) ∧
    ∃ t, exec .decStd (decState hello64 12) = .next t ∧ t.dec.err = 5 :=
  ⟨next_of_ask (f := fun t => t.dec.err) (by decide +kernel), next_of_ask (f := fun t => t.dec.err) (by decide +kernel)⟩

/-- UnacceptedWordReportsIarg: a reserved word and a word of the other unit. -/
theorem witness_unaccepted : (∃ s : State, accepted .enc 0xFF = none ∧ s.enc.busy = false ∧
      s.moves = (if true then .issue .enc 0xFF else .write .enc .cmd (0xFF : Byte).toNat) :: []) ∧
    ∃ s : State, accepted .dec 0x01 = none ∧ s.dec.busy = false ∧
      s.moves = (if false then .issue .dec 0x01 else .write .dec .cmd (0x01 : Byte).toNat) :: [] :=
  ⟨⟨{ State.resetWith small with moves := [.issue .enc 0xFF] }, by decide, by decide, rfl⟩,
    ⟨{ State.resetWith small with moves := [.write .dec .cmd 1] }, by decide, by decide, by decide⟩⟩

/-- StepRunsDecodedCommand: a word that decodes, as the host's next move. -/
theorem witness_step : decode 0x06 = .ok .decMix ∧
    ((State.resetWith small).withFetchWord 8 0x06).moves = [.write .dec .cmd (0x06 : Byte).toNat] := by decide

/-- QuietMachineStays. -/
theorem witness_quiet : State.reset.moves = [] ∧ State.reset.enc.busy = false ∧ State.reset.dec.busy = false := by decide

/-- BusyUnitRefusesHost, EncoderGroupStep, RunningUnitReachesDone, UnitStepsCommute: a running encode with three bytes to
come, its ERR clear, its alphabet Standard. -/
theorem witness_running : ∃ t, issue .encStd (encState hello 17) = .next t ∧
    (t.enc.busy && t.enc.err == codeOk && t.enc.hid.ipos == 0 && t.enc.hid.n == 11 &&
      t.enc.hid.op.extractLsb' 0 2 == 0 && t.enc.src.readBytes 0 3 == some [0x68, 0x65, 0x6C]) = true :=
  next_of_ask (by decide +kernel)

/-- BusyUnitRefusesHost: the same with a host access pending. -/
theorem witness_busy : ∃ s : State, (s.unit .enc).busy = true ∧ s.moves = .writeMem .enc .src 0 [0x41] :: [] :=
  ⟨{ (encState hello 17).accept .enc 0x00 with moves := [.writeMem .enc .src 0 [0x41]] }, by decide, rfl⟩

/-- DecoderGroupStep: a running decode with four valid symbols to come. -/
theorem witness_running_decode : ∃ t, issue .decStd (decState hello64 13) = .next t ∧
    (t.dec.busy && t.dec.hid.ipos == 0 && t.decData.l == 15 &&
      t.dec.src.readBytes 0 4 == some [0x61, 0x47, 0x56, 0x73] &&
      ([0x61, 0x47, 0x56, 0x73] : List Byte).all (fun c => (decTab (opMode t.dec.hid.op) c).isSome)) = true :=
  next_of_ask (by decide +kernel)

/-- HostWritesOperandRegisters: the greatest value. -/
theorem witness_host_write : ∃ s : State, 255 ≤ s.cfg.maxLen ∧ s.enc.busy = false ∧ s.dec.busy = false ∧
    s.moves = .write .dec .dstCap 255 :: [] :=
  ⟨{ State.resetWith small with moves := [.write .dec .dstCap 255] }, by decide, by decide, by decide, rfl⟩

/-- HostWritesOperandRegisters: each of the three reads pending. -/
theorem witness_host_read : ∀ r ∈ [Reg.cmd, .srcLen, .dstCap], ∃ s : State, s.moves = .read .enc r :: [] :=
  fun r _ => ⟨{ State.resetWith small with moves := [.read .enc r] }, rfl⟩

/-- HostCollectsResult: a unit that has ended, with bytes to read. -/
theorem witness_collect : ∃ t, exec .encStd (encState hello 17) = .next t ∧
    (t.enc.isDone, decide (17 ≤ cells t.cfg .dst), (t.enc.dst.readBytes 0 17).isSome) = (true, true, true) :=
  next_of_ask (by decide +kernel)

/-- HostMemoryWriteReadsBack: the last cell. -/
theorem witness_memory_write : ∃ s : State, (s.unit .enc).busy = false ∧ 199 + ([0x41] : List Byte).length ≤ cells s.cfg .src ∧
    s.moves = .writeMem .enc .src 199 [0x41] :: [] ∧ ((s.unit .enc).space .src).wf :=
  ⟨{ State.resetWith small with moves := [.writeMem .enc .src 199 [0x41]] }, by decide, by decide, rfl, by decide⟩

/-- FailedIssueIsWholeOperation: an issue that fails a check. -/
theorem witness_failed_issue : ∃ t, issue .encStd (encState hello 16) = .next t ∧ t.enc.busy = false :=
  next_of_ask (f := fun t => t.enc.busy) (by decide +kernel)

/-- UnitStepsCommute, UnitStepKeepsBounds, ParametersNeverChange: enabled steps of both units from one state. -/
theorem witness_both_step : ∃ t, unitSteps .dec 0 { encState hello 17 with dec := loaded small hello64 13 } = .next t ∧
    ((ask (issue .encStd t) (fun v => ask (issue .decStd v) (fun w =>
      ((ask (encStep w) (fun _ => ())).isSome, (ask (decStep w) (fun _ => ())).isSome)))) = some (some (true, true))) :=
  ⟨_, rfl, by decide +kernel⟩

/-- ResultDependsOnOperandsOnly: two states that agree on the operands and differ in an earlier result and in a byte of
SRC beyond the length. -/
theorem witness_determinism :
    ∃ t, commandWrite .enc 0x00 (encState hello 17) = .next t ∧ t.enc.err = codeOk ∧
      ∀ a, a < 11 → (Mem.write (encState hello 17).enc.src 11 0x21).read a = (encState hello 17).enc.src.read a := by
  obtain ⟨t, h1, h2⟩ := next_of_ask (o := commandWrite .enc 0x00 (encState hello 17)) (f := fun t => t.enc.err)
    (a := codeOk) (by decide +kernel)
  exact ⟨t, h1, h2, by decide +kernel⟩

/-- The invariant of a state that the host has set up. -/
theorem witness_inv : Inv (encState hello 17) where
  cfg := by decide
  enc :=
    { srcSorted := by decide +kernel, dstSorted := by decide, srcExists := by decide +kernel, dstExists := by decide,
      srcLen := by decide, dstCap := by decide, dstLen := by decide, n := by decide, cap := by decide,
      ipos := by decide, opos := by decide, stages := by decide, code := by decide, quiet := fun _ => by decide,
      failed := fun _ => rfl, latched := fun h => by cases h }
  dec :=
    { srcSorted := by decide, dstSorted := by decide, srcExists := by decide, dstExists := by decide,
      srcLen := by decide, dstCap := by decide, dstLen := by decide, n := by decide, cap := by decide,
      ipos := by decide, opos := by decide, stages := by decide, code := by decide, quiet := fun _ => by decide,
      failed := fun _ => rfl, latched := fun h => by cases h }
  encRun := fun h => by cases h
  decRun := fun h => by cases h
  bodyLen := by decide

/-- RunningUnitReachesDone, UnitStepKeepsBounds: the invariant of a state with a running encode, whose step is enabled. -/
theorem witness_inv_running : Inv ((encState hello 17).accept .enc 0x00) ∧
    ((encState hello 17).accept .enc 0x00).enc.busy = true ∧
    ∃ t, encStep ((encState hello 17).accept .enc 0x00) = .next t ∧ t.enc.hid.opos = 4 := by
  refine ⟨witness_inv.of_enc rfl rfl rfl (CodecUnit.accept_inv witness_inv.enc (by decide) (by decide) ⟨hello, by decide +kernel⟩)
    (fun _ => ⟨by decide, ⟨16, by decide, by decide⟩, by decide, .inl (by decide), by decide⟩), by decide,
    next_of_ask (f := fun t => t.enc.hid.opos) (by decide +kernel)⟩

/-- RunningUnitReachesDone, UnitStepKeepsBounds: the same with a running decode. -/
theorem witness_inv_running_decode : ∃ s : State, Inv s ∧ s.dec.busy = true ∧
    ∃ t, decStep s = .next t ∧ t.dec.hid.opos = 3 := by
  have h : Inv (State.resetWith small) := witness_inv.of_enc rfl rfl rfl
    { srcSorted := by decide, dstSorted := by decide, srcExists := by decide, dstExists := by decide,
      srcLen := by decide, dstCap := by decide, dstLen := by decide, n := by decide, cap := by decide,
      ipos := by decide, opos := by decide, stages := by decide, code := by decide, quiet := fun _ => by decide,
      failed := fun _ => rfl, latched := fun h => by cases h } (fun h => by cases h)
  have hu : UnitInv small (loaded small hello64 13) :=
    { srcSorted := by decide +kernel, dstSorted := by decide, srcExists := by decide +kernel, dstExists := by decide,
      srcLen := by decide, dstCap := by decide, dstLen := by decide, n := by decide, cap := by decide,
      ipos := by decide, opos := by decide, stages := by decide, code := by decide, quiet := fun _ => by decide,
      failed := fun _ => rfl, latched := fun h => by cases h }
  refine ⟨((decState hello64 13).accept .dec 0x04).loadBody hello64, ?_, by decide,
    next_of_ask (f := fun t => t.dec.hid.opos) (by decide +kernel)⟩
  exact h.of_dec rfl rfl (CodecUnit.accept_inv hu (by decide) (by decide) ⟨hello64, by decide +kernel⟩)
    (fun _ => ⟨by decide, by decide, by decide +kernel, by decide, .inl (by decide), by decide⟩) (by decide +kernel)

/-- RunningUnitReachesDone: a running encode with nothing pending, polled, behind a poll of the other unit in IDLE, and
with a pseudo-operation waiting for it. -/
theorem witness_waits (ms : List Move)
    (h : ms = [] ∨ ms = [.poll .enc] ∨ ms = [.poll .dec] ∨ ms = [.pseudo .encStdA [0x66]]) :
    ∃ s : State, s.moves = ms ∧ Inv s ∧ (s.unit .enc).busy = true ∧ WaitsFor .enc s := by
  refine ⟨{ (encState hello 17).accept .enc 0x00 with moves := ms }, rfl,
    witness_inv_running.1.of_enc rfl rfl rfl witness_inv_running.1.enc witness_inv_running.1.encRun, rfl, ?_⟩
  rcases h with rfl | rfl | rfl | rfl
  · exact .inl rfl
  · exact .inr (.inl ⟨.enc, [], rfl, .inl rfl⟩)
  · exact .inr (.inl ⟨.dec, [], rfl, .inr rfl⟩)
  · exact .inr (.inr ⟨.encStdA, [0x66], [], rfl, rfl, by decide, by decide⟩)

/-- PseudoOperationsAnswer: pending on a free unit, on a busy unit, and with a size that overflows. -/
theorem witness_pseudo :
    (∃ s : State, s.moves = .pseudo .encStdA [0x66] :: [] ∧ (s.unit (Pseudo.instr .encStdA).unit).busy = false ∧
      ([0x66] : List Byte).length ≤ s.cfg.maxLen ∧ Pseudo.size .encStdA s.cfg 1 = some 4 ∧
      1 ≤ s.cfg.srcSize ∧ 4 + 1 ≤ s.cfg.dstSize) ∧
    (∃ s : State, s.moves = .pseudo .decMixA [0x66] :: [] ∧ (s.unit (Pseudo.instr .decMixA).unit).busy = true ∧
      ([0x66] : List Byte).length ≤ s.cfg.maxLen ∧ Pseudo.size .decMixA s.cfg 1 = some 0) ∧
    ∃ s : State, s.moves = .pseudo .encUrlA (List.replicate 190 0x66) :: [] ∧
      (List.replicate 190 (0x66 : Byte)).length ≤ s.cfg.maxLen ∧ Pseudo.size .encUrlA s.cfg 190 = none :=
  ⟨⟨{ State.resetWith small with moves := [.pseudo .encStdA [0x66]] }, rfl, by decide, by decide, by decide, by decide,
      by decide⟩,
    ⟨{ (decState hello64 13).accept .dec 0x04 with moves := [.pseudo .decMixA [0x66]] }, rfl, by decide, by decide,
      by decide⟩,
    ⟨{ State.resetWith small with moves := [.pseudo .encUrlA (List.replicate 190 0x66)] }, rfl, by decide +kernel,
      by decide +kernel⟩⟩

/-- ResetAtAnyTime, StepKeepsInvariant: a step from the reset state, with a reset pending. -/
theorem witness_reset_step : ∃ t, step { State.reset with moves := [.reset] } = .next t ∧ t.moves = [] :=
  ⟨_, rfl, rfl⟩

end Sys2Proof.Tests
end

section
/-! The two views of one group (R95), for O11. The bytes and the sextets are slices of the same 24 bits: a slice of a
byte or a sextet is a slice of the group, and adjacent slices of the group join. -/

namespace Sys2Proof.Machine

/-- A slice of a slice is a slice of the whole, for any offset of the outer one (the library has offset 0 only). -/
theorem slice_of_slice {w : Nat} (x : BitVec w) (a b : Nat) {n m : Nat} (h : b + m ≤ n) :
    (x.extractLsb' a n).extractLsb' b m = x.extractLsb' (a + b) m := by
  ext i hi
  have hin : b + i < n := by omega
  simp [hin, Nat.add_assoc]

/-! ### The sextets of a group, from its bytes -/

theorem sextet0_eq_byte_slice (g : Group) : sextet0 g = (byte0 g).extractLsb' 2 6 :=
  (slice_of_slice g 16 2 (by decide)).symm

theorem sextet1_eq_byte_slices (g : Group) :
    sextet1 g = (byte0 g).extractLsb' 0 2 ++ (byte1 g).extractLsb' 4 4 := by
  rw [sextet1, byte0, byte1, slice_of_slice _ _ _ (by decide), slice_of_slice _ _ _ (by decide),
    BitVec.extractLsb'_append_extractLsb'_eq_extractLsb' (by decide)]

theorem sextet2_eq_byte_slices (g : Group) :
    sextet2 g = (byte1 g).extractLsb' 0 4 ++ (byte2 g).extractLsb' 6 2 := by
  rw [sextet2, byte1, byte2, slice_of_slice _ _ _ (by decide), slice_of_slice _ _ _ (by decide),
    BitVec.extractLsb'_append_extractLsb'_eq_extractLsb' (by decide)]

theorem sextet3_eq_byte_slice (g : Group) : sextet3 g = (byte2 g).extractLsb' 0 6 :=
  (slice_of_slice g 0 0 (by decide)).symm

/-! ### The bytes of a group, from its sextets -/

theorem byte0_eq_sextet_slices (g : Group) : byte0 g = sextet0 g ++ (sextet1 g).extractLsb' 4 2 := by
  rw [byte0, sextet0, sextet1, slice_of_slice _ _ _ (by decide),
    BitVec.extractLsb'_append_extractLsb'_eq_extractLsb' (by decide)]

theorem byte1_eq_sextet_slices (g : Group) :
    byte1 g = (sextet1 g).extractLsb' 0 4 ++ (sextet2 g).extractLsb' 2 4 := by
  rw [byte1, sextet1, sextet2, slice_of_slice _ _ _ (by decide), slice_of_slice _ _ _ (by decide),
    BitVec.extractLsb'_append_extractLsb'_eq_extractLsb' (by decide)]

theorem byte2_eq_sextet_slices (g : Group) : byte2 g = (sextet2 g).extractLsb' 0 2 ++ sextet3 g := by
  rw [byte2, sextet2, sextet3, slice_of_slice _ _ _ (by decide),
    BitVec.extractLsb'_append_extractLsb'_eq_extractLsb' (by decide)]

/-- Settles O11: the slices hold of every group, and a packed group gives back what it was packed from. -/
theorem groupViewsAgree : Obligations.GroupViewsAgree := by
  unfold Obligations.GroupViewsAgree
  constructor
  · intro b0 b1 b2 g
    refine ⟨?_, ?_, ?_, ?_, packSextets_sextets g⟩
    · simp [g, sextet0_eq_byte_slice]
    · simp [g, sextet1_eq_byte_slices]
    · simp [g, sextet2_eq_byte_slices]
    · simp [g, sextet3_eq_byte_slice]
  · intro s0 s1 s2 s3 g
    refine ⟨?_, ?_, ?_, packBytes_bytes g⟩
    · simp [g, byte0_eq_sextet_slices]
    · simp [g, byte1_eq_sextet_slices]
    · simp [g, byte2_eq_sextet_slices]

end Sys2Proof.Machine
end

section
/-! The Mixed table as the union of the other two (R125), for O5. Each table is read through the encode tables it
inverts, so that what the Mixed table accepts is what one of the other two accepts, with the same value. -/

namespace Sys2Proof.Machine

theorem decTab_std_eq_some_iff (c : Byte) (v : Sextet) : decTab .std c = some v ↔ encTab .std v = c :=
  ⟨encTab_of_decTab_std c v, fun h => h ▸ decTab_encTab_std v⟩

theorem decTab_url_eq_some_iff (c : Byte) (v : Sextet) : decTab .url c = some v ↔ encTab .url v = c :=
  ⟨encTab_of_decTab_url c v, fun h => h ▸ decTab_encTab_url v⟩

/-- The union as a relation. From left to right, `-` and `_` are in the URL-safe table and every other accepted byte in
the Standard one. -/
theorem decTab_mix_eq_some_iff (c : Byte) (v : Sextet) :
    decTab .mix c = some v ↔ decTab .std c = some v ∨ decTab .url c = some v := by
  constructor
  · intro h
    have henc := encTab_of_decTab_mix c v h
    split_ifs at henc with hminus hunder
    · subst hminus
      exact .inr h
    · subst hunder
      exact .inr h
    · exact .inl ((decTab_std_eq_some_iff c v).2 henc)
  · rintro (h | h)
    · exact encTab_of_decTab_std c v h ▸ decTab_mix_encTab_std v
    · exact encTab_of_decTab_url c v h ▸ decTab_mix_encTab_url v

theorem decTab_mix_of_std_some {c : Byte} {v : Sextet} (h : decTab .std c = some v) : decTab .mix c = some v :=
  (decTab_mix_eq_some_iff c v).2 (.inl h)

/-- A byte both alphabets accept has one value: the one the Mixed table gives it. -/
theorem decTab_std_url_agree (c : Byte) (v w : Sextet) (hstd : decTab .std c = some v)
    (hurl : decTab .url c = some w) : v = w := by
  have hv := decTab_mix_of_std_some hstd
  have hw := (decTab_mix_eq_some_iff c w).2 (.inr hurl)
  exact Option.some.inj (hv.symm.trans hw)

theorem decTab_mix_of_std_none {c : Byte} (h : decTab .std c = none) : decTab .mix c = decTab .url c := by
  ext v
  simp [decTab_mix_eq_some_iff, h]

/-- The bytes the Mixed table reads as `v` are the characters of `v` in the two alphabets. -/
theorem decTab_mix_eq_some_iff_encTab (c : Byte) (v : Sextet) :
    decTab .mix c = some v ↔ c = encTab .std v ∨ c = encTab .url v := by
  rw [decTab_mix_eq_some_iff, decTab_std_eq_some_iff, decTab_url_eq_some_iff, eq_comm (b := c), eq_comm (b := c)]

/-- The 62 common symbols and `+`, `-`, `/`, `_`. -/
theorem length_filter_decTab_mix_isSome :
    ((List.range 256).filter (fun n => (decTab .mix (BitVec.ofNat 8 n)).isSome)).length = 66 := by decide +kernel

/-- Settles O5: the Mixed table accepts what either alphabet accepts, with the value that alphabet gives. -/
theorem mixedTableIsUnion : Obligations.MixedTableIsUnion := by
  unfold Obligations.MixedTableIsUnion
  intro c
  refine ⟨?_, decTab_std_url_agree c, ?_, ?_, length_filter_decTab_mix_isSome⟩
  · cases hstd : decTab .std c with
    | some v => exact decTab_mix_of_std_some hstd
    | none => exact decTab_mix_of_std_none hstd
  · exact decTab_mix_eq_some_iff_encTab c 62
  · exact decTab_mix_eq_some_iff_encTab c 63

end Sys2Proof.Machine
end

section
/-! The size calculator (R140, R143), for O7 and O9. The overflow signal is read off the size alone, and an encode of
either alphabet that fails a check of its command write ends with the kind of that check. -/

namespace Sys2Proof.Machine

/-! ### `encoded_length` -/

theorem encodedLength_eq_none_iff (p : Params) (n : Nat) :
    encodedLength p n = none ↔ p.maxLen < (n + 2) / 3 * 4 := by
  simp [encodedLength]

theorem encodedLength_of_le {p : Params} {n : Nat} (h : (n + 2) / 3 * 4 ≤ p.maxLen) :
    encodedLength p n = some ((n + 2) / 3 * 4) :=
  if_neg (Nat.not_lt.2 h)

/-- The model's rounding up is `ceil(n/3)`: the only `q` with `n ≤ 3q < n + 3`. -/
theorem add_two_div_three_eq {n q : Nat} (hle : n ≤ 3 * q) (hlt : 3 * q < n + 3) : (n + 2) / 3 = q := by omega

/-! ### An encode that meets the signal -/

/-- An encode instruction that fails a check of its command write reports the kind of the check (R152, R153, R156). -/
theorem exec_failedWith_of_encCheck {i : Instr} {s : State} {k : ErrKind} (hi : i.unit = .enc)
    (hfree : s.enc.busy = false) (hk : encCheck s.cfg (s.enc.accept s.cfg (encode i)) = some k) :
    ∃ t, exec i s = .next t ∧ FailedWith t.enc k := by
  rcases exec_cases i s with ⟨a, -, hrun, -⟩ | ⟨m, hdec, -, -⟩
  · exact ⟨_, hrun.trans (runEncode_of_check hfree hk a), State.raise_failedWith _ .enc k⟩
  · rw [hi] at hdec
    cases hdec

/-- Operands that fit their spaces pass the IARG check, so the overflow signal is what the command write meets (R153). -/
theorem encCheck_accept_eq_ovf {p : Params} {x : CodecUnit} (w : Byte) (hsrc : x.srcLen ≤ p.srcSize)
    (hdst : x.dstCap ≤ p.dstSize) (hovf : encodedLength p x.srcLen = none) :
    encCheck p (x.accept p w) = some .ovf := by
  have hfit : ¬(p.srcSize < x.srcLen ∨ p.dstSize < x.dstCap) := by omega
  simp [encCheck_accept, hfit, hovf]

/-- Settles O7: the size is exact up to MAXLEN, and the signal is the second check of the command write. -/
theorem encodedLengthExactOrOverflow : Obligations.EncodedLengthExactOrOverflow := by
  unfold Obligations.EncodedLengthExactOrOverflow
  constructor
  · intro p n q _ hle hlt
    obtain rfl := add_two_div_three_eq hle hlt
    exact ⟨encodedLength_of_le, (encodedLength_eq_none_iff p n).2⟩
  · intro i s hi hfree hsrc hdst hovf
    exact exec_failedWith_of_encCheck hi hfree (encCheck_accept_eq_ovf (encode i) hsrc hdst hovf)

/-! ### `decoded_length` -/

/-- The two inequalities of `floor(m*3/4)` determine the value. -/
theorem decodedLength_eq_iff (m d : Nat) : decodedLength m = d ↔ 4 * d ≤ m * 3 ∧ m * 3 < 4 * d + 4 := by
  unfold decodedLength
  omega

/-- Settles O9: the floor, and with it the bound, as three quarters of `m` are at most `m`. -/
theorem decodedLengthExact : Obligations.DecodedLengthExact := by
  unfold Obligations.DecodedLengthExact
  intro m
  obtain ⟨hle, hlt⟩ := (decodedLength_eq_iff m (decodedLength m)).1 rfl
  exact ⟨hle, hlt, by omega⟩

end Sys2Proof.Machine
end

section
/-! Empty input (R166, R205), for O30. An operation on no bytes puts nothing, so its end writes only the terminator; with
no room for that, CAP is the one check that fails, whichever failing check a decode reports. -/

namespace Sys2Proof.Machine

/-! ### The end of an empty result -/

/-- An empty result that is finished has length 0 and its terminator at index 0 (R69, R271). -/
theorem finish_putResult_nil (s : State) (u : UnitId) :
    Succeeded (((s.putResult u []).finish u).unit u) 0 ∧
      (((s.putResult u []).finish u).unit u).dst.read 0 = some 0x00 := by
  constructor
  · simpa using State.finish_succeeded (s.putResult u []) u
  · obtain ⟨-, hread⟩ := Mem.readBytes_eq_some.1 (finish_putResult_reads s u [])
    exact hread 0 (by decide)

/-! ### The encoder -/

/-- An encode of no bytes is ready at any capacity that holds the terminator (R166). -/
theorem encReady_of_srcLen_zero {s : State} (hfree : s.enc.busy = false) (hempty : s.enc.srcLen = 0)
    (hdst : s.enc.dstCap ≤ s.cfg.dstSize) (hcap : 1 ≤ s.enc.dstCap) : EncReady s [] 0 where
  free := hfree
  srcFits := by omega
  dstFits := hdst
  size := by rw [hempty, encodedLength_zero]
  room := by omega
  written := by rw [hempty]; rfl

/-- Operands that fit their spaces, with a capacity below `encoded_length + 1`, fail the CAP check (R156). -/
theorem encCheck_accept_eq_cap {p : Params} {x : CodecUnit} {e : Nat} (w : Byte) (hsrc : x.srcLen ≤ p.srcSize)
    (hdst : x.dstCap ≤ p.dstSize) (hsize : encodedLength p x.srcLen = some e) (hshort : x.dstCap < e + 1) :
    encCheck p (x.accept p w) = some .cap := by
  have hfit : ¬(p.srcSize < x.srcLen ∨ p.dstSize < x.dstCap) := by omega
  simp [encCheck_accept, hfit, hsize, hshort]

/-! ### The decoder -/

theorem decodedLength_zero : decodedLength 0 = 0 := rfl

/-- A decode of no bytes is ready at any capacity that holds the terminator (R205). -/
theorem decReady_of_srcLen_zero {s : State} (hfree : s.dec.busy = false) (hempty : s.dec.srcLen = 0)
    (hdst : s.dec.dstCap ≤ s.cfg.dstSize) (hcap : 1 ≤ s.dec.dstCap) : DecReady s [] where
  free := hfree
  srcFits := by omega
  dstFits := hdst
  room := by rw [hempty, decodedLength_zero]; omega
  written := by rw [hempty]; rfl

theorem decBytes_nil (k : UrlPadKind) (m : Mode) : decBytes k m [] = .ok [] := by cases m <;> rfl

/-- Operands that fit their spaces, with a capacity below `decoded_length + 1`: CAP is the first failing check (R184). -/
theorem runDecode_of_short {s : State} (hfree : s.dec.busy = false) (hsrc : s.dec.srcLen ≤ s.cfg.srcSize)
    (hdst : s.dec.dstCap ≤ s.cfg.dstSize) (hshort : s.dec.dstCap < decodedLength s.dec.srcLen + 1) (m : Mode)
    (i : Instr) : runDecode m i s = decFail m .cap (s.accept .dec (encode i)) := by
  have hfit : ¬(s.cfg.srcSize < s.dec.srcLen ∨ s.cfg.dstSize < s.dec.dstCap) := by omega
  simp [runDecode, decStart, hfree, badSizes_accept, hfit, hshort]

/-- The empty text at capacity 0 violates the CAP check and no other. -/
theorem applicable_nil_zero (p : Params) (m : Mode) : applicable p m [] 0 = [.cap] := by cases m <;> rfl

theorem pickKind_singleton (k first : ErrKind) (d : Nat) : pickKind [k] first d = k := by
  simp [pickKind, Nat.mod_one]

/-- A failing decode of no bytes at capacity 0 raises CAP under either policy (R201). -/
theorem decFail_cap_of_empty {s : State} (hn : s.dec.hid.n = 0) (hcap : s.dec.hid.cap = 0) (m : Mode) :
    decFail m .cap s = .next (s.raise .dec .cap) := by
  have hread : sourceBytes s.dec = some [] := by rw [sourceBytes, hn]; rfl
  rcases decFail_cases m .cap s with ⟨-, hnone, -⟩ | ⟨k, hnext, ⟨-, rfl⟩ | ⟨-, t, ht, rfl⟩⟩
  · rw [hread] at hnone
    cases hnone
  · exact hnext
  · obtain rfl : [] = t := Option.some.inj (hread.symm.trans ht)
    rwa [hcap, applicable_nil_zero, pickKind_singleton] at hnext

/-! ### The five instructions -/

/-- At a capacity of at least 1, every instruction on no bytes finishes an empty result. -/
theorem exec_empty_of_one_le {i : Instr} {s : State} (hfree : (s.unit i.unit).busy = false)
    (hempty : (s.unit i.unit).srcLen = 0) (hdst : (s.unit i.unit).dstCap ≤ s.cfg.dstSize)
    (hcap : 1 ≤ (s.unit i.unit).dstCap) :
    ∃ s1 : State, exec i s = .next ((s1.putResult i.unit []).finish i.unit) := by
  rcases exec_cases i s with ⟨a, hu, hrun, -⟩ | ⟨m, hu, hrun, -⟩ <;> rw [hu] at hfree hempty hdst hcap ⊢ <;>
    rw [hrun]
  · exact ⟨_, runEncode_of_ready (encReady_of_srcLen_zero hfree hempty hdst hcap) a i⟩
  · exact ⟨_, runDecode_of_ok (decReady_of_srcLen_zero hfree hempty hdst hcap) (decBytes_nil _ m) i⟩

/-- At capacity 0, every instruction on no bytes raises CAP, as the terminator has no room (R156, R184). -/
theorem exec_empty_of_cap_zero {i : Instr} {s : State} (hfree : (s.unit i.unit).busy = false)
    (hempty : (s.unit i.unit).srcLen = 0) (hcap : (s.unit i.unit).dstCap = 0) :
    exec i s = .next ((s.accept i.unit (encode i)).raise i.unit .cap) := by
  rcases exec_cases i s with ⟨a, hu, hrun, -⟩ | ⟨m, hu, hrun, -⟩ <;> rw [hu] at hfree hempty hcap ⊢ <;> rw [hrun]
  · simp only [State.unit_enc] at hempty hcap
    have hsize : encodedLength s.cfg s.enc.srcLen = some 0 := by rw [hempty, encodedLength_zero]
    exact runEncode_of_check hfree (encCheck_accept_eq_cap _ (by omega) (by omega) hsize (by omega)) a
  · simp only [State.unit_dec] at hempty hcap
    rw [runDecode_of_short hfree (by omega) (by omega) (by omega)]
    exact decFail_cap_of_empty hempty hcap m

/-- Settles O30: with room for the terminator the empty result is finished, and without it CAP is raised. -/
theorem emptyInputSucceeds : Obligations.EmptyInputSucceeds := by
  unfold Obligations.EmptyInputSucceeds
  intro i s hfree hempty hdst
  constructor
  · intro hcap
    obtain ⟨s1, hrun⟩ := exec_empty_of_one_le hfree hempty hdst hcap
    exact ⟨_, hrun, finish_putResult_nil s1 i.unit⟩
  · intro hcap
    exact ⟨_, exec_empty_of_cap_zero hfree hempty hcap, State.raise_failedWith _ i.unit .cap⟩

end Sys2Proof.Machine
end

section
/-! `dec_bytes` on encoded text (R240, R241, R247), for O12, O14 and O15. The text of either alphabet passes the length
and pad checks, and its body decodes under every table that inverts the alphabet, the Mixed one among them. -/

namespace Sys2Proof.Machine

/-! ### The lengths of a text -/

/-- No text has a length that is 1 modulo 4: the pads left out of a URL-safe text are at most two (R247). -/
theorem length_encText_mod_ne_one (a : Alphabet) (b : List Byte) : (encText a b).length % 4 ≠ 1 := by
  have hpads := pads_le b.length
  cases a with
  | std => rw [length_encText_std]; omega
  | url => rw [length_encText_url]; omega

/-- Settles O12: the lengths of the two texts, the size being the number of groups times 4. -/
theorem encodedTextLengths : Obligations.EncodedTextLengths := by
  unfold Obligations.EncodedTextLengths
  intro p b e he
  obtain ⟨rfl, -⟩ := encodedLength_some he
  have hpads : pads b.length ≤ (b.length + 2) / 3 * 4 := by unfold pads; omega
  have hmod := length_encText_mod_ne_one .url b
  exact ⟨length_encText_std b, by omega, length_encText_url b, hpads, by omega⟩

/-! ### The checks before the body -/

/-- A Standard text has at most two pads and a length that is a multiple of 4, as STD and MIX ask (R187). -/
theorem padCheck_encText_std (k : UrlPadKind) {m : Mode} (hm : m ≠ .url) (b : List Byte) :
    padCheck k m (encText .std b) = none := by
  have hmod : (encText .std b).length % 4 = 0 := by rw [length_encText_std]; omega
  exact (padCheck_none_iff k m _).2
    ⟨fun h => absurd h hm, fun _ => ⟨(padCount_encText_std b).le.trans (pads_le _), .inr hmod⟩⟩

/-- A URL-safe text has no pad, so the pad check of every mode passes (R187). -/
theorem padCheck_encText_url (k : UrlPadKind) (m : Mode) (b : List Byte) :
    padCheck k m (encText .url b) = none := by
  simp [padCheck_none_iff, padCount_encText_url]

/-! ### The round trip -/

/-- A text that passes the checks decodes to its bytes under every table that inverts its alphabet. -/
theorem decBytes_encText {k : UrlPadKind} {m : Mode} {a : Alphabet} (hinv : ∀ s, decTab m (encTab a s) = some s)
    {b : List Byte} (hpad : padCheck k m (encText a b) = none) : decBytes k m (encText a b) = .ok b := by
  have hbody : decBody (decTab m) (bodyOf (encText a b)) = (b, none) := by
    rw [bodyOf_encText]
    exact decBody_sextetsOf (decTab m) (encTab a) hinv b
  rw [decBytes_eq k m _ (length_encText_mod_ne_one a b) hpad, ← decBody_kind, hbody]

/-- Settles O14: the Standard and the URL-safe table invert their alphabets. -/
theorem decodeInvertsEncode : Obligations.DecodeInvertsEncode := by
  unfold Obligations.DecodeInvertsEncode
  intro k b
  exact ⟨decBytes_encText decTab_encTab_std (padCheck_encText_std k (by decide) b),
    decBytes_encText decTab_encTab_url (padCheck_encText_url k .url b)⟩

/-- Settles O15: the Mixed table inverts both alphabets. -/
theorem mixedDecodesBothAlphabets : Obligations.MixedDecodesBothAlphabets := by
  unfold Obligations.MixedDecodesBothAlphabets
  intro k a b
  cases a with
  | std => exact decBytes_encText decTab_mix_encTab_std (padCheck_encText_std k (by decide) b)
  | url => exact decBytes_encText decTab_mix_encTab_url (padCheck_encText_url k .mix b)

end Sys2Proof.Machine
end

section
/-! The kinds `dec_bytes` fails with, one lemma for each check in the order of R181 (length, pads, symbols), for O16 and
O19. -/

namespace Sys2Proof.Machine

/-! ### The checks of `dec_bytes` that fail -/

/-- The first check: a length that is 1 modulo 4 (R186). -/
theorem decBytes_of_banned_length (k : UrlPadKind) (m : Mode) {t : List Byte} (hlen : t.length % 4 = 1) :
    decBytes k m t = .error .fmt := by
  simp [decBytes, lengthBanned, hlen]

/-- The second check: the trailing pads (R187). -/
theorem decBytes_of_padCheck {k : UrlPadKind} {m : Mode} {t : List Byte} {e : ErrKind} (hlen : t.length % 4 ≠ 1)
    (hpad : padCheck k m t = some e) : decBytes k m t = .error e := by
  simp [decBytes, lengthBanned, hlen, hpad]

/-- Where the pads are FMT the length need not be known, as its own check gives FMT too. -/
theorem decBytes_of_padCheck_fmt {k : UrlPadKind} {m : Mode} {t : List Byte} (hpad : padCheck k m t = some .fmt) :
    decBytes k m t = .error .fmt := by
  by_cases hlen : t.length % 4 = 1
  · exact decBytes_of_banned_length k m hlen
  · exact decBytes_of_padCheck hlen hpad

/-- The third check: a body symbol that the table of the mode does not hold, wherever it stands (R188). -/
theorem decBytes_of_invalid_symbol {k : UrlPadKind} {m : Mode} {t : List Byte} (hlen : t.length % 4 ≠ 1)
    (hpad : padCheck k m t = none) {c : Byte} (hc : c ∈ bodyOf t) (hinvalid : decTab m c = none) :
    decBytes k m t = .error .ichr := by
  have hlookup : lookupAll (decTab m) (bodyOf t) = none := lookupAll_eq_none.2 ⟨c, hc, hinvalid⟩
  rw [decBytes_eq k m t hlen hpad, bodyKind, hlookup]

/-! ### Where the symbols of a text stand -/

theorem mem_iff_mem_bodyOf_or_pad (t : List Byte) (c : Byte) :
    c ∈ t ↔ c ∈ bodyOf t ∨ (padCount t ≠ 0 ∧ c = padSymbol) := by
  conv_lhs => rw [← bodyOf_append_pads t]
  rw [List.mem_append, List.mem_replicate]

/-- A pad in an encoded text is a trailing one, as its body is symbols (R164). -/
theorem padSymbol_mem_encText_iff (a : Alphabet) (b : List Byte) :
    padSymbol ∈ encText a b ↔ padCount (encText a b) ≠ 0 := by
  have hbody : padSymbol ∉ bodyOf (encText a b) := by
    rw [bodyOf_encText]
    exact fun h => map_encTab_ne_pad a _ _ h rfl
  simp [mem_iff_mem_bodyOf_or_pad (encText a b), hbody]

/-! ### Cross-mode rejection -/

/-- An encoded text whose pads pass, with a symbol that the table of the mode does not hold, fails with ICHR. -/
theorem decBytes_encText_of_foreign_symbol {k : UrlPadKind} {m : Mode} {a : Alphabet} {b : List Byte}
    (hpad : padCheck k m (encText a b) = none) {c : Byte} (hc : c ∈ encText a b) (hne : c ≠ padSymbol)
    (hforeign : decTab m c = none) : decBytes k m (encText a b) = .error .ichr := by
  have hbody : c ∈ bodyOf (encText a b) := by simpa [hne] using (mem_iff_mem_bodyOf_or_pad _ c).1 hc
  exact decBytes_of_invalid_symbol (length_encText_mod_ne_one a b) hpad hbody hforeign

/-- Settles O16: a pad of a Standard text is trailing and meets the pad check of URL mode; in a text whose pads pass, `+`,
`/`, `-` and `_` stand in the body and are INVALID in the other table. -/
theorem crossModeRejection : Obligations.CrossModeRejection := by
  unfold Obligations.CrossModeRejection
  intro k b
  refine ⟨fun hpad => ?_, fun hnopad hsym => ?_, fun hsym => ?_⟩
  · have hcount : 1 ≤ padCount (encText .std b) := Nat.one_le_iff_ne_zero.2 ((padSymbol_mem_encText_iff _ b).1 hpad)
    exact decBytes_of_padCheck (length_encText_mod_ne_one .std b) (if_pos hcount)
  · have hcount : padCount (encText .std b) = 0 := by simpa [padSymbol_mem_encText_iff] using hnopad
    have hcheck : padCheck k .url (encText .std b) = none := by simp [padCheck_none_iff, hcount]
    rcases hsym with h | h <;>
      exact decBytes_encText_of_foreign_symbol hcheck h (by decide) (by decide)
  · rcases hsym with h | h <;>
      exact decBytes_encText_of_foreign_symbol (padCheck_encText_url k .std b) h (by decide) (by decide)

/-! ### Padding legality -/

/-- In STD and MIX an illegal run of trailing pads is FMT (R187). -/
theorem padCheck_eq_fmt {m : Mode} (hm : m ≠ .url) (k : UrlPadKind) {t : List Byte}
    (hbad : 3 ≤ padCount t ∨ 1 ≤ padCount t ∧ t.length % 4 ≠ 0) : padCheck k m t = some .fmt := by
  cases m with
  | url => exact absurd rfl hm
  | std | mix =>
    simp only [padCheck]
    split_ifs with hthree hodd
    · rfl
    · rfl
    · omega

/-- Settles O19: the pad check gives FMT for an illegal trailing run, and any other pad is an invalid body symbol. -/
theorem paddingLegality : Obligations.PaddingLegality := by
  unfold Obligations.PaddingLegality
  intro k m t hstdmix
  have hm : m ≠ .url := by rcases hstdmix with rfl | rfl <;> decide
  have hrun (hbad : 3 ≤ padCount t ∨ 1 ≤ padCount t ∧ t.length % 4 ≠ 0) : decBytes k m t = .error .fmt :=
    decBytes_of_padCheck_fmt (padCheck_eq_fmt hm k hbad)
  have hinner (hlen : t.length % 4 ≠ 1) (htwo : padCount t ≤ 2) (hlegal : padCount t = 0 ∨ t.length % 4 = 0)
      (hmem : padSymbol ∈ bodyOf t) : decBytes k m t = .error .ichr :=
    decBytes_of_invalid_symbol hlen ((padCheck_none_iff k m t).2 ⟨fun h => absurd h hm, fun _ => ⟨htwo, hlegal⟩⟩)
      hmem (decTab_pad m)
  refine ⟨fun h3 => hrun (.inl h3), fun h1 hmod => hrun (.inr ⟨h1, hmod⟩), decBytes_of_banned_length k m, hinner, ?_⟩
  intro hmem hmod
  by_cases hcount : padCount t = 0
  · by_cases hlen : t.length % 4 = 1
    · exact ⟨.fmt, decBytes_of_banned_length k m hlen⟩
    · have hbody : padSymbol ∈ bodyOf t := by simpa [hcount] using (mem_iff_mem_bodyOf_or_pad t padSymbol).1 hmem
      exact ⟨.ichr, hinner hlen (by omega) (.inl hcount) hbody⟩
  · exact ⟨.fmt, hrun (.inr ⟨Nat.one_le_iff_ne_zero.2 hcount, hmod⟩)⟩

end Sys2Proof.Machine
end

section
/-! The result of a command as a function of its operands (R251), for O55. `commandResult` is that function: it takes the
parameters, the word, SRC_LEN, DST_CAP and the SRC bytes below SRC_LEN, and no state. A command write of either unit
answers what it says, so two states with the same operands get the same answer. -/

namespace Sys2Proof.Machine

/-! ### The function -/

/-- What an encode of `n` bytes gives with the capacity `cap` and the source bytes `src`, `none` where they are asked for
and one of them has no value: the checks in their order, else the text (R152, R153, R156, R161). -/
def encodeResult (p : Params) (a : Alphabet) (n cap : Nat) (src : Option (List Byte)) :
    Option (Except ErrKind (List Byte)) :=
  if p.srcSize < n ∨ p.dstSize < cap then some (.error .iarg)
  else
    match encodedLength p n with
    | none => some (.error .ovf)
    | some e => if cap < e + 1 then some (.error .cap) else src.map (fun b => .ok (encText a b))

/-- The same for a decode with kinds reported in order (R182, R184, R186, R181). -/
def decodeResult (p : Params) (m : Mode) (n cap : Nat) (src : Option (List Byte)) :
    Option (Except ErrKind (List Byte)) :=
  if p.srcSize < n ∨ p.dstSize < cap then some (.error .iarg)
  else if cap < decodedLength n + 1 then some (.error .cap)
  else if n % 4 = 1 then some (.error .fmt)
  else src.map (decBytes p.urlPadKind m)

/-- The same for an instruction. -/
def instrResult (p : Params) (n cap : Nat) (src : Option (List Byte)) : Instr → Option (Except ErrKind (List Byte))
  | .encStd => encodeResult p .std n cap src
  | .encUrl => encodeResult p .url n cap src
  | .decStd => decodeResult p .std n cap src
  | .decUrl => decodeResult p .url n cap src
  | .decMix => decodeResult p .mix n cap src

/-- The same for a word written to the unit `u`, which ends with IARG if the unit does not accept it (R93, R262). -/
def commandResult (p : Params) (u : UnitId) (w : Byte) (n cap : Nat) (src : Option (List Byte)) :
    Option (Except ErrKind (List Byte)) :=
  match accepted u w with
  | some i => instrResult p n cap src i
  | none => some (.error .iarg)

/-! ### What a unit reports -/

/-- The unit shows the result `r`: the code of its kind and no data, or success with the bytes and the terminator at
DST (R69, R270, R271). -/
def Reports (x : CodecUnit) : Except ErrKind (List Byte) → Prop
  | .error k => x.err = k.code ∧ x.dstLen = 0
  | .ok out => x.err = codeOk ∧ x.dstLen = out.length ∧ x.dst.readBytes 0 (out.length + 1) = some (out ++ [terminator])

/-- The operation ends with the unit `u` showing the result, or stops at the source byte that has no value. -/
def Answers (u : UnitId) (o : Host.Outcome State Fault Refusal) : Option (Except ErrKind (List Byte)) → Prop
  | some r => ∃ t, o = .next t ∧ Reports (t.unit u) r
  | none => o = .fault (.unwrittenSource u)

theorem ErrKind.code_ne_codeOk (k : ErrKind) : k.code ≠ codeOk := by cases k <;> decide

/-- Two units that show one result agree in everything the contract names. -/
theorem Reports.agree {x y : CodecUnit} {r : Except ErrKind (List Byte)} (hx : Reports x r) (hy : Reports y r) :
    y.err = x.err ∧ y.dstLen = x.dstLen ∧
      (x.err = codeOk → y.dst.readBytes 0 (x.dstLen + 1) = x.dst.readBytes 0 (x.dstLen + 1) ∧
        (x.dst.readBytes 0 (x.dstLen + 1)).isSome) := by
  cases r with
  | error k =>
    obtain ⟨hxerr, hxlen⟩ := hx
    obtain ⟨hyerr, hylen⟩ := hy
    exact ⟨hyerr.trans hxerr.symm, hylen.trans hxlen.symm, fun hok => absurd (hxerr.symm.trans hok) k.code_ne_codeOk⟩
  | ok out =>
    obtain ⟨hxerr, hxlen, hxdst⟩ := hx
    obtain ⟨hyerr, hylen, hydst⟩ := hy
    refine ⟨hyerr.trans hxerr.symm, hylen.trans hxlen.symm, fun _ => ?_⟩
    rw [hxlen, hxdst, hydst]
    exact ⟨rfl, rfl⟩

theorem reports_raise (s : State) (u : UnitId) (k : ErrKind) : Reports ((s.raise u k).unit u) (.error k) :=
  ⟨(State.raise_failedWith s u k).err, (State.raise_failedWith s u k).dstLen⟩

theorem reports_finish_putResult (s : State) (u : UnitId) (out : List Byte) :
    Reports (((s.putResult u out).finish u).unit u) (.ok out) := by
  refine ⟨?_, ?_, finish_putResult_reads s u out⟩ <;> simp [State.finish]

/-! ### The encoder -/

theorem runEncode_of_unwritten {s : State} {e : Nat} (hfree : s.enc.busy = false)
    (hfit : ¬(s.cfg.srcSize < s.enc.srcLen ∨ s.cfg.dstSize < s.enc.dstCap))
    (hsize : encodedLength s.cfg s.enc.srcLen = some e) (hroom : ¬s.enc.dstCap < e + 1)
    (hsrc : s.enc.src.readBytes 0 s.enc.srcLen = none) (a : Alphabet) (i : Instr) :
    runEncode a i s = .fault (.unwrittenSource .enc) := by
  simp [runEncode, encStart, hfree, encCheck_accept, hfit, hsize, hroom, sourceBytes, hsrc]

theorem runEncode_answers {s : State} (hfree : s.enc.busy = false) (a : Alphabet) (i : Instr) :
    Answers .enc (runEncode a i s)
      (encodeResult s.cfg a s.enc.srcLen s.enc.dstCap (s.enc.src.readBytes 0 s.enc.srcLen)) := by
  have hraise {k : ErrKind} (hk : encCheck s.cfg (s.enc.accept s.cfg (encode i)) = some k) :
      Answers .enc (runEncode a i s) (some (.error k)) :=
    ⟨_, runEncode_of_check hfree hk a, reports_raise _ .enc k⟩
  unfold encodeResult
  by_cases hfit : s.cfg.srcSize < s.enc.srcLen ∨ s.cfg.dstSize < s.enc.dstCap
  · rw [if_pos hfit]
    exact hraise (by rw [encCheck_accept, if_pos hfit])
  rw [if_neg hfit]
  cases hsize : encodedLength s.cfg s.enc.srcLen with
  | none => exact hraise (encCheck_accept_eq_ovf _ (by omega) (by omega) hsize)
  | some e =>
    by_cases hroom : s.enc.dstCap < e + 1
    · simp only [if_pos hroom]
      exact hraise (encCheck_accept_eq_cap _ (by omega) (by omega) hsize hroom)
    simp only [if_neg hroom]
    cases hsrc : s.enc.src.readBytes 0 s.enc.srcLen with
    | none => exact runEncode_of_unwritten hfree hfit hsize hroom hsrc a i
    | some b =>
      have hready : EncReady s b e := ⟨hfree, by omega, by omega, hsize, by omega, hsrc⟩
      exact ⟨_, runEncode_of_ready hready a i, reports_finish_putResult _ .enc _⟩

/-! ### The decoder -/

theorem runDecode_of_badSizes {s : State} (hfree : s.dec.busy = false)
    (hbad : s.cfg.srcSize < s.dec.srcLen ∨ s.cfg.dstSize < s.dec.dstCap) (m : Mode) (i : Instr) :
    runDecode m i s = .next ((s.accept .dec (encode i)).raise .dec .iarg) := by
  simp [runDecode, decStart, hfree, badSizes_accept, hbad]

section
variable {s : State} (hfree : s.dec.busy = false) (hsrc : s.dec.srcLen ≤ s.cfg.srcSize)
  (hdst : s.dec.dstCap ≤ s.cfg.dstSize) (hroom : decodedLength s.dec.srcLen + 1 ≤ s.dec.dstCap)
include hfree hsrc hdst hroom

/-- Operands that pass IARG and CAP, with a length that is 1 modulo 4: FMT is the first failing check (R186). -/
theorem runDecode_of_banned_length (hlen : s.dec.srcLen % 4 = 1) (m : Mode) (i : Instr) :
    runDecode m i s = decFail m .fmt (s.accept .dec (encode i)) := by
  simp [runDecode, decStart, hfree, badSizes_accept, Nat.not_lt.2 hsrc, Nat.not_lt.2 hdst, Nat.not_lt.2 hroom,
    lengthBanned, hlen]

theorem runDecode_of_unwritten (hlen : s.dec.srcLen % 4 ≠ 1) (hread : s.dec.src.readBytes 0 s.dec.srcLen = none)
    (m : Mode) (i : Instr) : runDecode m i s = .fault (.unwrittenSource .dec) := by
  simp [runDecode, decStart, hfree, badSizes_accept, Nat.not_lt.2 hsrc, Nat.not_lt.2 hdst, Nat.not_lt.2 hroom,
    lengthBanned, hlen, sourceBytes, hread]

end

/-- A text whose length is legal and whose pads are not: the pad check is the first that fails (R187). -/
theorem runDecode_of_padCheck {s : State} {t : List Byte} {m : Mode} {e : ErrKind} (h : DecReady s t)
    (hlen : t.length % 4 ≠ 1) (hpad : padCheck s.cfg.urlPadKind m t = some e) (i : Instr) :
    runDecode m i s = decFail m e (s.accept .dec (encode i)) := by
  rw [h.length] at hlen
  simp [runDecode, decStart, h.free, badSizes_accept, Nat.not_lt.2 h.srcFits, Nat.not_lt.2 h.dstFits,
    Nat.not_lt.2 h.room, lengthBanned, hlen, sourceBytes, h.written, hpad]

/-- A decode of a text it rejects ends with the kind of `dec_bytes`, kinds being reported in order (R201). -/
theorem runDecode_of_error {s : State} {t : List Byte} {m : Mode} {k : ErrKind} (h : DecReady s t)
    (hin : s.cfg.jointErr = .inOrder) (hlen : t.length % 4 ≠ 1) (hk : decBytes s.cfg.urlPadKind m t = .error k)
    (i : Instr) : ∃ s1 : State, runDecode m i s = .next (s1.raise .dec k) := by
  cases hpad : padCheck s.cfg.urlPadKind m t with
  | some e =>
    obtain rfl : e = k := Except.error.inj ((decBytes_of_padCheck hlen hpad).symm.trans hk)
    exact ⟨_, (runDecode_of_padCheck h hlen hpad i).trans (decFail_inOrder (by simpa using hin) m e)⟩
  | none =>
    rw [decBytes_eq _ m t hlen hpad, ← decBody_kind] at hk
    rcases hbody : decBody (decTab m) (bodyOf t) with ⟨out, _ | e⟩ <;> rw [hbody] at hk
    · cases hk
    · obtain rfl : e = k := Except.error.inj hk
      simp only [runDecode, decStart_of_ready h hlen hpad, hbody]
      exact ⟨_, decFail_inOrder (by simpa using hin) m e⟩

theorem runDecode_answers {s : State} (hfree : s.dec.busy = false) (hin : s.cfg.jointErr = .inOrder) (m : Mode)
    (i : Instr) : Answers .dec (runDecode m i s)
      (decodeResult s.cfg m s.dec.srcLen s.dec.dstCap (s.dec.src.readBytes 0 s.dec.srcLen)) := by
  have hraise {k : ErrKind} (hk : runDecode m i s = decFail m k (s.accept .dec (encode i))) :
      Answers .dec (runDecode m i s) (some (.error k)) :=
    ⟨_, hk.trans (decFail_inOrder (by simpa using hin) m k), reports_raise _ .dec k⟩
  unfold decodeResult
  by_cases hfit : s.cfg.srcSize < s.dec.srcLen ∨ s.cfg.dstSize < s.dec.dstCap
  · rw [if_pos hfit]
    exact ⟨_, runDecode_of_badSizes hfree hfit m i, reports_raise _ .dec .iarg⟩
  have hsrc : s.dec.srcLen ≤ s.cfg.srcSize := by omega
  have hdst : s.dec.dstCap ≤ s.cfg.dstSize := by omega
  rw [if_neg hfit]
  by_cases hshort : s.dec.dstCap < decodedLength s.dec.srcLen + 1
  · rw [if_pos hshort]
    exact hraise (runDecode_of_short hfree hsrc hdst hshort m i)
  have hroom := Nat.not_lt.1 hshort
  rw [if_neg hshort]
  by_cases hlen : s.dec.srcLen % 4 = 1
  · rw [if_pos hlen]
    exact hraise (runDecode_of_banned_length hfree hsrc hdst hroom hlen m i)
  rw [if_neg hlen]
  cases hread : s.dec.src.readBytes 0 s.dec.srcLen with
  | none => exact runDecode_of_unwritten hfree hsrc hdst hroom hlen hread m i
  | some t =>
    have hready : DecReady s t := ⟨hfree, hsrc, hdst, hroom, hread⟩
    rw [← hready.length] at hlen
    rw [Option.map_some]
    cases hres : decBytes s.cfg.urlPadKind m t with
    | ok out => exact ⟨_, runDecode_of_ok hready hres i, reports_finish_putResult _ .dec out⟩
    | error k =>
      obtain ⟨s1, hrun⟩ := runDecode_of_error hready hin hlen hres i
      exact ⟨_, hrun, reports_raise s1 .dec k⟩

/-! ### The command write -/

theorem commandWrite_answers {u : UnitId} {s : State} (hfree : (s.unit u).busy = false)
    (hin : s.cfg.jointErr = .inOrder) (w : Byte) :
    Answers u (commandWrite u w s) (commandResult s.cfg u w (s.unit u).srcLen (s.unit u).dstCap
      ((s.unit u).src.readBytes 0 (s.unit u).srcLen)) := by
  unfold commandWrite commandResult
  cases hw : accepted u w with
  | none =>
    have hrun : illegalCommand u w s = .next ((s.accept u w).raise u .iarg) := by simp [illegalCommand, hfree]
    exact ⟨_, hrun, reports_raise _ u .iarg⟩
  | some i =>
    obtain ⟨-, rfl⟩ := accepted_some hw
    cases i with
    | encStd => exact runEncode_answers hfree .std .encStd
    | encUrl => exact runEncode_answers hfree .url .encUrl
    | decStd => exact runDecode_answers hfree hin .std .decStd
    | decUrl => exact runDecode_answers hfree hin .url .decUrl
    | decMix => exact runDecode_answers hfree hin .mix .decMix

/-- Settles O55: both command writes answer `commandResult` of the same operands. -/
theorem resultDependsOnOperandsOnly : Obligations.ResultDependsOnOperandsOnly := by
  unfold Obligations.ResultDependsOnOperandsOnly
  intro u w s s' t hcfg hin hfree hfree' hlen hcap hsrc hrun
  have hread : (s'.unit u).src.readBytes 0 (s.unit u).srcLen = (s.unit u).src.readBytes 0 (s.unit u).srcLen :=
    Mem.readBytes_congr fun a ha => by simpa using hsrc a ha
  have hans := commandWrite_answers hfree hin w
  have hans' := commandWrite_answers hfree' (hcfg ▸ hin) w
  rw [hcfg, hlen, hcap, hread] at hans'
  cases hres : commandResult s.cfg u w (s.unit u).srcLen (s.unit u).dstCap
      ((s.unit u).src.readBytes 0 (s.unit u).srcLen) with
  | none =>
    rw [hres] at hans
    exact absurd (hrun.symm.trans hans) (by simp)
  | some r =>
    rw [hres] at hans hans'
    obtain ⟨t₁, hrun₁, hrep⟩ := hans
    obtain ⟨t', hrun', hrep'⟩ := hans'
    obtain rfl : t = t₁ := Host.Outcome.next.inj (hrun.symm.trans hrun₁)
    exact ⟨t', hrun', hrep.agree hrep'⟩

end Sys2Proof.Machine
end

section
/-! How a decode operation ends (R201). The first failing check is one that the input violates, so the kind reported
under either policy is applicable; `DecodeEnds` lists the ends, each with its reason, for O32, O33, O36, O57 and O60. -/

namespace Sys2Proof.Machine

/-! ### The first failing check is applicable -/

/-- Padding completes groups of four, so a body whose checks passed leaves no dangling symbol (R186, R187). -/
theorem length_bodyOf_mod_ne_one {k : UrlPadKind} {m : Mode} {t : List Byte} (hlen : t.length % 4 ≠ 1)
    (hpad : padCheck k m t = none) : (bodyOf t).length % 4 ≠ 1 := by
  obtain ⟨hurl, hother⟩ := (padCheck_none_iff k m t).1 hpad
  have hle := padCount_le t
  rw [length_bodyOf]
  by_cases hm : m = .url
  · simpa [hurl hm] using hlen
  · have := hother hm
    omega

theorem cap_mem_applicable {p : Params} {t : List Byte} {cap : Nat} (m : Mode)
    (hshort : cap < decodedLength t.length + 1) : .cap ∈ applicable p m t cap := by
  simp [applicable, hshort]

theorem fmt_mem_applicable {p : Params} {t : List Byte} (m : Mode) (cap : Nat) (hlen : t.length % 4 = 1) :
    .fmt ∈ applicable p m t cap := by
  simp [applicable, lengthBanned, hlen]

/-- In STD and MIX the pad check finds an illegal trailing run and calls it FMT (R187). -/
theorem padCheck_some_of_ne_url {q : UrlPadKind} {m : Mode} {t : List Byte} {k : ErrKind} (hm : m ≠ .url)
    (hpad : padCheck q m t = some k) : k = .fmt ∧ (2 < padCount t ∨ 1 ≤ padCount t ∧ t.length % 4 ≠ 0) := by
  have hbad : 2 < padCount t ∨ 1 ≤ padCount t ∧ t.length % 4 ≠ 0 := by
    by_contra hgood
    have hnone : padCheck q m t = none := (padCheck_none_iff q m t).2 ⟨fun h => absurd h hm, fun _ => by omega⟩
    rw [hpad] at hnone
    cases hnone
  exact ⟨Option.some.inj (hpad.symm.trans (padCheck_eq_fmt hm q hbad)), hbad⟩

theorem mem_applicable_of_padCheck {p : Params} {m : Mode} {t : List Byte} {k : ErrKind} (cap : Nat)
    (hpad : padCheck p.urlPadKind m t = some k) : k ∈ applicable p m t cap := by
  cases m with
  | url =>
    simp only [padCheck] at hpad
    split_ifs at hpad with hone
    obtain rfl := Option.some.inj hpad
    simp [applicable, hone]
  | std | mix =>
    obtain ⟨rfl, hbad⟩ := padCheck_some_of_ne_url (by decide) hpad
    simp [applicable, hbad]

/-- Without a dangling symbol the only thing wrong with a tail of valid symbols is its unused bits (R195). -/
theorem unpackGroup_error_eq_iseq {vs : List Sextet} {k : ErrKind} (hlt : vs.length < 4) (hne : vs.length ≠ 1)
    (hk : unpackGroup vs = .error k) : k = .iseq := by
  match vs, hlt, hne with
  | [], _, _ => cases hk
  | [_], _, hne => exact absurd rfl hne
  | [v0, v1], _, _ =>
    simp only [unpackGroup] at hk
    split_ifs at hk
    exact (Except.error.inj hk).symm
  | [v0, v1, v2], _, _ =>
    simp only [unpackGroup] at hk
    split_ifs at hk
    exact (Except.error.inj hk).symm

/-- A body that fails once the earlier checks have passed has an invalid symbol (ICHR) or an illegal tail (ISEQ). -/
theorem bodyKind_cause {D : Byte → Option Sextet} {body : List Byte} {k : ErrKind} (hlen : body.length % 4 ≠ 1)
    (hk : bodyKind D body = some k) :
    (k = .ichr ∧ ∃ c ∈ body, D c = none) ∨ (k = .iseq ∧ tailIllegal D (tailOf body) = true) := by
  cases hall : lookupAll D body with
  | none =>
    left
    rw [bodyKind, hall] at hk
    exact ⟨(Option.some.inj hk).symm, lookupAll_eq_none.1 hall⟩
  | some vs =>
    right
    have htail : lookupAll D (tailOf body) ≠ none := fun hnone => by
      obtain ⟨c, hc, hinvalid⟩ := lookupAll_eq_none.1 hnone
      rw [lookupAll_eq_none.2 ⟨c, List.mem_of_mem_drop hc, hinvalid⟩] at hall
      cases hall
    obtain ⟨ws, hws⟩ := Option.ne_none_iff_exists'.1 htail
    have hwslen : ws.length = body.length % 4 := by
      rw [length_lookupAll hws, tailOf, List.length_drop]
      omega
    have hunpack : unpackGroup ws = .error k := by
      rw [bodyKind, hall, hws] at hk
      simp only [Option.getD_some] at hk
      cases hu : unpackGroup ws with
      | error e => rw [hu] at hk; rw [Option.some.inj hk]
      | ok bs => rw [hu] at hk; cases hk
    obtain rfl := unpackGroup_error_eq_iseq (by omega) (by omega) hunpack
    exact ⟨rfl, by simp [tailIllegal, decGroup, hws, hunpack]⟩

theorem mem_applicable_of_bodyKind {p : Params} {m : Mode} {t : List Byte} {k : ErrKind} (cap : Nat)
    (hlen : t.length % 4 ≠ 1) (hpad : padCheck p.urlPadKind m t = none)
    (hk : bodyKind (decTab m) (bodyOf t) = some k) : k ∈ applicable p m t cap := by
  rcases bodyKind_cause (length_bodyOf_mod_ne_one hlen hpad) hk with ⟨rfl, c, hc, hinvalid⟩ | ⟨rfl, htail⟩
  · have ht : c ∈ t := List.mem_of_mem_take hc
    cases m with
    | url =>
      have hany : ∃ x ∈ t, decTab .url x = none := ⟨c, ht, hinvalid⟩
      simp [applicable, hany]
    | std | mix =>
      have hany : ∃ x ∈ bodyOf t, decTab _ x = none := ⟨c, hc, hinvalid⟩
      simp [applicable, hany]
  · simp [applicable, htail]

/-! ### The ends -/

/-- After IARG has passed, `k` is the first check of the command write that fails (R184, R186, R187). -/
def CommandCheckFails (m : Mode) (s : State) (k : ErrKind) : Prop :=
  (k = .cap ∧ s.dec.dstCap < decodedLength s.dec.srcLen + 1) ∨ (k = .fmt ∧ s.dec.srcLen % 4 = 1) ∨
    ∃ b, s.dec.src.readBytes 0 s.dec.srcLen = some b ∧ b.length % 4 ≠ 1 ∧ padCheck s.cfg.urlPadKind m b = some k

/-- `k` may be reported where `first` is the first failing check of a decode of `s` (R201). -/
def Reported (m : Mode) (s : State) (first k : ErrKind) : Prop :=
  (s.cfg.jointErr = .inOrder ∧ k = first) ∨
    (s.cfg.jointErr = .anyApplicable ∧
      ∃ b, s.dec.src.readBytes 0 s.dec.srcLen = some b ∧ k ∈ applicable s.cfg m b s.dec.dstCap)

/-- The states in which a decode of `s` ends, each with the reason. -/
inductive DecodeEnds (m : Mode) (i : Instr) (s : State) : State → Prop where
  | sizes (hbad : s.cfg.srcSize < s.dec.srcLen ∨ s.cfg.dstSize < s.dec.dstCap) :
      DecodeEnds m i s ((s.accept .dec (encode i)).raise .dec .iarg)
  | check {first k : ErrKind} (hsrc : s.dec.srcLen ≤ s.cfg.srcSize) (hdst : s.dec.dstCap ≤ s.cfg.dstSize)
      (hfail : CommandCheckFails m s first) (hrep : Reported m s first k) :
      DecodeEnds m i s ((s.accept .dec (encode i)).raise .dec k)
  | body {b : List Byte} {first k : ErrKind} (hready : DecReady s b) (hlen : b.length % 4 ≠ 1)
      (hpad : padCheck s.cfg.urlPadKind m b = none) (hbody : bodyKind (decTab m) (bodyOf b) = some first)
      (hrep : Reported m s first k) :
      DecodeEnds m i s
        ((((s.accept .dec (encode i)).loadBody b).putResult .dec (decBody (decTab m) (bodyOf b)).1).raise .dec k)
  | success {b out : List Byte} (hready : DecReady s b) (hok : decBytes s.cfg.urlPadKind m b = .ok out) :
      DecodeEnds m i s ((((s.accept .dec (encode i)).loadBody b).putResult .dec out).finish .dec)

theorem CommandCheckFails.mem_applicable {m : Mode} {s : State} {k : ErrKind} (h : CommandCheckFails m s k)
    {b : List Byte} (hb : s.dec.src.readBytes 0 s.dec.srcLen = some b) : k ∈ applicable s.cfg m b s.dec.dstCap := by
  have hlength := Mem.readBytes_length hb
  rcases h with ⟨rfl, hshort⟩ | ⟨rfl, hlen⟩ | ⟨b', hb', -, hpad⟩
  · exact cap_mem_applicable m (by rwa [hlength])
  · exact fmt_mem_applicable m _ (by rwa [hlength])
  · obtain rfl : b = b' := Option.some.inj (hb.symm.trans hb')
    exact mem_applicable_of_padCheck _ hpad

/-- The kinds of the command write's checks after IARG. -/
theorem CommandCheckFails.kinds {m : Mode} {s : State} {k : ErrKind} (h : CommandCheckFails m s k) :
    k = .cap ∨ k = .fmt ∨ k = .ichr := by
  rcases h with ⟨rfl, -⟩ | ⟨rfl, -⟩ | ⟨b, -, -, hpad⟩
  · exact .inl rfl
  · exact .inr (.inl rfl)
  · exact .inr (padCheck_kinds hpad)

/-- Under either policy the kind reported is applicable, if the first failing one is. -/
theorem Reported.mem_applicable {m : Mode} {s : State} {first k : ErrKind} (h : Reported m s first k) {b : List Byte}
    (hb : s.dec.src.readBytes 0 s.dec.srcLen = some b) (hfirst : first ∈ applicable s.cfg m b s.dec.dstCap) :
    k ∈ applicable s.cfg m b s.dec.dstCap := by
  rcases h with ⟨-, rfl⟩ | ⟨-, b', hb', hk⟩
  · exact hfirst
  · obtain rfl : b = b' := Option.some.inj (hb.symm.trans hb')
    exact hk

/-- A failing check of a decode raises a kind that may be reported, from any state `r` that holds the latches of `s`. -/
theorem decFail_reported {m : Mode} {first : ErrKind} {s r t : State} (h : decFail m first r = .next t)
    (hcfg : r.cfg = s.cfg) (hsrc : sourceBytes r.dec = s.dec.src.readBytes 0 s.dec.srcLen)
    (hcap : r.dec.hid.cap = s.dec.dstCap)
    (hfirst : ∀ b, s.dec.src.readBytes 0 s.dec.srcLen = some b → first ∈ applicable s.cfg m b s.dec.dstCap) :
    ∃ k, t = r.raise .dec k ∧ Reported m s first k := by
  rcases decFail_cases m first r with ⟨-, -, hfault⟩ | ⟨k, hnext, hk⟩
  · rw [h] at hfault
    cases hfault
  · refine ⟨k, Host.Outcome.next.inj (h.symm.trans hnext), ?_⟩
    rw [hcfg, hsrc, hcap] at hk
    rcases hk with hk | ⟨hany, b, hb, rfl⟩
    · exact .inl hk
    · refine .inr ⟨hany, b, hb, ?_⟩
      rcases pickKind_mem (applicable s.cfg m b s.dec.dstCap) first r.dec.draw with hmem | ⟨hnil, -⟩
      · exact hmem
      · exact absurd (hfirst b hb) (by simp [hnil])

/-- A decode that ends in a next state was not busy and ends in one of the listed ways. -/
theorem runDecode_ends {m : Mode} {i : Instr} {s t : State} (h : runDecode m i s = .next t) :
    s.dec.busy = false ∧ DecodeEnds m i s t := by
  have hcheck {first : ErrKind} (hsrc : s.dec.srcLen ≤ s.cfg.srcSize) (hdst : s.dec.dstCap ≤ s.cfg.dstSize)
      (hfail : CommandCheckFails m s first)
      (hr : runDecode m i s = decFail m first (s.accept .dec (encode i))) : DecodeEnds m i s t := by
    obtain ⟨k, rfl, hrep⟩ := decFail_reported (s := s) (hr.symm.trans h) (State.accept_cfg ..) rfl rfl
      fun b hb => hfail.mem_applicable hb
    exact .check hsrc hdst hfail hrep
  rcases runDecode_cases m i s with ⟨-, hr⟩ | ⟨hfree, hbad, hr⟩ | ⟨hfree, hsrc, hdst, hshort, hr⟩ |
    ⟨hfree, hsrc, hdst, -, hlen, hr⟩ | ⟨-, -, hr⟩ | ⟨b, k, hready, hlen, hpad, hr⟩ |
    ⟨b, k, hready, hlen, hpad, hbody, hr⟩ | ⟨b, out, hready, hlen, hpad, hbody, hr⟩
  · exact nomatch h.symm.trans hr
  · obtain rfl := Host.Outcome.next.inj (h.symm.trans hr)
    exact ⟨hfree, .sizes hbad⟩
  · exact ⟨hfree, hcheck hsrc hdst (.inl ⟨rfl, hshort⟩) hr⟩
  · exact ⟨hfree, hcheck hsrc hdst (.inr (.inl ⟨rfl, hlen⟩)) hr⟩
  · exact nomatch h.symm.trans hr
  · rw [← hready.length] at hlen
    exact ⟨hready.free, hcheck hready.srcFits hready.dstFits (.inr (.inr ⟨b, hready.written, hlen, hpad⟩)) hr⟩
  · rw [← hready.length] at hlen
    obtain ⟨k', rfl, hrep⟩ := decFail_reported (s := s) (hr.symm.trans h) (by simp) rfl rfl fun b' hb' => by
      obtain rfl : b = b' := Option.some.inj (hready.written.symm.trans hb')
      exact mem_applicable_of_bodyKind _ hlen hpad hbody
    exact ⟨hready.free, .body hready hlen hpad hbody hrep⟩
  · rw [← hready.length] at hlen
    obtain rfl := Host.Outcome.next.inj (h.symm.trans hr)
    refine ⟨hready.free, .success hready ?_⟩
    rw [decBytes_eq _ m b hlen hpad, ← decBody_kind, hbody]

end Sys2Proof.Machine
end

section
/-! The size calculator at its limits (R141, R145), for O8 and O10. A length register holds `4 * K - 1` at most, with `K`
for `2^(LENW-2)`. -/

namespace Sys2Proof.Machine

/-- With legal parameters `2^LENW` is a multiple of 4, and 16 at least (R9). -/
theorem two_pow_lenW {p : Params} (hp : p.wf = true) : 2 ^ p.lenW = 4 * 2 ^ (p.lenW - 2) ∧ 4 ≤ 2 ^ (p.lenW - 2) := by
  obtain ⟨hw, -⟩ := cells_of_wf hp
  constructor
  · rw [show (4 : Nat) = 2 ^ 2 from rfl, ← pow_add]
    congr 1
    omega
  · exact Nat.pow_le_pow_right (n := 2) (by decide) (show 2 ≤ p.lenW - 2 by omega)

/-- Settles O8: the size passes `4 * K - 1` exactly when it has `K` groups or more. -/
theorem overflowThreshold : Obligations.OverflowThreshold := by
  unfold Obligations.OverflowThreshold
  intro p n hp _
  obtain ⟨hpow, hK⟩ := two_pow_lenW hp
  rw [encodedLength_eq_none_iff, Params.maxLen, hpow]
  omega

/-- Settles O10: a size is a multiple of 4 and MAXLEN is not, and three quarters of MAXLEN leave room for one more. -/
theorem slackByteNeverWraps : Obligations.SlackByteNeverWraps := by
  unfold Obligations.SlackByteNeverWraps
  intro p n hp hn
  obtain ⟨hpow, hK⟩ := two_pow_lenW hp
  rw [Params.maxLen, hpow] at hn ⊢
  constructor
  · intro e he
    obtain ⟨rfl, hle⟩ := encodedLength_some he
    rw [Params.maxLen, hpow] at hle
    omega
  · unfold decodedLength
    omega

end Sys2Proof.Machine
end

section
/-! One lemma per field for the two ends of an operation, beside those of `State.endUnit`. -/

namespace Sys2Proof.Machine

variable (s : State) (u : UnitId) (k : ErrKind)

@[simp] theorem State.unit_raise :
    (s.raise u k).unit u = (s.unit u).ended s.cfg u k.code 0 (failDst s.cfg u k (s.unit u)) := by simp [State.raise]
@[simp] theorem State.raise_enc_enc :
    (s.raise .enc k).enc = s.enc.ended s.cfg .enc k.code 0 (failDst s.cfg .enc k s.enc) := rfl
@[simp] theorem State.raise_dec_dec :
    (s.raise .dec k).dec = s.dec.ended s.cfg .dec k.code 0 (failDst s.cfg .dec k s.dec) := rfl
@[simp] theorem State.raise_enc_dec : (s.raise .enc k).dec = s.dec := rfl
@[simp] theorem State.raise_dec_enc : (s.raise .dec k).enc = s.enc := rfl
@[simp] theorem State.raise_enc_decData : (s.raise .enc k).decData = s.decData := rfl
@[simp] theorem State.raise_dec_encData : (s.raise .dec k).encData = s.encData := rfl
@[simp] theorem State.raise_moves : (s.raise u k).moves = s.moves := by simp [State.raise]
@[simp] theorem State.raise_replies : (s.raise u k).replies = s.replies := by simp [State.raise]
@[simp] theorem State.raise_owned : (s.raise u k).owned = s.owned := by simp [State.raise]

@[simp] theorem State.unit_finish : (s.finish u).unit u =
    (s.unit u).ended s.cfg u codeOk (s.unit u).hid.opos (finishDst s.cfg u (s.unit u)) := by simp [State.finish]
@[simp] theorem State.finish_enc_enc :
    (s.finish .enc).enc = s.enc.ended s.cfg .enc codeOk s.enc.hid.opos (finishDst s.cfg .enc s.enc) := rfl
@[simp] theorem State.finish_dec_dec :
    (s.finish .dec).dec = s.dec.ended s.cfg .dec codeOk s.dec.hid.opos (finishDst s.cfg .dec s.dec) := rfl
@[simp] theorem State.finish_enc_dec : (s.finish .enc).dec = s.dec := rfl
@[simp] theorem State.finish_dec_enc : (s.finish .dec).enc = s.enc := rfl
@[simp] theorem State.finish_enc_decData : (s.finish .enc).decData = s.decData := rfl
@[simp] theorem State.finish_dec_encData : (s.finish .dec).encData = s.encData := rfl
@[simp] theorem State.finish_moves : (s.finish u).moves = s.moves := by simp [State.finish]
@[simp] theorem State.finish_replies : (s.finish u).replies = s.replies := by simp [State.finish]
@[simp] theorem State.finish_owned : (s.finish u).owned = s.owned := by simp [State.finish]

end Sys2Proof.Machine
end

section
/-! The invariant of the machine, for O59, O60 and O58. An end of an operation is judged by what the unit was before the
operation (`OperationOn`); each move is then one of the cases of `StepCase`. -/

namespace Sys2Proof.Machine

/-! ### The ends of an operation -/

/-- `y` is the unit `x` in the course of an operation: SRC, the operand registers and the capacity latch are those of
`x`, and DST is canonical and inside its cells. -/
structure OperationOn (p : Params) (x y : CodecUnit) : Prop where
  src : y.src = x.src
  srcLen : y.srcLen = x.srcLen
  dstCap : y.dstCap = x.dstCap
  cap : y.hid.cap = x.dstCap
  dstSorted : y.dst.wf
  dstExists : ∀ c ∈ y.dst, c.1 < cells p .dst

section
variable {p : Params} {x y : CodecUnit} (h : UnitInv p x) (hop : OperationOn p x y)
include h hop

theorem UnitInv.of_raise (u : UnitId) {k : ErrKind} (hk : k ≠ .nomem)
    (hfit : x.dstCap ≤ cells p .dst ∨ k = .iarg ∨ k = .cap ∨ k = .ovf) :
    UnitInv p (y.ended p u k.code 0 (failDst p u k y)) := by
  obtain ⟨hsorted, hexists⟩ := failDst_keeps (u := u) hop.dstSorted hop.dstExists (by rwa [hop.cap])
  exact CodecUnit.ended_inv (hop.src ▸ h.srcSorted) hsorted (hop.src ▸ h.srcExists) hexists (hop.srcLen ▸ h.srcLen)
    (hop.dstCap ▸ h.dstCap) (Nat.zero_le _) (ErrKind.code_mem hk) fun _ => rfl

theorem UnitInv.of_finish (u : UnitId) (hfit : x.dstCap ≤ cells p .dst) (hopos : y.hid.opos < x.dstCap) :
    UnitInv p (y.ended p u codeOk y.hid.opos (finishDst p u y)) := by
  have hcap := h.dstCap
  obtain ⟨hsorted, hexists⟩ :=
    finishDst_keeps (u := u) hop.dstSorted hop.dstExists (by rwa [hop.cap]) (by rwa [hop.cap])
  exact CodecUnit.ended_inv (hop.src ▸ h.srcSorted) hsorted (hop.src ▸ h.srcExists) hexists (hop.srcLen ▸ h.srcLen)
    (hop.dstCap ▸ h.dstCap) (by omega) (by decide) fun hne => absurd rfl hne

end

/-- An accepted unit is in the course of an operation. -/
theorem OperationOn.accept {p : Params} {x : CodecUnit} (h : UnitInv p x) (w : Byte) :
    OperationOn p x (x.accept p w) where
  src := rfl
  srcLen := rfl
  dstCap := rfl
  cap := rfl
  dstSorted := h.dstSorted
  dstExists := h.dstExists

/-- So is one that has committed bytes within its capacity. -/
theorem OperationOn.putResult {p : Params} {x : CodecUnit} (h : UnitInv p x) (w : Byte) {out : List Byte}
    (hout : out.length ≤ cells p .dst) :
    OperationOn p x { x.accept p w with
      dst := x.dst.writeBytes 0 out, hid := { (x.accept p w).hid with opos := out.length } } where
  src := rfl
  srcLen := rfl
  dstCap := rfl
  cap := rfl
  dstSorted := Mem.wf_writeBytes h.dstSorted _ _
  dstExists := Mem.writeBytes_lt h.dstExists (.inr (by omega))

/-- So is a running unit: its latches are the operands (R32). -/
theorem OperationOn.running {p : Params} {x : CodecUnit} (h : UnitInv p x) (hrun : x.phase = .run) :
    OperationOn p x x where
  src := rfl
  srcLen := rfl
  dstCap := rfl
  cap := by
    obtain ⟨-, hcap, -⟩ := h.latched hrun
    exact hcap
  dstSorted := h.dstSorted
  dstExists := h.dstExists

section
variable {s r : State} {k : ErrKind} (h : Inv s) (hcfg : r.cfg = s.cfg)
include h hcfg

section
variable (hdec : r.dec = s.dec) (hdata : r.decData = s.decData) (hop : OperationOn s.cfg s.enc r.enc)
include hdec hdata hop

theorem Inv.raise_enc (hk : k ≠ .nomem)
    (hfit : s.enc.dstCap ≤ cells s.cfg .dst ∨ k = .iarg ∨ k = .cap ∨ k = .ovf) : Inv (r.raise .enc k) := by
  refine h.of_enc (by simp [hcfg]) hdec hdata ?_ fun hrun => nomatch hrun
  rw [State.raise_enc_enc, hcfg]
  exact h.enc.of_raise hop .enc hk hfit

theorem Inv.finish_enc (hfit : s.enc.dstCap ≤ cells s.cfg .dst) (hopos : r.enc.hid.opos < s.enc.dstCap) :
    Inv (r.finish .enc) := by
  refine h.of_enc (by simp [hcfg]) hdec hdata ?_ fun hrun => nomatch hrun
  rw [State.finish_enc_enc, hcfg]
  exact h.enc.of_finish hop .enc hfit hopos

end

section
variable (henc : r.enc = s.enc) (hop : OperationOn s.cfg s.dec r.dec)
include henc hop

theorem Inv.raise_dec (hk : k ≠ .nomem)
    (hfit : s.dec.dstCap ≤ cells s.cfg .dst ∨ k = .iarg ∨ k = .cap ∨ k = .ovf) : Inv (r.raise .dec k) := by
  refine h.of_dec (by simp [hcfg]) henc ?_ (fun hrun => nomatch hrun) (hcfg ▸ freeLen_le _ _ _)
  rw [State.raise_dec_dec, hcfg]
  exact h.dec.of_raise hop .dec hk hfit

theorem Inv.finish_dec (hfit : s.dec.dstCap ≤ cells s.cfg .dst) (hopos : r.dec.hid.opos < s.dec.dstCap) :
    Inv (r.finish .dec) := by
  refine h.of_dec (by simp [hcfg]) henc ?_ (fun hrun => nomatch hrun) (hcfg ▸ freeLen_le _ _ _)
  rw [State.finish_dec_dec, hcfg]
  exact h.dec.of_finish hop .dec hfit hopos

end

end

/-! ### The instructions -/

/-- The text of a ready encode leaves room for the terminator (R157). -/
theorem EncReady.length_encText_lt {s : State} {b : List Byte} {e : Nat} (h : EncReady s b e) (a : Alphabet) :
    (encText a b).length < s.enc.dstCap := by
  have hle := length_encText_le a b
  have hroom := h.room
  obtain ⟨rfl, -⟩ := encodedLength_some h.size
  rw [h.length] at hle
  omega

theorem runEncode_keeps_inv {a : Alphabet} {i : Instr} {s t : State} (h : Inv s) (ht : runEncode a i s = .next t) :
    Inv t := by
  rcases runEncode_cases a i s with ⟨-, hr⟩ | ⟨-, k, -, hk, hr⟩ | ⟨-, -, hr⟩ | ⟨b, e, hready, hr⟩
  · exact nomatch ht.symm.trans hr
  · obtain rfl := Host.Outcome.next.inj (ht.symm.trans hr)
    exact h.raise_enc (by simp) rfl rfl (.accept h.enc _) (by rcases hk with rfl | rfl | rfl <;> decide)
      (.inr (by tauto))
  · exact nomatch ht.symm.trans hr
  · obtain rfl := Host.Outcome.next.inj (ht.symm.trans hr)
    have hlt := hready.length_encText_lt a
    obtain ⟨-, -, hcells⟩ := cells_of_wf h.cfg
    have hfit : s.enc.dstCap ≤ cells s.cfg .dst := hcells ▸ hready.dstFits
    exact h.finish_enc (by simp) rfl rfl (.putResult h.enc _ (by omega)) hfit hlt

/-- The bytes a ready decode commits leave room for the terminator (R185). -/
theorem DecReady.length_decBody_lt {s : State} {b : List Byte} (h : DecReady s b) (D : Byte → Option Sextet) :
    (decBody D (bodyOf b)).1.length < s.dec.dstCap := by
  have hle := length_decBody_le D (bodyOf b)
  have hroom := h.room
  rw [length_bodyOf, h.length] at hle
  unfold decodedLength at hle hroom
  omega

/-- An accepted text decodes to the bytes its body commits. -/
theorem decBytes_ok_eq {k : UrlPadKind} {m : Mode} {t out : List Byte} (h : decBytes k m t = .ok out) :
    (decBody (decTab m) (bodyOf t)).1 = out := by
  obtain ⟨-, -, hbody⟩ := decBytes_ok h
  rw [hbody]

/-- No kind a decode may report is NOMEM. -/
theorem Reported.ne_nomem {m : Mode} {s : State} {first k : ErrKind} (h : Reported m s first k)
    (hfirst : first ≠ .nomem) : k ≠ .nomem := by
  rcases h with ⟨-, rfl⟩ | ⟨-, b, -, hk⟩
  · exact hfirst
  · exact (applicable_kinds hk).1

theorem CommandCheckFails.ne_nomem {m : Mode} {s : State} {k : ErrKind} (h : CommandCheckFails m s k) :
    k ≠ .nomem := by
  rcases h.kinds with rfl | rfl | rfl <;> decide

theorem bodyKind_ne_nomem {D : Byte → Option Sextet} {t : List Byte} {k : ErrKind} (h : bodyKind D t = some k) :
    k ≠ .nomem := by
  rcases bodyKind_kinds h with rfl | rfl <;> decide

theorem runDecode_keeps_inv {m : Mode} {i : Instr} {s t : State} (h : Inv s) (ht : runDecode m i s = .next t) :
    Inv t := by
  obtain ⟨-, -, hcells⟩ := cells_of_wf h.cfg
  obtain ⟨-, hend⟩ := runDecode_ends ht
  cases hend with
  | sizes _ => exact h.raise_dec (by simp) rfl (.accept h.dec _) (by decide) (.inr (.inl rfl))
  | check _ hdst hfail hrep =>
    exact h.raise_dec (by simp) rfl (.accept h.dec _) (hrep.ne_nomem hfail.ne_nomem) (.inl (hcells ▸ hdst))
  | body hready _ _ hbody hrep =>
    have hfit : s.dec.dstCap ≤ cells s.cfg .dst := hcells ▸ hready.dstFits
    have hlt := hready.length_decBody_lt (decTab m)
    exact h.raise_dec (by simp) rfl (.putResult h.dec _ (by omega)) (hrep.ne_nomem (bodyKind_ne_nomem hbody))
      (.inl hfit)
  | success hready hok =>
    have hfit : s.dec.dstCap ≤ cells s.cfg .dst := hcells ▸ hready.dstFits
    have hlt := hready.length_decBody_lt (decTab m)
    rw [decBytes_ok_eq hok] at hlt
    exact h.finish_dec (by simp) rfl (.putResult h.dec _ (by omega)) hfit hlt

theorem exec_keeps_inv {i : Instr} {s t : State} (h : Inv s) (ht : exec i s = .next t) : Inv t := by
  rcases exec_cases i s with ⟨a, -, hrun, -⟩ | ⟨m, -, hrun, -⟩
  · exact runEncode_keeps_inv h (hrun ▸ ht)
  · exact runDecode_keeps_inv h (hrun ▸ ht)

/-! ### The command write -/

/-- A unit accepts the word of its own instruction (R92). -/
theorem accepted_encode (i : Instr) : accepted i.unit (encode i) = some i := by cases i <;> decide

theorem issue_keeps_inv {i : Instr} {s t : State} (h : Inv s) (ht : issue i s = .next t) : Inv t := by
  rcases issue_next ht with hexec | ⟨hi, ⟨b, e, hready⟩, rfl⟩ | ⟨hi, m, b, -, hready, -, -, rfl⟩
  · exact exec_keeps_inv h hexec
  · refine h.of_enc (by simp) rfl rfl
      (CodecUnit.accept_inv h.enc hready.srcFits hready.dstFits ⟨b, hready.written⟩) fun _ => ?_
    have hacc : accepted .enc (encode i) ≠ none := by rw [← hi, accepted_encode]; simp
    exact ⟨hacc, ⟨e, hready.size, hready.room⟩, Nat.zero_le _, .inl rfl, Nat.zero_le _⟩
  · have hl : b.length - padCount b ≤ s.dec.srcLen := by rw [hready.length]; omega
    refine h.of_dec (by simp) rfl
      (CodecUnit.accept_inv h.dec hready.srcFits hready.dstFits ⟨b, hready.written⟩) (fun _ => ?_)
      (hl.trans h.dec.srcLen)
    have hacc : accepted .dec (encode i) ≠ none := by rw [← hi, accepted_encode]; simp
    exact ⟨hacc, hready.room, hl, Nat.zero_le _, .inl rfl, Nat.zero_le _⟩

theorem illegal_keeps_inv {u : UnitId} {s : State} (h : Inv s) (w : Byte) : Inv ((s.accept u w).raise u .iarg) := by
  cases u with
  | enc => exact h.raise_enc (by simp) rfl rfl (.accept h.enc w) (by decide) (.inr (.inl rfl))
  | dec => exact h.raise_dec (by simp) rfl (.accept h.dec w) (by decide) (.inr (.inl rfl))

/-! ### The host's other moves -/

theorem Inv.unit {s : State} (h : Inv s) (u : UnitId) : UnitInv s.cfg (s.unit u) := by
  cases u with
  | enc => exact h.enc
  | dec => exact h.dec

/-- What the host intends, has been told and owns is no part of the invariant. -/
theorem Inv.host {s : State} (h : Inv s) (ms : List Move) (rs : List Reply) (os : List OwnedBuffer) :
    Inv { s with moves := ms, replies := rs, owned := os } where
  cfg := h.cfg
  enc := h.enc
  dec := h.dec
  encRun := h.encRun
  decRun := h.decRun
  bodyLen := h.bodyLen

/-- A unit that is not running owes nothing to the datapath or to the other unit. -/
theorem Inv.setUnit {s : State} (h : Inv s) {u : UnitId} {x : CodecUnit} (hx : UnitInv s.cfg x)
    (hidle : x.phase ≠ .run) : Inv (s.setUnit u x) := by
  cases u with
  | enc => exact h.of_enc rfl rfl rfl hx fun hrun => absurd hrun hidle
  | dec => exact h.of_dec rfl rfl hx (fun hrun => absurd hrun hidle) h.bodyLen

section
variable {p : Params} {x : CodecUnit} (h : UnitInv p x) (hidle : x.phase ≠ .run)
include h hidle

theorem UnitInv.setSrcLen {v : Nat} (hv : v ≤ p.maxLen) : UnitInv p { x with srcLen := v } :=
  { h with srcLen := hv, latched := fun hrun => absurd hrun hidle }

theorem UnitInv.setDstCap {v : Nat} (hv : v ≤ p.maxLen) : UnitInv p { x with dstCap := v } :=
  { h with dstCap := hv, latched := fun hrun => absurd hrun hidle }

theorem UnitInv.writeSpace (sp : Space) {i : Nat} {bs : List Byte} (hfit : bs = [] ∨ i + bs.length ≤ cells p sp) :
    UnitInv p (x.setSpace sp ((x.space sp).writeBytes i bs)) := by
  cases sp with
  | src =>
    exact { h with
      srcSorted := Mem.wf_writeBytes h.srcSorted _ _
      srcExists := Mem.writeBytes_lt h.srcExists hfit
      latched := fun hrun => absurd hrun hidle }
  | dst =>
    exact { h with
      dstSorted := Mem.wf_writeBytes h.dstSorted _ _
      dstExists := Mem.writeBytes_lt h.dstExists hfit
      latched := fun hrun => absurd hrun hidle }

end

/-- The counter of free values is no part of the invariant. -/
theorem UnitInv.setDraw {p : Params} {x : CodecUnit} (h : UnitInv p x) (d : Nat) : UnitInv p { x with draw := d } :=
  { h with }

theorem CodecUnit.reset_inv (p : Params) : UnitInv p (CodecUnit.reset p) where
  srcSorted := .nil
  dstSorted := .nil
  srcExists := fun _ hc => nomatch hc
  dstExists := fun _ hc => nomatch hc
  srcLen := Nat.zero_le _
  dstCap := Nat.zero_le _
  dstLen := Nat.zero_le _
  n := Nat.zero_le _
  cap := Nat.zero_le _
  ipos := Nat.zero_le _
  opos := Nat.zero_le _
  stages := List.length_replicate
  code := List.mem_cons_self
  quiet := fun _ => ⟨rfl, rfl⟩
  failed := fun _ => rfl
  latched := fun hrun => nomatch hrun

theorem resetBlock_keeps_inv {s : State} (h : Inv s) : Inv s.resetBlock where
  cfg := h.cfg
  enc := (CodecUnit.reset_inv s.cfg).setDraw _
  dec := (CodecUnit.reset_inv s.cfg).setDraw _
  encRun := fun hrun => nomatch hrun
  decRun := fun hrun => nomatch hrun
  bodyLen := Nat.zero_le _

/-! ### The units' own steps -/

theorem encStep_keeps_inv {s t : State} (h : Inv s) (ht : encStep s = .next t) : Inv t := by
  obtain ⟨-, -, hcells⟩ := cells_of_wf h.cfg
  rcases encStep_cases s with ⟨-, hr⟩ | ⟨hbusy, -, hr⟩ | ⟨-, hr, -⟩ | ⟨hbusy, hlt, bs, e, out, hread, -, hout, hr⟩
  · obtain rfl := Host.Outcome.next.inj (ht.symm.trans hr)
    exact h
  · have hrun := s.enc.busy_eq_true.1 hbusy
    obtain rfl := Host.Outcome.next.inj (ht.symm.trans hr)
    obtain ⟨-, hcap, -, -, hdst, -⟩ := h.enc.latched hrun
    exact h.finish_enc rfl rfl rfl (.running h.enc hrun) (by omega) (hcap ▸ finish_bounds_enc h.encRun hrun)
  · exact nomatch ht.symm.trans hr
  · have hrun := s.enc.busy_eq_true.1 hbusy
    obtain rfl := Host.Outcome.next.inj (ht.symm.trans hr)
    obtain ⟨hn, hcap, -, -, hdst, -⟩ := h.enc.latched hrun
    obtain ⟨hacc, hsize, -⟩ := h.encRun hrun
    obtain ⟨-, hin, hbound, hopos, hroom⟩ := encGroup_bounds h.encRun hrun hlt (Mem.readBytes_length hread)
      (hout ▸ length_groupOut_le _ _ _)
    have hcapLe := h.enc.cap
    have hnLe := h.enc.n
    refine h.of_enc rfl rfl rfl { h.enc with
      dstSorted := Mem.wf_writeBytes h.enc.dstSorted _ _
      dstExists := Mem.writeBytes_lt h.enc.dstExists (.inr (by omega))
      ipos := hin.trans hnLe
      opos := by simp only; omega } fun _ => ⟨hacc, hsize, hin, hbound, hopos⟩

/-- FETCH, LOOKUP and PACK leave the body length (R183). -/
theorem decPack_decFetch_l (k : Nat) (m : Mode) (ys : List Byte) (d : DecData) :
    (decPack k (decFetch m ys d)).l = d.l := rfl

/-- The kinds a group fails with (R188, R195). -/
theorem decGroup_error_kinds {D : Byte → Option Sextet} {ys : List Byte} {k : ErrKind} (h : decGroup D ys = .error k) :
    k = .ichr ∨ k = .iseq := by
  unfold decGroup at h
  split at h
  · exact .inl (Except.error.inj h).symm
  · unfold unpackGroup at h
    split at h <;> (try split at h) <;> cases h <;> simp

theorem decStep_keeps_inv {s t : State} (h : Inv s) (ht : decStep s = .next t) : Inv t := by
  obtain ⟨-, -, hcells⟩ := cells_of_wf h.cfg
  rcases decStep_cases s with ⟨-, hr⟩ | ⟨hbusy, -, hr⟩ | ⟨-, hr, -⟩ |
    ⟨hbusy, hlt, ys, hread, ⟨k, hk, hr⟩ | ⟨bs, hbs, hr⟩⟩
  · obtain rfl := Host.Outcome.next.inj (ht.symm.trans hr)
    exact h
  · have hrun := s.dec.busy_eq_true.1 hbusy
    obtain rfl := Host.Outcome.next.inj (ht.symm.trans hr)
    obtain ⟨-, hcap, -, -, hdst, -⟩ := h.dec.latched hrun
    exact h.finish_dec rfl rfl (.running h.dec hrun) (by omega) (hcap ▸ finish_bounds_dec h.decRun hrun)
  · exact nomatch ht.symm.trans hr
  · have hrun := s.dec.busy_eq_true.1 hbusy
    obtain ⟨-, hcap, -, -, hdst, -⟩ := h.dec.latched hrun
    have hkind := decGroup_error_kinds hk
    obtain ⟨k', rfl, hne, -⟩ := decFail_next (hr.symm.trans ht) (by rcases hkind with rfl | rfl <;> decide)
      (by rcases hkind with rfl | rfl <;> decide)
    exact h.raise_dec rfl rfl (.running h.dec hrun) hne (.inl (by omega))
  · have hrun := s.dec.busy_eq_true.1 hbusy
    obtain rfl := Host.Outcome.next.inj (ht.symm.trans hr)
    obtain ⟨hn, hcap, -, -, hdst, -⟩ := h.dec.latched hrun
    obtain ⟨hacc, hroom, hl, -⟩ := h.decRun hrun
    obtain ⟨-, hin, hbound, hopos, hlast⟩ := decGroup_bounds h.decRun hrun hlt (Mem.readBytes_length hread)
      (length_decGroup_le hbs)
    have hcapLe := h.dec.cap
    have hlLe := h.bodyLen
    refine h.of_dec rfl rfl { h.dec with
      dstSorted := Mem.wf_writeBytes h.dec.dstSorted _ _
      dstExists := Mem.writeBytes_lt h.dec.dstExists (.inr (by omega))
      ipos := hin.trans hlLe
      opos := by simp only; omega } (fun _ => ⟨hacc, hroom, hl, hin, hbound, hopos⟩) hlLe

/-! ### The pseudo-operations -/

/-- The size a pseudo-operation allocates, with its terminator, is itself a length (R145). -/
theorem Pseudo.size_succ_le {q : Pseudo} {p : Params} {n e : Nat} (hp : p.wf = true) (hn : n ≤ p.maxLen)
    (he : q.size p n = some e) : e + 1 ≤ p.maxLen := by
  obtain ⟨henc, hdec⟩ := slackByteNeverWraps p n hp hn
  cases q with
  | encStdA | encUrlA => exact henc e he
  | decStdA | decUrlA | decMixA =>
    obtain rfl := Option.some.inj he
    exact hdec

theorem prepare_keeps_inv {u : UnitId} {s : State} (h : Inv s) (hidle : (s.unit u).phase ≠ .run) {bytes : List Byte}
    {cap : Nat} (hlen : bytes.length ≤ s.cfg.maxLen) (hcap : cap ≤ s.cfg.maxLen) : Inv (prepare u bytes cap s) := by
  have hfit : bytes.take (cells s.cfg .src) = [] ∨ 0 + (bytes.take (cells s.cfg .src)).length ≤ cells s.cfg .src :=
    .inr (by rw [List.length_take]; omega)
  exact h.setUnit ((((h.unit u).writeSpace hidle .src hfit).setSrcLen hidle hlen).setDstCap hidle hcap) hidle

theorem collect_keeps_inv {u : UnitId} {cap : Nat} {s : State} (h : Inv s) : Inv (collect u cap s) := by
  unfold collect
  simp only
  split_ifs <;> exact h.host _ _ _

theorem drawOne_keeps_inv {u : UnitId} {s : State} (h : Inv s) (hidle : (s.unit u).phase ≠ .run) :
    Inv (s.drawOne u) :=
  h.setUnit ((h.unit u).setDraw _) hidle

theorem runPseudo_keeps_inv {q : Pseudo} {bytes : List Byte} {e : Nat} {s t : State} (h : Inv s)
    (hidle : (s.unit q.instr.unit).phase ≠ .run) (hlen : bytes.length ≤ s.cfg.maxLen)
    (he : q.size s.cfg bytes.length = some e) (ht : runPseudo q bytes e s = .next t) : Inv t := by
  have hdrawn := drawOne_keeps_inv h hidle
  rcases runPseudo_next ht with ⟨-, rfl⟩ | ⟨-, t', hexec, rfl⟩
  · exact hdrawn.host _ _ _
  · exact collect_keeps_inv (exec_keeps_inv (prepare_keeps_inv hdrawn (by simpa using hidle) (by simpa using hlen)
      (by simpa using Pseudo.size_succ_le h.cfg hlen he)) hexec)

/-! ### The step -/

theorem StepCase.keeps_inv {s t : State} (h : Inv s) (hcase : StepCase s t) : Inv t := by
  cases hcase with
  | same ht => exact ht ▸ h
  | execd i ht => exact exec_keeps_inv h ht
  | issued i ht => exact issue_keeps_inv h ht
  | illegal u w _ ht => exact ht ▸ illegal_keeps_inv h w
  | setSrcLen u v hb hv ht =>
    have hidle := (s.unit u).busy_eq_false.1 hb
    exact ht ▸ h.setUnit ((h.unit u).setSrcLen hidle hv) hidle
  | setDstCap u v hb hv ht =>
    have hidle := (s.unit u).busy_eq_false.1 hb
    exact ht ▸ h.setUnit ((h.unit u).setDstCap hidle hv) hidle
  | replied r ht => exact ht ▸ h.host _ _ _
  | wroteMem u sp i bs hb hv ht =>
    have hidle := (s.unit u).busy_eq_false.1 hb
    exact ht ▸ h.setUnit ((h.unit u).writeSpace hidle sp hv) (by cases sp <;> exact hidle)
  | encStepped ht => exact encStep_keeps_inv h ht
  | decStepped ht => exact decStep_keeps_inv h ht
  | pseudoed q bs e hb hl hz ht => exact runPseudo_keeps_inv h ((s.unit _).busy_eq_false.1 hb) hl hz ht
  | reset ht => exact ht ▸ resetBlock_keeps_inv h

/-- Settles O60: each of the cases of a step keeps the invariant, and taking the move off is no part of it. -/
theorem stepKeepsInvariant : Obligations.StepKeepsInvariant := by
  unfold Obligations.StepKeepsInvariant
  intro s t h ht
  obtain ⟨ms, hcase⟩ := step_cases ht
  exact hcase.keeps_inv (h.host ms s.replies s.owned)

/-! ### Reset and the parameters -/

theorem resetWith_inv {p : Params} (hp : p.wf = true) : Inv (State.resetWith p) where
  cfg := hp
  enc := CodecUnit.reset_inv p
  dec := CodecUnit.reset_inv p
  encRun := fun hrun => nomatch hrun
  decRun := fun hrun => nomatch hrun
  bodyLen := Nat.zero_le _

/-- Settles O59: both units are at the reset table, and the suggested parameters are legal. -/
theorem resetMeetsInvariant : Obligations.ResetMeetsInvariant := by
  unfold Obligations.ResetMeetsInvariant
  exact ⟨fun p hp => resetWith_inv hp, resetWith_inv (by decide)⟩

theorem issue_cfg {i : Instr} {s t : State} (ht : issue i s = .next t) : t.cfg = s.cfg := by
  rcases issue_next ht with hexec | ⟨-, -, rfl⟩ | ⟨-, m, b, -, -, -, -, rfl⟩
  · exact exec_cfg hexec
  · simp
  · simp

@[simp] theorem prepare_cfg (u : UnitId) (bytes : List Byte) (cap : Nat) (s : State) :
    (prepare u bytes cap s).cfg = s.cfg := by simp [prepare]

theorem runPseudo_cfg {q : Pseudo} {bytes : List Byte} {e : Nat} {s t : State} (ht : runPseudo q bytes e s = .next t) :
    t.cfg = s.cfg := by
  rcases runPseudo_next ht with ⟨-, rfl⟩ | ⟨-, t', hexec, rfl⟩
  · simp
  · simpa using exec_cfg hexec

theorem StepCase.cfg_eq {s t : State} (h : StepCase s t) : t.cfg = s.cfg := by
  cases h with
  | same ht => rw [ht]
  | execd i ht => exact exec_cfg ht
  | issued i ht => exact issue_cfg ht
  | illegal u w _ ht => simp [ht]
  | setSrcLen u v _ _ ht => simp [ht]
  | setDstCap u v _ _ ht => simp [ht]
  | replied r ht => simp [ht]
  | wroteMem u sp i bs _ _ ht => simp [ht]
  | encStepped ht =>
    obtain ⟨-, -, hcfg, -⟩ := encStep_local ht s.dec s.decData
    exact hcfg
  | decStepped ht =>
    obtain ⟨-, -, hcfg, -⟩ := decStep_local ht s.enc s.encData
    exact hcfg
  | pseudoed q bs e _ _ _ ht => exact runPseudo_cfg ht
  | reset ht => rw [ht]; rfl

/-- Settles O58: no case of a step touches the parameters. -/
theorem parametersNeverChange : Obligations.ParametersNeverChange := by
  unfold Obligations.ParametersNeverChange
  intro s t ht
  obtain ⟨ms, hcase⟩ := step_cases ht
  exact hcase.cfg_eq

end Sys2Proof.Machine
end

section
/-! The command words (R90 to R93) and the decode tables (R124, R127), for O1, O2, O3, O4 and O6. -/

namespace Sys2Proof.Machine

theorem decode_encode (i : Instr) : decode (encode i) = .ok i := by cases i <;> decide

theorem decodeBytes_encodeBytes (i : Instr) (rest : List Byte) :
    decodeBytes (encodeBytes i ++ rest) = .ok (i, rest) := by
  simp [encodeBytes, decodeBytes, decode_encode]

/-- A command word fits the eight bits of a table row. -/
theorem decodeTableWord_encode (i : Instr) : decodeTableWord 8 (encode i).toNat = some i := by
  have hlt := (encode i).isLt
  have hrow : decodeBytes [encode i] = .ok (i, []) := decodeBytes_encodeBytes i []
  simp [decodeTableWord, Nat.mod_eq_of_lt hlt, hlt, hrow]

/-- Settles O1: an instruction's word decodes back to it, wherever it stands. -/
theorem decodeOfEncode : Obligations.DecodeOfEncode := by
  unfold Obligations.DecodeOfEncode
  intro i rest
  exact ⟨decode_encode i, decodeBytes_encodeBytes i rest, decodeTableWord_encode i⟩

/-- A word that decodes to an instruction is that instruction's word. -/
theorem encode_of_decode (w : Byte) (i : Instr) (h : decode w = .ok i) : encode i = w := by
  have key : ∀ w : Byte, (decode w).toOption.all (fun i => encode i == w) = true := by decide +kernel
  simpa [h, Except.toOption] using key w

/-- The three tests of a well-formed word are the tests of the decoder. -/
theorem wf_iff_decode_isOk : ∀ w : Byte, CommandWord.wf w = (decode w).isOk := by decide +kernel

/-- Settles O2: `encode` and `decode` invert each other on the legal words. -/
theorem onlyTheFiveWordsDecode : Obligations.OnlyTheFiveWordsDecode := by
  unfold Obligations.OnlyTheFiveWordsDecode
  intro w
  refine ⟨fun i => ⟨fun h => (encode_of_decode w i h).symm, fun h => h ▸ decode_encode i⟩, ?_⟩
  rw [wf_iff_decode_isOk]
  cases decode w <;> simp [Except.isOk, Except.toBool]

/-- Settles O3: the five words by their bits. -/
theorem tableWordsDecode : Obligations.TableWordsDecode := by
  unfold Obligations.TableWordsDecode
  decide

/-- Settles O4: what each table accepts is the character of its value. -/
theorem decodeTableInvertsEncodeTable : Obligations.DecodeTableInvertsEncodeTable := by
  unfold Obligations.DecodeTableInvertsEncodeTable
  intro s c
  exact ⟨decTab_std_eq_some_iff c s, decTab_url_eq_some_iff c s⟩

/-- No character of either alphabet is a pad, null, white space or a byte from 0x80. -/
theorem encTab_is_symbol (a : Alphabet) : ∀ s : Sextet,
    ¬(encTab a s = padSymbol ∨ encTab a s = 0x00 ∨ encTab a s = 0x20 ∨ encTab a s = 0x09 ∨ encTab a s = 0x0D ∨
      encTab a s = 0x0A ∨ 0x80 ≤ encTab a s) := by cases a <;> decide +kernel

/-- What a table accepts is a character of one of the alphabets. -/
theorem decTab_some_is_symbol {m : Mode} {c : Byte} {v : Sextet} (h : decTab m c = some v) :
    ∃ a, encTab a v = c := by
  cases m with
  | std => exact ⟨.std, (decTab_std_eq_some_iff c v).1 h⟩
  | url => exact ⟨.url, (decTab_url_eq_some_iff c v).1 h⟩
  | mix =>
    rcases (decTab_mix_eq_some_iff_encTab c v).1 h with hc | hc
    · exact ⟨.std, hc.symm⟩
    · exact ⟨.url, hc.symm⟩

/-- Settles O6: an accepted byte would be a character of an alphabet. -/
theorem nonSymbolsAreInvalid : Obligations.NonSymbolsAreInvalid := by
  unfold Obligations.NonSymbolsAreInvalid
  intro m c hc
  by_contra hsome
  obtain ⟨v, hv⟩ := Option.ne_none_iff_exists'.1 hsome
  obtain ⟨a, rfl⟩ := decTab_some_is_symbol hv
  exact encTab_is_symbol a v hc

end Sys2Proof.Machine
end

section
/-! The characters of a text and the texts a decode accepts (R164, R188, R197, R203, R244, R246, R253), for O13, O17,
O20 to O24. A text that decodes carries in its body exactly the sextets of its bytes. -/

namespace Sys2Proof.Machine

/-! ### Encoded text -/

theorem mem_encText {a : Alphabet} {b : List Byte} {c : Byte} (hc : c ∈ encText a b) :
    (∃ s, encTab a s = c) ∨ (a = .std ∧ c = padSymbol) := by
  rw [encText_eq, List.mem_append] at hc
  rcases hc with hsym | hpad
  · obtain ⟨s, -, rfl⟩ := List.mem_map.1 hsym
    exact .inl ⟨s, rfl⟩
  · cases a with
    | std => exact .inr ⟨rfl, List.eq_of_mem_replicate hpad⟩
    | url => cases hpad

/-- A character of a Standard text that is not one of the last two is a symbol: a text has at most two pads. -/
theorem getElem?_encText_std {b : List Byte} {k : Nat} {c : Byte} (hc : (encText .std b)[k]? = some c) :
    (∃ s, encTab .std s = c) ∨ (c = padSymbol ∧ (encText .std b).length ≤ k + 2) := by
  rcases mem_encText (List.mem_of_getElem? hc) with hsym | ⟨-, rfl⟩
  · exact .inl hsym
  · right
    refine ⟨rfl, ?_⟩
    by_contra hlast
    have hpads := pads_le b.length
    rw [encText_eq] at hc hlast
    rw [List.length_append, length_tailPads_std] at hlast
    rw [List.getElem?_append_left (by omega)] at hc
    exact map_encTab_ne_pad .std _ _ (List.mem_of_getElem? hc) rfl

/-- Settles O13: a character is a symbol or a pad, neither of which is null. -/
theorem encodedTextCharacters : Obligations.EncodedTextCharacters := by
  unfold Obligations.EncodedTextCharacters
  intro b
  refine ⟨fun c hc => ?_, fun k c hc => getElem?_encText_std hc, fun a hnull => ?_⟩
  · simpa using mem_encText hc
  · rcases mem_encText hnull with ⟨s, hs⟩ | ⟨-, hpad⟩
    · exact encTab_ne_zero a s hs
    · exact absurd hpad (by decide)

/-- Settles O17: Mixed decoding gives the bytes back from the text of either alphabet. -/
theorem encodingIsInjective : Obligations.EncodingIsInjective := by
  unfold Obligations.EncodingIsInjective
  intro a b c htext
  have hb := mixedDecodesBothAlphabets .fmt a b
  have hc := mixedDecodesBothAlphabets .fmt a c
  exact Except.ok.inj (hb.symm.trans ((congrArg (decBytes .fmt .mix) htext).trans hc))

/-! ### Symbols and unused bits -/

/-- Settles O20: the lookup of the body fails at the invalid symbol. -/
theorem invalidSymbolIsIllegalCharacter : Obligations.InvalidSymbolIsIllegalCharacter := by
  unfold Obligations.InvalidSymbolIsIllegalCharacter
  rintro k m t hlen hpad ⟨c, hc, hinvalid⟩
  exact decBytes_of_invalid_symbol hlen hpad hc hinvalid

/-- The values that are legal as the second of a 2-symbol tail (R244). -/
theorem legal_second_values :
    (List.range 64).filter (fun n => (BitVec.ofNat 6 n).extractLsb' 0 4 == 0) = [0, 16, 32, 48] := by decide +kernel

/-- How many are legal as the third of a 3-symbol tail (R244). -/
theorem legal_third_count :
    ((List.range 64).filter (fun n => (BitVec.ofNat 6 n).extractLsb' 0 2 == 0)).length = 16 := by decide +kernel

/-- Settles O21: the kind of a body of valid symbols is decided by the unused bits of its last one. -/
theorem unusedBitsMustBeZero : Obligations.UnusedBitsMustBeZero := by
  unfold Obligations.UnusedBitsMustBeZero
  intro k m t c v hlen hpad hvalid hlast hv
  obtain ⟨-, -, htail⟩ := bodyKind_valid (decTab m) (bodyOf t) hvalid
  obtain ⟨htwo, hthree⟩ := htail c v hlast hv
  refine ⟨fun hmod hbits => ?_, fun hmod hbits => ?_, legal_second_values, legal_third_count⟩
  · rw [decBytes_eq k m t hlen hpad, htwo hmod, if_pos hbits]
  · rw [decBytes_eq k m t hlen hpad, hthree hmod, if_pos hbits]

/-- Once the length and pad checks have passed, a text decodes exactly when its body has no kind to fail with. -/
theorem decBytes_isOk_iff {k : UrlPadKind} {m : Mode} {t : List Byte} (hlen : t.length % 4 ≠ 1)
    (hpad : padCheck k m t = none) : (∃ out, decBytes k m t = .ok out) ↔ bodyKind (decTab m) (bodyOf t) = none := by
  rw [decBytes_eq k m t hlen hpad]
  cases bodyKind (decTab m) (bodyOf t) <;> simp

/-- A body without a dangling symbol decodes exactly when its symbols are valid and the unused bits of its tail zero. -/
theorem bodyKind_eq_none_iff {D : Byte → Option Sextet} {body : List Byte} (hlen : body.length % 4 ≠ 1) :
    bodyKind D body = none ↔ (∀ c ∈ body, D c ≠ none) ∧
      ∀ c v, body.getLast? = some c → D c = some v →
        (body.length % 4 = 2 → v.extractLsb' 0 4 = 0) ∧ (body.length % 4 = 3 → v.extractLsb' 0 2 = 0) := by
  by_cases hvalid : ∀ c ∈ body, D c ≠ none
  · obtain ⟨hzero, -, htail⟩ := bodyKind_valid D body hvalid
    constructor
    · intro hnone
      refine ⟨hvalid, fun c v hlast hv => ?_⟩
      obtain ⟨htwo, hthree⟩ := htail c v hlast hv
      constructor <;> intro hmod <;> by_contra hbits
      · rw [htwo hmod, if_pos hbits] at hnone
        cases hnone
      · rw [hthree hmod, if_pos hbits] at hnone
        cases hnone
    · rintro ⟨-, hbits⟩
      by_cases hmod : body.length % 4 = 0
      · exact hzero hmod
      · have hne : body ≠ [] := by rintro rfl; exact hmod rfl
        have hlast := List.getLast?_eq_getLast_of_ne_nil hne
        obtain ⟨v, hv⟩ := Option.ne_none_iff_exists'.1 (hvalid _ (List.getLast_mem hne))
        obtain ⟨htwo, hthree⟩ := htail _ v hlast hv
        obtain ⟨hbits2, hbits3⟩ := hbits _ v hlast hv
        have hcase : body.length % 4 = 2 ∨ body.length % 4 = 3 := by omega
        rcases hcase with h2 | h3
        · rw [htwo h2, if_neg (not_not.2 (hbits2 h2))]
        · rw [hthree h3, if_neg (not_not.2 (hbits3 h3))]
  · refine ⟨fun hnone => ?_, fun h => absurd h.1 hvalid⟩
    push Not at hvalid
    have hlookup := lookupAll_eq_none.2 hvalid
    rw [bodyKind, hlookup] at hnone
    cases hnone

/-- Settles O22: the length check, the pad check, and the body, each in its own terms. -/
theorem acceptedTextsExactly : Obligations.AcceptedTextsExactly := by
  unfold Obligations.AcceptedTextsExactly
  intro k m t
  constructor
  · rintro ⟨out, hout⟩
    obtain ⟨hlen, hpad, -⟩ := decBytes_ok hout
    obtain ⟨hurl, hother⟩ := (padCheck_none_iff k m t).1 hpad
    have hbody := (decBytes_isOk_iff hlen hpad).1 ⟨out, hout⟩
    exact ⟨hlen, hurl, hother, (bodyKind_eq_none_iff (length_bodyOf_mod_ne_one hlen hpad)).1 hbody⟩
  · rintro ⟨hlen, hurl, hother, hbody⟩
    have hpad := (padCheck_none_iff k m t).2 ⟨hurl, hother⟩
    exact (decBytes_isOk_iff hlen hpad).2 ((bodyKind_eq_none_iff (length_bodyOf_mod_ne_one hlen hpad)).2 hbody)

/-! ### The text of a result -/

/-- The body of a text that decodes carries the sextets of its bytes. -/
theorem lookupAll_bodyOf_of_ok {k : UrlPadKind} {m : Mode} {t out : List Byte} (h : decBytes k m t = .ok out) :
    lookupAll (decTab m) (bodyOf t) = some (sextetsOf out) := by
  obtain ⟨-, -, hbody⟩ := decBytes_ok h
  exact lookupAll_of_decBody hbody

theorem length_bodyOf_of_ok {k : UrlPadKind} {m : Mode} {t out : List Byte} (h : decBytes k m t = .ok out) :
    (bodyOf t).length = out.length / 3 * 4 + (if out.length % 3 = 0 then 0 else out.length % 3 + 1) := by
  rw [← length_lookupAll (lookupAll_bodyOf_of_ok h), length_sextetsOf]

/-- Settles O24: the body has four symbols for each three bytes, and its tail one more than its bytes. -/
theorem decodedResultLength : Obligations.DecodedResultLength := by
  unfold Obligations.DecodedResultLength
  intro k m t out h
  have hbody := length_bodyOf_of_ok h
  rw [length_bodyOf] at hbody
  have heq : out.length = decodedLength (t.length - padCount t) := by
    unfold decodedLength
    split_ifs at hbody <;> omega
  refine ⟨heq, heq.le.trans ?_⟩
  unfold decodedLength
  omega

/-- Under STD and MIX the pads of a text that decodes, if it has any, are those that encoding its bytes gives. -/
theorem padCount_of_ok {k : UrlPadKind} {m : Mode} {t out : List Byte} (hm : m ≠ .url)
    (h : decBytes k m t = .ok out) : padCount t = 0 ∨ padCount t = pads out.length := by
  obtain ⟨-, hpad, -⟩ := decBytes_ok h
  obtain ⟨-, hother⟩ := (padCheck_none_iff k m t).1 hpad
  obtain ⟨htwo, hlegal⟩ := hother hm
  have hbody := length_bodyOf_of_ok h
  have hle := padCount_le t
  rw [length_bodyOf] at hbody
  unfold pads
  split_ifs at hbody <;> omega

/-- Under STD and MIX a text that decodes is, symbol by symbol read by `g` as Standard ones, the Standard text of its
bytes, with its pads or without them. -/
theorem map_of_ok {k : UrlPadKind} {m : Mode} {t out : List Byte} (hm : m ≠ .url) (h : decBytes k m t = .ok out)
    {g : Byte → Byte} (hsym : ∀ c s, decTab m c = some s → encTab .std s = g c) (hpad : g padSymbol = padSymbol) :
    t.map g = encText .std out ∨ t.map g = bodyOf (encText .std out) := by
  have hbody : (bodyOf t).map g = (sextetsOf out).map (encTab .std) :=
    (lookupAll_map hsym (lookupAll_bodyOf_of_ok h)).symm
  have hmap : t.map g = (sextetsOf out).map (encTab .std) ++ List.replicate (padCount t) padSymbol := by
    conv_lhs => rw [← bodyOf_append_pads t]
    rw [List.map_append, hbody, List.map_replicate, hpad]
  rcases padCount_of_ok hm h with hzero | hpads
  · right
    rw [hmap, hzero, bodyOf_encText, List.replicate_zero, List.append_nil]
  · left
    rw [hmap, hpads, encText_eq, tailPads_std]

/-- A URL-safe text that decodes is the URL-safe text of its bytes: it has no pads. -/
theorem eq_encText_url_of_ok {k : UrlPadKind} {t out : List Byte} (h : decBytes k .url t = .ok out) :
    t = encText .url out := by
  obtain ⟨-, hpad, -⟩ := decBytes_ok h
  obtain ⟨hurl, -⟩ := (padCheck_none_iff k .url t).1 hpad
  have hbody : (bodyOf t).map id = (sextetsOf out).map (encTab .url) :=
    (lookupAll_map (fun c s hs => encTab_of_decTab_url c s hs) (lookupAll_bodyOf_of_ok h)).symm
  have ht := bodyOf_append_pads t
  rw [hurl rfl, List.replicate_zero, List.append_nil] at ht
  rw [encText_eq, tailPads_url, List.append_nil, ← hbody, ht, List.map_id]

/-- Settles O23: the symbols of a text that decodes are those of its bytes, in the alphabet they are read in. -/
theorem decodedTextIsCanonical : Obligations.DecodedTextIsCanonical := by
  unfold Obligations.DecodedTextIsCanonical
  intro k t out std
  refine ⟨fun h => ?_, eq_encText_url_of_ok, fun h => ?_⟩
  · simpa using map_of_ok (g := id) (by decide) h (fun c s hs => encTab_of_decTab_std c s hs) rfl
  · exact map_of_ok (by decide) h (fun c s hs => encTab_of_decTab_mix c s hs) (by decide)

end Sys2Proof.Machine
end

section
/-! Completions, O25 to O29, and the failures and the frame of an encode, O31 and O35. A success is a result put at
index 0 and finished; a check of an encode's command write that fails raises its kind and writes nothing. -/

namespace Sys2Proof.Machine

/-! ### Completions -/

/-- A ready encode finishes its text (R161, R162). -/
theorem exec_encode_of_ready {i : Instr} {a : Alphabet} (hi : i.encodeAlphabet = some a) {s : State} {b : List Byte}
    {e : Nat} (h : EncReady s b e) :
    exec i s = .next (((s.accept .enc (encode i)).putResult .enc (encText a b)).finish .enc) := by
  cases i <;> cases hi <;> exact runEncode_of_ready h _ _

/-- An encode that finishes its text reports the text's length and shows the text and its terminator. -/
theorem encode_completes {i : Instr} {a : Alphabet} (hi : i.encodeAlphabet = some a) {s : State} {b : List Byte}
    {e len : Nat} (h : EncReady s b e) (hlen : (encText a b).length = len) :
    ∃ t, exec i s = .next t ∧ Succeeded t.enc len ∧ t.enc.cmd = encode i ∧
      t.enc.dst.readBytes 0 (len + 1) = some (encText a b ++ [0x00]) := by
  subst hlen
  refine ⟨_, exec_encode_of_ready hi h, ?_, rfl, ?_⟩
  · exact State.finish_succeeded ((s.accept .enc (encode i)).putResult .enc (encText a b)) .enc
  · exact finish_putResult_reads (s.accept .enc (encode i)) .enc (encText a b)

/-- Settles O25: a Standard text is as long as the size. -/
theorem encStdCompletes : Obligations.EncStdCompletes := by
  unfold Obligations.EncStdCompletes
  intro s b e h
  obtain ⟨rfl, -⟩ := encodedLength_some h.size
  exact encode_completes rfl h (by rw [length_encText_std, h.length])

/-- Settles O26: a URL-safe text is shorter than the size by the pads. -/
theorem encUrlCompletes : Obligations.EncUrlCompletes := by
  unfold Obligations.EncUrlCompletes
  intro s b e h
  obtain ⟨rfl, -⟩ := encodedLength_some h.size
  exact encode_completes rfl h (by rw [length_encText_url, h.length])

/-- A ready decode of an accepted text reports the number of bytes and shows the bytes and the terminator. -/
theorem decode_completes {i : Instr} {m : Mode} (hi : i.decodeMode = some m) {s : State} {t out : List Byte}
    (h : DecReady s t) (hok : decBytes s.cfg.urlPadKind m t = .ok out) :
    ∃ u, exec i s = .next u ∧ Succeeded u.dec out.length ∧ u.dec.cmd = encode i ∧
      u.dec.dst.readBytes 0 (out.length + 1) = some (out ++ [0x00]) := by
  refine ⟨_, (exec_dec hi s).trans (runDecode_of_ok h hok i), ?_, rfl, ?_⟩
  · exact State.finish_succeeded (((s.accept .dec (encode i)).loadBody t).putResult .dec out) .dec
  · exact finish_putResult_reads ((s.accept .dec (encode i)).loadBody t) .dec out

/-- Settles O27: the Standard mode of `decode_completes`. -/
theorem decStdCompletes : Obligations.DecStdCompletes := by
  unfold Obligations.DecStdCompletes
  intro s t out h hok
  exact decode_completes rfl h hok

/-- Settles O28: its URL-safe mode. -/
theorem decUrlCompletes : Obligations.DecUrlCompletes := by
  unfold Obligations.DecUrlCompletes
  intro s t out h hok
  exact decode_completes rfl h hok

/-- Settles O29: its Mixed mode. -/
theorem decMixCompletes : Obligations.DecMixCompletes := by
  unfold Obligations.DecMixCompletes
  intro s t out h hok
  exact decode_completes rfl h hok

/-! ### Failures of an encode -/

/-- An encode that fails a check of its command write reports the kind and writes nothing (R71). -/
theorem encode_fails {i : Instr} {s : State} {k : ErrKind} (hi : i.unit = .enc) (hfree : s.enc.busy = false)
    (hk : encCheck s.cfg (s.enc.accept s.cfg (encode i)) = some k) (hearly : k = .iarg ∨ k = .ovf ∨ k = .cap) :
    ∃ t, exec i s = .next t ∧ FailedWith t.enc k ∧ t.enc.dst = s.enc.dst := by
  rcases exec_cases i s with ⟨a, -, hrun, -⟩ | ⟨m, hdec, -, -⟩
  · refine ⟨_, hrun.trans (runEncode_of_check hfree hk a), State.raise_failedWith _ .enc k, ?_⟩
    rw [State.raise_enc_enc, CodecUnit.ended_dst, failDst_of_early _ _ _ hearly]
    rfl
  · exact absurd (hi.symm.trans hdec) (by decide)

/-- Settles O31: the three checks of the command write, in their order. -/
theorem encodeFailuresInOrder : Obligations.EncodeFailuresInOrder := by
  unfold Obligations.EncodeFailuresInOrder
  intro i s hi hfree
  refine ⟨fun hbad => ?_, fun hsrc hdst hovf => ?_, fun e hsrc hdst hsize hshort => ?_⟩
  · exact encode_fails hi hfree (by rw [encCheck_accept, if_pos hbad]) (.inl rfl)
  · exact encode_fails hi hfree (encCheck_accept_eq_ovf _ hsrc hdst hovf) (.inr (.inl rfl))
  · exact encode_fails hi hfree (encCheck_accept_eq_cap _ hsrc hdst hsize hshort) (.inr (.inr rfl))

/-! ### Frame of an encode -/

/-- Settles O35: a check that fails writes nothing, and a text stays below the capacity with its terminator. -/
theorem encodeFrame : Obligations.EncodeFrame := by
  unfold Obligations.EncodeFrame
  intro i s t hi ht
  rcases exec_cases i s with ⟨a, -, hrun, -⟩ | ⟨m, hdec, -, -⟩
  swap
  · exact absurd (hi.symm.trans hdec) (by decide)
  rw [hrun] at ht
  rcases runEncode_cases a i s with ⟨-, hr⟩ | ⟨-, k, -, hk, hr⟩ | ⟨-, -, hr⟩ | ⟨b, e, hready, hr⟩
  · exact nomatch ht.symm.trans hr
  · obtain rfl := Host.Outcome.next.inj (ht.symm.trans hr)
    have hdst : ((s.accept .enc (encode i)).raise .enc k).enc.dst = s.enc.dst := by
      rw [State.raise_enc_enc, CodecUnit.ended_dst, failDst_of_early _ _ _ hk]
      rfl
    rw [hdst]
    exact ⟨by constructor <;> simp, fun _ _ => rfl, fun _ _ => rfl, fun _ _ _ _ => rfl⟩
  · exact nomatch ht.symm.trans hr
  · obtain rfl := Host.Outcome.next.inj (ht.symm.trans hr)
    have hlt := hready.length_encText_lt a
    refine ⟨by constructor <;> simp, fun c hc => ?_, fun herr => absurd rfl herr, fun _ href c hc => ?_⟩
    · rw [State.finish_enc_enc, CodecUnit.ended_dst, finishDst_read_above _ _ _ hlt hc]
      exact Mem.read_writeBytes_outside (.inr (by omega))
    · rw [State.finish_enc_enc, CodecUnit.ended_dst]
      have hc' : (encText a b).length < c := hc
      rw [finishDst_read_residue (by simpa using href) _ _ hc']
      exact Mem.read_writeBytes_outside (.inr (by omega))

end Sys2Proof.Machine
end

section
/-! The frame of a decode, O36: what each of its ends (`DecodeEnds`) leaves alone. The bytes committed stay below the
capacity, and only a body that fails has committed any. -/

namespace Sys2Proof.Machine

theorem ErrKind.code_injective {k k' : ErrKind} (h : k.code = k'.code) : k = k' := by
  revert h
  cases k <;> cases k' <;> decide

/-- A failure that has committed the bytes `out` changes no byte of DST at or above the capacity (R67). -/
theorem failDst_putResult_read_above (p : Params) (u : UnitId) (k : ErrKind) {x : CodecUnit} {out : List Byte} {a : Nat}
    (hout : out.length ≤ x.hid.cap) (ha : x.hid.cap ≤ a) :
    (failDst p u k { x with dst := x.dst.writeBytes 0 out, hid := { x.hid with opos := out.length } }).read a =
      x.dst.read a := by
  exact (failDst_read_above p u k { x with dst := x.dst.writeBytes 0 out, hid := { x.hid with opos := out.length } }
    ha).trans (Mem.read_writeBytes_outside (.inr (by omega)))

/-- Under `reference` a failure leaves DST as the sequencing left it (R70). -/
theorem failDst_of_reference {p : Params} (hp : p.dstResidue = .reference) (u : UnitId) (k : ErrKind) (x : CodecUnit) :
    failDst p u k x = x.dst := by
  cases k <;> simp [failDst, hp]

/-- What a decode of `s` leaves alone whatever happens (R65, R67, R93). -/
theorem DecodeEnds.frame {m : Mode} {i : Instr} {s t : State} (h : DecodeEnds m i s t) :
    DecCommandFrame (encode i) s t ∧ ∀ a, s.dec.dstCap ≤ a → t.dec.dst.read a = s.dec.dst.read a := by
  cases h with
  | sizes _ => exact ⟨by constructor <;> simp, fun _ _ => rfl⟩
  | check _ _ _ _ => exact ⟨by constructor <;> simp, fun a ha => failDst_read_above _ _ _ _ ha⟩
  | body hready _ _ _ _ =>
    have hlt := hready.length_decBody_lt (decTab m)
    exact ⟨by constructor <;> simp, fun a ha => failDst_putResult_read_above s.cfg .dec _ hlt.le ha⟩
  | success hready hok =>
    have hlt := hready.length_decBody_lt (decTab m)
    rw [decBytes_ok_eq hok] at hlt
    refine ⟨by constructor <;> simp, fun a ha => ?_⟩
    rw [State.finish_dec_dec, CodecUnit.ended_dst, finishDst_read_above _ _ _ hlt ha]
    exact Mem.read_writeBytes_outside (.inr (by omega))

/-- A check of the command write fails for a ready decode only at its length or its pads. -/
theorem CommandCheckFails.of_ready {m : Mode} {s : State} {k : ErrKind} (h : CommandCheckFails m s k) {b : List Byte}
    (hready : DecReady s b) : (k = .fmt ∧ b.length % 4 = 1) ∨
      (b.length % 4 ≠ 1 ∧ padCheck s.cfg.urlPadKind m b = some k) := by
  have hroom := hready.room
  rcases h with ⟨-, hshort⟩ | ⟨rfl, hlen⟩ | ⟨b', hb', hlen, hpad⟩
  · omega
  · exact .inl ⟨rfl, hready.length ▸ hlen⟩
  · obtain rfl : b = b' := Option.some.inj (hready.written.symm.trans hb')
    exact .inr ⟨hlen, hpad⟩

/-- CAP and IARG are reported of no body: they are no kind of it, and CAP is applicable only at a short capacity. -/
theorem Reported.ne_early_of_body {m : Mode} {s : State} {first k : ErrKind} {b : List Byte} (hready : DecReady s b)
    (hbody : bodyKind (decTab m) (bodyOf b) = some first) (hrep : Reported m s first k) : k ≠ .iarg ∧ k ≠ .cap := by
  have hroom := hready.room
  rcases hrep with ⟨-, rfl⟩ | ⟨-, b', hb', hk⟩
  · rcases bodyKind_kinds hbody with rfl | rfl <;> decide
  · obtain ⟨-, -, hshort⟩ := applicable_kinds hk
    rw [Mem.readBytes_length hb'] at hshort
    exact ⟨fun h => absurd (hshort (.inl h)) (by omega), fun h => absurd (hshort (.inr h)) (by omega)⟩

/-- IARG and CAP leave every byte of DST (R71). -/
theorem DecodeEnds.dst_of_early {m : Mode} {i : Instr} {s t : State} (h : DecodeEnds m i s t)
    (herr : t.dec.err = ErrKind.iarg.code ∨ t.dec.err = ErrKind.cap.code) : t.dec.dst = s.dec.dst := by
  have hearly {k : ErrKind} (hk : k.code = ErrKind.iarg.code ∨ k.code = ErrKind.cap.code) : k = .iarg ∨ k = .cap :=
    hk.imp ErrKind.code_injective ErrKind.code_injective
  cases h with
  | sizes _ => rfl
  | check _ _ _ _ => exact failDst_of_early _ _ _ (by have := hearly herr; tauto)
  | body hready _ _ hbody hrep =>
    obtain ⟨hiarg, hcap⟩ := hrep.ne_early_of_body hready hbody
    have := hearly herr
    tauto
  | success _ _ =>
    have hok : codeOk = ErrKind.iarg.code ∨ codeOk = ErrKind.cap.code := herr
    exact absurd hok (by decide)

/-- Under `reference` a success leaves every byte above the terminator (R70). -/
theorem DecodeEnds.dst_of_success {m : Mode} {i : Instr} {s t : State} (h : DecodeEnds m i s t)
    (herr : t.dec.err = codeOk) (href : s.cfg.dstResidue = .reference) {a : Nat} (ha : t.dec.dstLen < a) :
    t.dec.dst.read a = s.dec.dst.read a := by
  cases h with
  | sizes _ => exact absurd herr (ErrKind.code_ne_codeOk .iarg)
  | @check _ k _ _ _ _ => exact absurd herr k.code_ne_codeOk
  | @body _ _ k _ _ _ _ _ => exact absurd herr k.code_ne_codeOk
  | @success b out _ _ =>
    have ha' : out.length < a := ha
    rw [State.finish_dec_dec, CodecUnit.ended_dst, finishDst_read_residue (by simpa using href) _ _ ha']
    exact Mem.read_writeBytes_outside (.inr (by omega))

/-- Under `reference` a failure leaves the bytes that the groups before the failing one committed, none if a check of
the command write failed (R70, R192). -/
theorem DecodeEnds.dst_of_failure {m : Mode} {i : Instr} {s t : State} (h : DecodeEnds m i s t)
    (herr : t.dec.err ≠ codeOk) (href : s.cfg.dstResidue = .reference) :
    (t.dec.dst = s.dec.dst ∧ ∀ b, DecReady s b → b.length % 4 ≠ 1 → padCheck s.cfg.urlPadKind m b ≠ none) ∨
    ∃ b, DecReady s b ∧ b.length % 4 ≠ 1 ∧ padCheck s.cfg.urlPadKind m b = none ∧
      t.dec.dst = s.dec.dst.writeBytes 0 (decBody (decTab m) (bodyOf b)).1 := by
  cases h with
  | sizes hbad =>
    refine .inl ⟨rfl, fun b hready => ?_⟩
    have hsrc := hready.srcFits
    have hdst := hready.dstFits
    omega
  | check _ _ hfail _ =>
    refine .inl ⟨failDst_of_reference (by simpa using href) _ _ _, fun b hready hlen hpad => ?_⟩
    rcases hfail.of_ready hready with ⟨-, hbad⟩ | ⟨-, hsome⟩
    · exact hlen hbad
    · exact nomatch hpad.symm.trans hsome
  | @body b _ _ hready hlen hpad _ _ =>
    exact .inr ⟨b, hready, hlen, hpad, failDst_of_reference (by simpa using href) _ _ _⟩
  | success _ _ => exact absurd rfl herr

/-- The mode of a decode instruction. -/
theorem exec_dec_cases {i : Instr} (hi : i.unit = .dec) : ∃ m, i.decodeMode = some m := by
  cases i with
  | encStd | encUrl => cases hi
  | decStd => exact ⟨.std, rfl⟩
  | decUrl => exact ⟨.url, rfl⟩
  | decMix => exact ⟨.mix, rfl⟩

theorem exec_dec_ends {i : Instr} {m : Mode} (hi : i.decodeMode = some m) {s t : State} (h : exec i s = .next t) :
    s.dec.busy = false ∧ DecodeEnds m i s t := by
  rw [exec_dec hi] at h
  exact runDecode_ends h

/-- Settles O36: each end of a decode, and under `reference` what it has committed. -/
theorem decodeFrame : Obligations.DecodeFrame := by
  unfold Obligations.DecodeFrame
  intro i s t hi ht
  obtain ⟨m, hm⟩ := exec_dec_cases hi
  obtain ⟨-, hend⟩ := exec_dec_ends hm ht
  obtain ⟨hframe, habove⟩ := hend.frame
  refine ⟨hframe, habove, fun herr a => by rw [hend.dst_of_early herr], fun herr href a ha =>
    hend.dst_of_success herr href ha, fun herr href => ?_⟩
  rcases hend.dst_of_failure herr href with ⟨hdst, hnot⟩ | ⟨b, hready, hlen, hpad, hdst⟩
  · refine ⟨fun _ a => by rw [hdst], fun m' b hm' _ => ⟨fun _ a => by rw [hdst], fun hready hlen hpad => ?_⟩⟩
    obtain rfl := Option.some.inj (hm.symm.trans hm')
    exact absurd hpad (hnot b hready hlen)
  · have hroom := hready.room
    have hlength := hready.length
    refine ⟨fun hbad => by omega, fun m' b' hm' hb' => ?_⟩
    obtain rfl := Option.some.inj (hm.symm.trans hm')
    obtain rfl : b = b' := Option.some.inj (hready.written.symm.trans hb')
    refine ⟨fun hbad => absurd hpad hbad, fun _ _ _ => ?_⟩
    rw [hdst]
    exact ⟨Mem.readBytes_writeBytes _ _ _, fun a ha => Mem.read_writeBytes_outside (.inr (by omega))⟩

end Sys2Proof.Machine
end

section
/-! The kinds that the instructions end with: O18, O32, O33 and O34. -/

namespace Sys2Proof.Machine

/-! ### The codes -/

theorem code_mem_of_encode_kind {k : ErrKind} (hk : k = .iarg ∨ k = .ovf ∨ k = .cap) :
    k.code ∈ ([0, 1, 5, 7] : List (BitVec 4)) := by
  rcases hk with rfl | rfl | rfl <;> decide

theorem code_mem_of_decode_kind {k : ErrKind} (hnomem : k ≠ .nomem) (hovf : k ≠ .ovf) :
    k.code ∈ ([0, 1, 2, 3, 4, 5] : List (BitVec 4)) := by
  cases k with
  | iarg | fmt | ichr | iseq | cap => decide
  | nomem => exact absurd rfl hnomem
  | ovf => exact absurd rfl hovf

/-- Settles O34: the kinds of the encoder's checks, and those of the decoder's. -/
theorem codesOfEachInstruction : Obligations.CodesOfEachInstruction := by
  unfold Obligations.CodesOfEachInstruction
  intro i s t ht
  rcases exec_cases i s with ⟨a, hi, hrun, -⟩ | ⟨m, hi, hrun, -⟩ <;> rw [hrun] at ht
  · refine ⟨fun _ => ?_, fun hdec => absurd (hi.symm.trans hdec) (by decide)⟩
    rcases runEncode_cases a i s with ⟨-, hr⟩ | ⟨-, k, -, hk, hr⟩ | ⟨-, -, hr⟩ | ⟨b, e, -, hr⟩ <;>
      cases ht.symm.trans hr
    · exact code_mem_of_encode_kind hk
    · exact List.mem_cons_self
  · refine ⟨fun henc => absurd (hi.symm.trans henc) (by decide), fun _ => ?_⟩
    obtain ⟨-, d, out, -, ⟨k, rfl, -, hnomem, hovf, -⟩ | ⟨-, rfl⟩⟩ := runDecode_next ht
    · exact code_mem_of_decode_kind hnomem hovf
    · exact List.mem_cons_self

/-! ### Failures of a decode -/

/-- A free decode of a written text always ends in a next state. -/
theorem runDecode_total {s : State} {b : List Byte} (hfree : s.dec.busy = false)
    (hb : s.dec.src.readBytes 0 s.dec.srcLen = some b) (m : Mode) (i : Instr) :
    ∃ t, runDecode m i s = .next t := by
  have hfail {k : ErrKind} {r : State} (hr : runDecode m i s = decFail m k r) (hsrc : sourceBytes r.dec = some b) :
      ∃ t, runDecode m i s = .next t := by
    rcases decFail_cases m k r with ⟨-, hnone, -⟩ | ⟨k', hnext, -⟩
    · exact nomatch hsrc.symm.trans hnone
    · exact ⟨_, hr.trans hnext⟩
  rcases runDecode_cases m i s with ⟨hbusy, -⟩ | ⟨-, -, hr⟩ | ⟨-, -, -, -, hr⟩ | ⟨-, -, -, -, -, hr⟩ | ⟨-, hnone, -⟩ |
    ⟨b', k, -, -, -, hr⟩ | ⟨b', k, -, -, -, -, hr⟩ | ⟨b', out, -, -, -, -, hr⟩
  · exact absurd (hfree.symm.trans hbusy) (by decide)
  · exact ⟨_, hr⟩
  · exact hfail hr hb
  · exact hfail hr hb
  · exact nomatch hb.symm.trans hnone
  · exact hfail hr hb
  · exact hfail hr hb
  · exact ⟨_, hr⟩

/-- A decode that ends otherwise than with success reports a kind: IARG for the sizes, else one that the policy allows
where `first` is the first failing check. -/
inductive DecodeFailure (m : Mode) (s : State) (k : ErrKind) : Prop where
  | sizes (hbad : s.cfg.srcSize < s.dec.srcLen ∨ s.cfg.dstSize < s.dec.dstCap) (hk : k = .iarg)
  | cap (hshort : s.dec.dstCap < decodedLength s.dec.srcLen + 1) (hrep : Reported m s .cap k)
  | text {first : ErrKind} (hrep : Reported m s first k)
      (hfirst : ∀ b, s.dec.src.readBytes 0 s.dec.srcLen = some b →
        decBytes s.cfg.urlPadKind m b = .error first ∧ first ∈ applicable s.cfg m b s.dec.dstCap)

theorem DecodeEnds.failure {m : Mode} {i : Instr} {s t : State} (h : DecodeEnds m i s t) :
    (∃ b out, DecReady s b ∧ decBytes s.cfg.urlPadKind m b = .ok out ∧ t.dec.err = codeOk) ∨
      ∃ k, FailedWith t.dec k ∧ DecodeFailure m s k := by
  cases h with
  | sizes hbad => exact .inr ⟨.iarg, State.raise_failedWith _ .dec _, .sizes hbad rfl⟩
  | @check first k _ _ hfail hrep =>
    refine .inr ⟨k, State.raise_failedWith _ .dec _, ?_⟩
    rcases hfail with ⟨rfl, hshort⟩ | ⟨rfl, hlen⟩ | ⟨b, hb, hlen, hpad⟩
    · exact .cap hshort hrep
    · refine .text hrep fun b hb => ?_
      have hlen' : b.length % 4 = 1 := by rw [Mem.readBytes_length hb, hlen]
      exact ⟨decBytes_of_banned_length _ m hlen', fmt_mem_applicable m _ hlen'⟩
    · refine .text hrep fun b' hb' => ?_
      obtain rfl := Option.some.inj (hb.symm.trans hb')
      exact ⟨decBytes_of_padCheck hlen hpad, mem_applicable_of_padCheck _ hpad⟩
  | @body b first k hready hlen hpad hbody hrep =>
    refine .inr ⟨k, State.raise_failedWith _ .dec _, .text hrep fun b' hb' => ?_⟩
    obtain rfl := Option.some.inj (hready.written.symm.trans hb')
    exact ⟨by rw [decBytes_eq _ m b hlen hpad, hbody], mem_applicable_of_bodyKind _ hlen hpad hbody⟩
  | @success b out hready hok => exact .inl ⟨b, out, hready, hok, rfl⟩

/-- The kind a failed decode reports is IARG, for its sizes, or applicable. -/
theorem DecodeFailure.mem_applicable {m : Mode} {s : State} {k : ErrKind} (h : DecodeFailure m s k) {b : List Byte}
    (hb : s.dec.src.readBytes 0 s.dec.srcLen = some b) :
    (k = .iarg ∧ (s.cfg.srcSize < s.dec.srcLen ∨ s.cfg.dstSize < s.dec.dstCap)) ∨
      k ∈ applicable s.cfg m b s.dec.dstCap := by
  cases h with
  | sizes hbad hk => exact .inl ⟨hk, hbad⟩
  | cap hshort hrep =>
    exact .inr (hrep.mem_applicable hb (cap_mem_applicable m (by rwa [Mem.readBytes_length hb])))
  | text hrep hfirst => exact .inr (hrep.mem_applicable hb (hfirst b hb).2)

/-- Under `in_order` a ready decode of a text that `dec_bytes` rejects reports the kind of `dec_bytes`. -/
theorem DecodeFailure.kind_eq {m : Mode} {s : State} {k k' : ErrKind} (h : DecodeFailure m s k')
    (hin : s.cfg.jointErr = .inOrder) {b : List Byte} (hready : DecReady s b)
    (hk : decBytes s.cfg.urlPadKind m b = .error k) : k' = k := by
  have hsrc := hready.srcFits
  have hdst := hready.dstFits
  have hroom := hready.room
  cases h with
  | sizes hbad _ => omega
  | cap hshort _ => omega
  | text hrep hfirst =>
    obtain ⟨herr, -⟩ := hfirst b hready.written
    rcases hrep with ⟨-, rfl⟩ | ⟨hany, -⟩
    · exact Except.error.inj (herr.symm.trans hk)
    · exact nomatch hin.symm.trans hany

/-- Settles O18: the length is checked before any symbol is looked at. -/
theorem lengthBan : Obligations.LengthBan := by
  unfold Obligations.LengthBan
  refine ⟨fun k m t hlen => decBytes_of_banned_length k m hlen, fun i s hi hfree hsrc hdst hroom hin hlen => ?_⟩
  obtain ⟨m, hm⟩ := exec_dec_cases hi
  refine ⟨_, ?_, State.raise_failedWith (s.accept .dec (encode i)) .dec .fmt⟩
  rw [exec_dec hm, runDecode_of_banned_length hfree hsrc hdst hroom hlen]
  exact decFail_inOrder (by simpa using hin) m .fmt

/-- Settles O32: the sizes and the capacity are checked first, and then the text fails as `dec_bytes` says. -/
theorem decodeFailuresInOrder : Obligations.DecodeFailuresInOrder := by
  unfold Obligations.DecodeFailuresInOrder
  intro i m s hm hfree
  rw [exec_dec hm]
  refine ⟨fun hbad => ?_, fun hin => ⟨fun hsrc hdst hshort => ?_, fun t k hready hk => ?_⟩⟩
  · exact ⟨_, runDecode_of_badSizes hfree hbad m i, State.raise_failedWith _ .dec _, rfl⟩
  · refine ⟨_, ?_, State.raise_failedWith (s.accept .dec (encode i)) .dec .cap, rfl⟩
    rw [runDecode_of_short hfree hsrc hdst hshort]
    exact decFail_inOrder (by simpa using hin) m .cap
  · obtain ⟨u, hu⟩ := runDecode_total hready.free hready.written m i
    obtain ⟨-, hend⟩ := runDecode_ends hu
    obtain ⟨-, habove⟩ := hend.frame
    rcases hend.failure with ⟨b, out, hready', hok, -⟩ | ⟨k', hfailed, hfailure⟩
    · obtain rfl := Option.some.inj (hready.written.symm.trans hready'.written)
      exact nomatch hok.symm.trans hk
    · exact ⟨u, hu, hfailure.kind_eq hin hready hk ▸ hfailed, habove⟩

/-- Settles O33: the kind reported is the first failing one or freely one of the applicable ones, and the first is
applicable. -/
theorem reportedKindIsApplicable : Obligations.ReportedKindIsApplicable := by
  unfold Obligations.ReportedKindIsApplicable
  intro i m s t hm ht
  rw [exec_dec hm]
  constructor
  · intro hfree hsrc hdst hbad
    obtain ⟨u, hu⟩ := runDecode_total hfree ht m i
    obtain ⟨-, hend⟩ := runDecode_ends hu
    rcases hend.failure with ⟨b, out, hready, hok, -⟩ | ⟨k, hfailed, hfailure⟩
    · exfalso
      have hroom := hready.room
      obtain rfl := Option.some.inj (ht.symm.trans hready.written)
      rcases hbad with hshort | ⟨k, hk⟩
      · omega
      · exact nomatch hok.symm.trans hk
    · rcases hfailure.mem_applicable ht with ⟨-, hsizes⟩ | hmem
      · omega
      · exact ⟨u, k, hu, hmem, hfailed⟩
  · intro u hu herr
    obtain ⟨-, hend⟩ := runDecode_ends hu
    rcases hend.failure with ⟨b, out, -, -, hok⟩ | ⟨k, hfailed, hfailure⟩
    · exact absurd hok herr
    · rcases hfailure.mem_applicable ht with ⟨rfl, -⟩ | hmem
      · exact .inl hfailed.err
      · exact .inr ⟨k, hmem, hfailed.err⟩

end Sys2Proof.Machine
end

section
/-! One step of the machine on each of the host's moves: O37 to O45. The first pending move is taken off and run
(`step_of_moves`); what it does is then read off the move's own definition. -/

namespace Sys2Proof.Machine

/-- A step takes the first pending move off and runs it. -/
theorem step_of_moves {s : State} {m : Move} {rest : List Move} (h : s.moves = m :: rest) :
    step s = runMove m { s with moves := rest } := by
  simp [step, advance, h]

@[simp] theorem State.unit_withMoves (s : State) (ms : List Move) (u : UnitId) :
    State.unit { s with moves := ms } u = s.unit u := by cases u <;> rfl

/-! ### Command writes -/

/-- The host's write of a command word, as a byte, is the command write of that word. -/
theorem runMove_write_cmd (u : UnitId) (w : Byte) (s : State) :
    runMove (.write u .cmd w.toNat) s = commandWrite u w s := by
  simp [runMove, hostWrite, w.isLt]

theorem commandWrite_of_accepted {u : UnitId} {w : Byte} {i : Instr} (h : accepted u w = some i) (s : State) :
    commandWrite u w s = exec i s := by
  simp [commandWrite, h]

/-- The unit whose number is a legal word's DIR accepts it (R92). -/
theorem accepted_of_decode {w : Byte} {i : Instr} (h : decode w = .ok i) : accepted i.unit w = some i := by
  simp [accepted, h]

/-- Settles O38: the move is the command write of a word that the unit accepts. -/
theorem stepRunsDecodedCommand : Obligations.StepRunsDecodedCommand := by
  unfold Obligations.StepRunsDecodedCommand
  intro s i w rest hw hmoves
  rw [step_of_moves hmoves, runMove_write_cmd, commandWrite_of_accepted (accepted_of_decode hw)]

/-- The move that fetches an instruction is the host's write of its word to its unit. -/
theorem fetchMove_encode (i : Instr) : fetchMove 8 (encode i).toNat = .write i.unit .cmd (encode i).toNat := by
  cases i <;> decide

/-- Settles O39: the fetched word is written by the first move. -/
theorem fetchedWordRunsNext : Obligations.FetchedWordRunsNext := by
  unfold Obligations.FetchedWordRunsNext
  intro s i
  have hmoves : (s.withFetchWord 8 (encode i).toNat).moves = .write i.unit .cmd (encode i).toNat :: s.moves := by
    rw [State.withFetchWord, fetchMove_encode]
  exact stepRunsDecodedCommand _ i (encode i) s.moves (decode_encode i) hmoves

/-- A word the unit does not accept, written or issued to a free unit, is stored and raises IARG (R93, R262). -/
theorem step_of_unaccepted {u : UnitId} {w : Byte} {s : State} {rest : List Move} {issued : Bool}
    (hw : accepted u w = none) (hfree : (s.unit u).busy = false)
    (hmoves : s.moves = (if issued then .issue u w else .write u .cmd w.toNat) :: rest) :
    step s = .next ((State.accept { s with moves := rest } u w).raise u .iarg) := by
  rw [step_of_moves hmoves]
  cases issued with
  | true => simp only [if_true, runMove, issueWrite, hw, illegalCommand, State.unit_withMoves, hfree]; rfl
  | false =>
    simp only [Bool.false_eq_true, if_false, runMove_write_cmd, commandWrite, hw, illegalCommand,
      State.unit_withMoves, hfree]

/-- Settles O37: the unit accepts the word only to raise IARG, which writes nothing. -/
theorem unacceptedWordReportsIarg : Obligations.UnacceptedWordReportsIarg := by
  unfold Obligations.UnacceptedWordReportsIarg
  intro s w rest issued
  constructor
  · intro hw hfree hmoves
    have hfailed := State.raise_failedWith (State.accept { s with moves := rest } .enc w) .enc .iarg
    exact ⟨_, step_of_unaccepted hw hfree hmoves, hfailed, hfailed.status, by constructor <;> simp, rfl⟩
  · intro hw hfree hmoves
    have hfailed := State.raise_failedWith (State.accept { s with moves := rest } .dec w) .dec .iarg
    exact ⟨_, step_of_unaccepted hw hfree hmoves, hfailed, hfailed.status, by constructor <;> simp, rfl⟩

/-! ### A quiet machine, and reset -/

theorem idleStep_of_free {s : State} (henc : s.enc.busy = false) (hdec : s.dec.busy = false) :
    idleStep s = .next s := by
  simp only [idleStep, henc, hdec, Bool.false_eq_true, if_false]

theorem step_of_no_moves {s : State} (h : s.moves = []) : step s = idleStep s := by
  simp [step, advance, h]

/-- Settles O40: without a move only a unit in RUN steps, and after reset none is. -/
theorem quietMachineStays : Obligations.QuietMachineStays := by
  unfold Obligations.QuietMachineStays
  have hquiet (s : State) (hmoves : s.moves = []) (henc : s.enc.busy = false) (hdec : s.dec.busy = false) :
      step s = .next s := by
    rw [step_of_no_moves hmoves, idleStep_of_free henc hdec]
  exact ⟨hquiet, fun p => hquiet _ rfl rfl rfl⟩

/-- STATUS of a unit that has no result (R29). -/
theorem CodecUnit.status_of_idle {x : CodecUnit} (hphase : x.phase = .idle) (herr : x.err = 0) : x.status = 0 := by
  unfold CodecUnit.status CodecUnit.isDone CodecUnit.busy
  rw [hphase, herr]
  decide

/-- Settles O45: reset puts the unit of the reset table there, but for its counter of free values. -/
theorem resetAtAnyTime : Obligations.ResetAtAnyTime := by
  unfold Obligations.ResetAtAnyTime
  intro s u rest hmoves
  refine ⟨_, step_of_moves hmoves, rfl, ?_⟩
  cases u <;>
    exact ⟨rfl, CodecUnit.status_of_idle rfl rfl, rfl, rfl, rfl, rfl, rfl, fun _ => ⟨rfl, rfl⟩⟩

/-! ### A busy unit -/

theorem encStart_of_busy {s : State} (h : s.enc.busy = true) (i : Instr) :
    encStart i s = .ended (.refused (.hostAccessWhileBusy .enc)) := by
  simp only [encStart, h, if_true]

theorem decStart_of_busy {s : State} (h : s.dec.busy = true) (m : Mode) (i : Instr) :
    decStart m i s = .ended (.refused (.hostAccessWhileBusy .dec)) := by
  simp only [decStart, h, if_true]

theorem exec_of_busy {i : Instr} {s : State} (h : (s.unit i.unit).busy = true) :
    exec i s = .refused (.hostAccessWhileBusy i.unit) := by
  rcases exec_cases i s with ⟨a, hi, hrun, -⟩ | ⟨m, hi, hrun, -⟩ <;> rw [hi] at h ⊢ <;> rw [hrun]
  · simp only [runEncode, encStart_of_busy h]
  · simp only [runDecode, decStart_of_busy h]

theorem issue_of_busy {i : Instr} {s : State} (h : (s.unit i.unit).busy = true) :
    issue i s = .refused (.hostAccessWhileBusy i.unit) := by
  cases i with
  | encStd | encUrl => simp only [issue, issueEncode, encStart_of_busy h, Instr.unit]
  | decStd | decUrl | decMix => simp only [issue, issueDecode, decStart_of_busy h, Instr.unit]

section
variable {u : UnitId} {s : State} (h : (s.unit u).busy = true)
include h

theorem illegalCommand_of_busy (w : Byte) : illegalCommand u w s = .refused (.hostAccessWhileBusy u) := by
  simp only [illegalCommand, h, if_true]

theorem commandWrite_of_busy (w : Byte) : commandWrite u w s = .refused (.hostAccessWhileBusy u) := by
  cases hw : accepted u w with
  | none => simp only [commandWrite, hw, illegalCommand_of_busy h]
  | some i =>
    obtain ⟨-, rfl⟩ := accepted_some hw
    rw [commandWrite_of_accepted hw, exec_of_busy h]

theorem issueWrite_of_busy (w : Byte) : issueWrite u w s = .refused (.hostAccessWhileBusy u) := by
  cases hw : accepted u w with
  | none => simp only [issueWrite, hw, illegalCommand_of_busy h]
  | some i =>
    obtain ⟨-, rfl⟩ := accepted_some hw
    simp only [issueWrite, hw, issue_of_busy h]

/-- Each access that R310 names is refused. -/
theorem runMove_refused_of_busy {m : Move}
    (hm : (∃ v, v < 256 ∧ m = .write u .cmd v) ∨ (∃ w, m = .issue u w) ∨ (∃ v, m = .write u .srcLen v) ∨
      (∃ v, m = .write u .dstCap v) ∨ (∃ sp i bs, m = .writeMem u sp i bs) ∨ (∃ i n, m = .readMem u .dst i n) ∨
      m = .read u .dstLen) : runMove m s = .refused (.hostAccessWhileBusy u) := by
  rcases hm with ⟨v, hv, rfl⟩ | ⟨w, rfl⟩ | ⟨v, rfl⟩ | ⟨v, rfl⟩ | ⟨sp, i, bs, rfl⟩ | ⟨i, n, rfl⟩ | rfl
  · simp only [runMove, hostWrite, hv, if_true, commandWrite_of_busy h]
  · simp only [runMove, issueWrite_of_busy h]
  · simp only [runMove, hostWrite, h, if_true]
  · simp only [runMove, hostWrite, h, if_true]
  · simp only [runMove, hostWriteMem, h, if_true]
  · simp only [runMove, hostReadMem, h, and_self, if_true]
  · simp only [runMove, hostRead, h, and_self, if_true]

end

/-! ### Register accesses -/

/-- A read of a register other than DST_LEN is answered at any time (R224). -/
theorem step_read {s : State} {u : UnitId} {r : Reg} {rest : List Move} (hmoves : s.moves = .read u r :: rest)
    (hr : r ≠ .dstLen ∨ (s.unit u).busy = false) :
    step s = .next { s with moves := rest, replies := s.replies ++ [.value (regValue (s.unit u) r)] } := by
  have hanswer : ¬(r = .dstLen ∧ (s.unit u).busy = true) := fun ⟨hd, hb⟩ => by
    rcases hr with hr | hr
    · exact hr hd
    · exact absurd (hr.symm.trans hb) (by decide)
  rw [step_of_moves hmoves]
  simp only [runMove, hostRead, State.unit_withMoves, hanswer, if_false]
  rfl

/-- A write of SRC_LEN to a unit that is not busy sets it (R27). -/
theorem step_write_srcLen {s : State} {u : UnitId} {v : Nat} {rest : List Move} (hv : v ≤ s.cfg.maxLen)
    (hfree : (s.unit u).busy = false) (hmoves : s.moves = .write u .srcLen v :: rest) :
    step s = .next (State.setUnit { s with moves := rest } u { s.unit u with srcLen := v }) := by
  rw [step_of_moves hmoves]
  simp only [runMove, hostWrite, State.unit_withMoves, hfree, hv, Bool.false_eq_true, if_false, if_true]

/-- A write of DST_CAP to a unit that is not busy sets it (R28). -/
theorem step_write_dstCap {s : State} {u : UnitId} {v : Nat} {rest : List Move} (hv : v ≤ s.cfg.maxLen)
    (hfree : (s.unit u).busy = false) (hmoves : s.moves = .write u .dstCap v :: rest) :
    step s = .next (State.setUnit { s with moves := rest } u { s.unit u with dstCap := v }) := by
  rw [step_of_moves hmoves]
  simp only [runMove, hostWrite, State.unit_withMoves, hfree, hv, Bool.false_eq_true, if_false, if_true]

/-- Settles O42: the writes of either unit, and the reads that are always answered. -/
theorem hostWritesOperandRegisters : Obligations.HostWritesOperandRegisters := by
  unfold Obligations.HostWritesOperandRegisters
  intro s v rest hv
  refine ⟨fun hfree => ⟨step_write_srcLen (u := .enc) hv hfree, step_write_dstCap (u := .enc) hv hfree⟩,
    fun hfree => ⟨step_write_srcLen (u := .dec) hv hfree, step_write_dstCap (u := .dec) hv hfree⟩, fun u => ?_⟩
  exact ⟨fun hm => step_read hm (.inl (by decide)), fun hm => step_read hm (.inl (by decide)),
    fun hm => step_read hm (.inl (by decide))⟩

/-- Settles O41: the accesses named, and STATUS, which is always read. -/
theorem busyUnitRefusesHost : Obligations.BusyUnitRefusesHost := by
  unfold Obligations.BusyUnitRefusesHost
  intro s u rest hbusy
  refine ⟨fun m hmoves hm => ?_, fun hmoves herr => ?_⟩
  · rw [step_of_moves hmoves]
    exact runMove_refused_of_busy (by simpa using hbusy) hm
  · have hstatus : (s.unit u).status = 0x01 := by
      rw [CodecUnit.status_of_run _ ((s.unit u).busy_eq_true.1 hbusy), herr]
      decide
    rw [step_read hmoves (.inl (by decide)), regValue, hstatus]
    rfl

/-! ### Results and memory -/

/-- Settles O43: a unit at DONE is not busy, so every read is answered. -/
theorem hostCollectsResult : Obligations.HostCollectsResult := by
  unfold Obligations.HostCollectsResult
  intro s u rest n bs hdone hn hread
  have hfree : (s.unit u).busy = false := by
    rw [CodecUnit.busy_eq_false, (s.unit u).isDone_eq_true.1 hdone]
    decide
  refine ⟨fun hm => step_read hm (.inr hfree), fun hm => ?_, fun hm => step_read hm (.inr hfree), fun hm => ?_⟩
  · rw [step_of_moves hm]
    simp only [runMove, State.unit_withMoves, hdone, if_true]
    rfl
  · have hcells : n = 0 ∨ 0 + n ≤ cells s.cfg .dst := .inr (by omega)
    rw [step_of_moves hm]
    simp only [runMove, hostReadMem, State.unit_withMoves, hfree, Bool.false_eq_true, and_false, if_false, hcells,
      if_true, CodecUnit.space, hread]
    rfl

@[simp] theorem CodecUnit.space_setSpace (x : CodecUnit) (sp : Space) (m : Mem) : (x.setSpace sp m).space sp = m := by
  cases sp <;> rfl

/-- Settles O44: the host's write is a run of writes to the space. -/
theorem hostMemoryWriteReadsBack : Obligations.HostMemoryWriteReadsBack := by
  unfold Obligations.HostMemoryWriteReadsBack
  intro s u sp i bs rest hfree hfit hmoves
  refine ⟨State.setUnit { s with moves := rest } u
    ((s.unit u).setSpace sp (((s.unit u).space sp).writeBytes i bs)), ?_, ?_⟩
  · rw [step_of_moves hmoves]
    simp only [runMove, hostWriteMem, State.unit_withMoves, hfree, Bool.false_eq_true, if_false, hfit, or_true, if_true]
  · simp only [State.unit_setUnit, CodecUnit.space_setSpace]
    exact ⟨Mem.readBytes_writeBytes _ _ _, fun a ha => Mem.read_writeBytes_outside ha, fun hwf =>
      Mem.wf_writeBytes hwf _ _⟩

end Sys2Proof.Machine
end

section
/-! The step of the command write alone, O46, O47 and O52: a ready operation is accepted and left in RUN. -/

namespace Sys2Proof.Machine

/-- The Issue step of a ready encode leaves the accepted unit in RUN (R155, R222). -/
theorem issue_of_encReady {i : Instr} {s : State} {b : List Byte} {e : Nat} (hi : i.unit = .enc)
    (h : EncReady s b e) : issue i s = .next (s.accept .enc (encode i)) := by
  cases i with
  | encStd | encUrl => simp only [issue, issueEncode, encStart_of_ready h]
  | decStd | decUrl | decMix => cases hi

/-- The Issue step of a decode whose text passes the checks leaves the accepted unit in RUN, its body loaded (R183,
R222). -/
theorem issue_of_decReady {i : Instr} {m : Mode} {s : State} {t : List Byte} (hm : i.decodeMode = some m)
    (h : DecReady s t) (hlen : t.length % 4 ≠ 1) (hpad : padCheck s.cfg.urlPadKind m t = none) :
    issue i s = .next ((s.accept .dec (encode i)).loadBody t) := by
  cases i <;> cases hm <;> simp only [issue, issueDecode, decStart_of_ready h hlen hpad]

theorem CodecUnit.status_accept (p : Params) (w : Byte) (x : CodecUnit) : (x.accept p w).status = 0x01 := by
  rw [CodecUnit.status_of_run _ rfl, CodecUnit.accept_err]
  decide

/-- Settles O46: the accepted unit, field by field. -/
theorem issueLatchesOperands : Obligations.IssueLatchesOperands := by
  unfold Obligations.IssueLatchesOperands
  intro i s b e hi h
  exact ⟨_, issue_of_encReady hi h, rfl, s.enc.status_accept s.cfg _, rfl, rfl, by constructor <;> simp, rfl⟩

/-- A text that passes the pad check has at most two trailing pads. -/
theorem padCount_le_two {k : UrlPadKind} {m : Mode} {t : List Byte} (h : padCheck k m t = none) : padCount t ≤ 2 := by
  obtain ⟨hurl, hother⟩ := (padCheck_none_iff k m t).1 h
  by_cases hm : m = .url
  · rw [hurl hm]
    decide
  · exact (hother hm).1

/-- The two bits of D.P hold the count of at most two pads. -/
theorem toNat_padCountSaturated {t : List Byte} (h : padCount t ≤ 2) :
    (BitVec.ofNat 2 (padCountSaturated t)).toNat = padCount t := by
  rw [padCountSaturated_eq, BitVec.toNat_ofNat]
  omega

/-- Settles O47: the accepted unit with the pad count and the body length loaded. -/
theorem issueLoadsBody : Obligations.IssueLoadsBody := by
  unfold Obligations.IssueLoadsBody
  intro i m s t hm h hlen hpad
  have htwo := padCount_le_two hpad
  refine ⟨_, issue_of_decReady hm h hlen hpad, rfl, s.dec.status_accept s.cfg _, rfl, rfl, ?_, htwo, ?_, rfl, rfl, rfl,
    rfl⟩
  · exact toNat_padCountSaturated htwo
  · rw [State.loadBody_l, h.length]

/-- Settles O52: an Issue step that does not leave its unit in RUN is the whole operation. -/
theorem failedIssueIsWholeOperation : Obligations.FailedIssueIsWholeOperation := by
  unfold Obligations.FailedIssueIsWholeOperation
  intro i s t hissue hfree
  rcases issue_next hissue with hexec | ⟨hi, -, rfl⟩ | ⟨hi, m, b, -, -, -, -, rfl⟩
  · exact hexec
  · rw [hi] at hfree
    cases hfree
  · rw [hi] at hfree
    cases hfree

end Sys2Proof.Machine
end

section
/-! One step of a unit: O48, O49, O54 and O56. What a step does is said once for FINISH, a group and a failing group. -/

namespace Sys2Proof.Machine

/-! ### One group of the encoder -/

section
variable {s : State} (hbusy : s.enc.busy = true)
include hbusy

theorem encStep_finish (hend : s.enc.hid.n ≤ s.enc.hid.ipos) : encStep s = .next (s.finish .enc) := by
  simp only [encStep, hbusy, if_true, Nat.sub_eq_zero_of_le hend]

theorem encStep_group (hlt : s.enc.hid.ipos < s.enc.hid.n) {bs : List Byte}
    (hread : s.enc.src.readBytes s.enc.hid.ipos (min 3 (s.enc.hid.n - s.enc.hid.ipos)) = some bs) {a : Alphabet}
    (ha : opAlphabet s.enc.hid.op = a) :
    encStep s = .next { s with
      encData := encGroup a bs s.encData
      enc := { s.enc with
        dst := s.enc.dst.writeBytes s.enc.hid.opos (groupOut a bs.length (encGroup a bs s.encData))
        hid := { s.enc.hid with
          ipos := s.enc.hid.ipos + bs.length
          opos := s.enc.hid.opos + (groupOut a bs.length (encGroup a bs s.encData)).length } } } := by
  have hne : ¬(s.enc.hid.n - s.enc.hid.ipos = 0) := by omega
  simp only [encStep, hbusy, if_true, hne, if_false, hread, ha]

end

/-- The characters of a full group are those of its sextets. -/
theorem groupOut_full (a : Alphabet) (b0 b1 b2 : Byte) (e : EncData) :
    groupOut a 3 (encGroup a [b0, b1, b2] e) = encText a [b0, b1, b2] := by cases a <;> rfl

/-- Settles O48: a full group loads the datapath and writes its four characters. -/
theorem encoderGroupStep : Obligations.EncoderGroupStep := by
  unfold Obligations.EncoderGroupStep
  intro s b0 b1 b2 a hrun hin hread ha
  have hop : opAlphabet s.enc.hid.op = a := by
    unfold opAlphabet
    rcases ha with ⟨rfl, h0⟩ | ⟨rfl, h1⟩
    · rw [if_pos h0]
    · rw [h1, if_neg (by decide)]
  have hread' : s.enc.src.readBytes s.enc.hid.ipos (min 3 (s.enc.hid.n - s.enc.hid.ipos)) = some [b0, b1, b2] := by
    rwa [Nat.min_eq_left (by omega)]
  refine ⟨_, encStep_group (s.enc.busy_eq_true.2 hrun) (by omega) hread' hop, rfl, rfl, rfl, rfl, rfl, rfl, rfl, rfl,
    rfl, rfl, ?_, ?_, ?_, hrun, rfl, rfl⟩ <;> rw [show [b0, b1, b2].length = 3 from rfl, groupOut_full]
  · exact Mem.readBytes_writeBytes _ _ (encText a [b0, b1, b2])
  · exact fun k hk => Mem.read_writeBytes_outside hk
  · rfl

/-! ### One group of the decoder -/

section
variable {s : State} (hbusy : s.dec.busy = true)
include hbusy

theorem decStep_finish (hend : s.decData.l ≤ s.dec.hid.ipos) : decStep s = .next (s.finish .dec) := by
  simp only [decStep, hbusy, if_true, Nat.sub_eq_zero_of_le hend]

section
variable (hlt : s.dec.hid.ipos < s.decData.l) {ys : List Byte}
  (hread : s.dec.src.readBytes s.dec.hid.ipos (min 4 (s.decData.l - s.dec.hid.ipos)) = some ys) {m : Mode}
  (hm : opMode s.dec.hid.op = m)
include hlt hread hm

theorem decStep_group {bs : List Byte} (hbs : decGroup (decTab m) ys = .ok bs) :
    decStep s = .next { s with
      decData := decPack ys.length (decFetch m ys s.decData)
      dec := { s.dec with
        dst := s.dec.dst.writeBytes s.dec.hid.opos bs
        hid := { s.dec.hid with ipos := s.dec.hid.ipos + ys.length, opos := s.dec.hid.opos + bs.length } } } := by
  have hne : ¬(s.decData.l - s.dec.hid.ipos = 0) := by omega
  simp only [decStep, hbusy, if_true, hne, if_false, hread, hm, hbs]

theorem decStep_group_error {k : ErrKind} (hk : decGroup (decTab m) ys = .error k) : decStep s = decFail m k s := by
  have hne : ¬(s.decData.l - s.dec.hid.ipos = 0) := by omega
  simp only [decStep, hbusy, if_true, hne, if_false, hread, hm, hk]

end

end

/-- A valid value is held with bit 6 clear, and its low six bits are the value (R126). -/
theorem tabWord_some (v : Sextet) : tabWord (some v) = 0#1 ++ v := by
  revert v
  decide +kernel

theorem setWidth_tabWord_some (v : Sextet) : (tabWord (some v)).setWidth 6 = v := by
  revert v
  decide +kernel

/-- PACK of four looked-up valid symbols is their group (R192). -/
theorem decPack_full {m : Mode} {c0 c1 c2 c3 : Byte} {v0 v1 v2 v3 : Sextet} (h0 : decTab m c0 = some v0)
    (h1 : decTab m c1 = some v1) (h2 : decTab m c2 = some v2) (h3 : decTab m c3 = some v3) (d : DecData) :
    decPack 4 (decFetch m [c0, c1, c2, c3] d) =
      { d with
        y0 := c0, y1 := c1, y2 := c2, y3 := c3
        v0 := tabWord (some v0), v1 := tabWord (some v1), v2 := tabWord (some v2), v3 := tabWord (some v3)
        grp := packSextets v0 v1 v2 v3 } := by
  simp [decPack, decFetch, h0, h1, h2, h3, setWidth_tabWord_some]

/-- Settles O49: a full group of valid symbols loads the datapath and writes its three bytes. -/
theorem decoderGroupStep : Obligations.DecoderGroupStep := by
  unfold Obligations.DecoderGroupStep
  intro s c0 c1 c2 c3 v0 v1 v2 v3 hrun hin hread h0 h1 h2 h3
  have hread' : s.dec.src.readBytes s.dec.hid.ipos (min 4 (s.decData.l - s.dec.hid.ipos)) = some [c0, c1, c2, c3] := by
    rwa [Nat.min_eq_left (by omega)]
  have hstep := decStep_group (s.dec.busy_eq_true.2 hrun) (by omega) hread' rfl (decGroup_full h0 h1 h2 h3)
  rw [show [c0, c1, c2, c3].length = 4 from rfl, decPack_full h0 h1 h2 h3] at hstep
  exact ⟨_, hstep, rfl, rfl, rfl, rfl, tabWord_some v0, tabWord_some v1, tabWord_some v2, tabWord_some v3, rfl, rfl,
    rfl, Mem.readBytes_writeBytes _ _ [byte0 (packSextets v0 v1 v2 v3), byte1 (packSextets v0 v1 v2 v3),
      byte2 (packSextets v0 v1 v2 v3)], fun k hk => Mem.read_writeBytes_outside hk, rfl, hrun, rfl, rfl⟩

/-! ### Steps of the two units -/

/-- A step of the ENC unit changes the ENC unit and its datapath only. -/
theorem encStep_eq {s t : State} (h : encStep s = .next t) : t = { s with enc := t.enc, encData := t.encData } := by
  obtain ⟨hdec, hdata, hcfg, hmoves, hreplies, howned, -⟩ := encStep_local h s.dec s.decData
  rw [← hdec, ← hdata, ← hcfg, ← hmoves, ← hreplies, ← howned]

/-- A step of the DEC unit changes the DEC unit and its datapath only. -/
theorem decStep_eq {s t : State} (h : decStep s = .next t) : t = { s with dec := t.dec, decData := t.decData } := by
  obtain ⟨henc, hdata, hcfg, hmoves, hreplies, howned, -⟩ := decStep_local h s.enc s.encData
  rw [← henc, ← hdata, ← hcfg, ← hmoves, ← hreplies, ← howned]

/-- Settles O54: each step is taken as well, and with the same effect, in the state the other leaves. -/
theorem unitStepsCommute : Obligations.UnitStepsCommute := by
  unfold Obligations.UnitStepsCommute
  intro s e d he hd
  obtain ⟨-, -, -, -, -, -, he'⟩ := encStep_local he d.dec d.decData
  obtain ⟨-, -, -, -, -, -, hd'⟩ := decStep_local hd e.enc e.encData
  rw [← encStep_eq he] at hd'
  rw [← decStep_eq hd] at he'
  refine ⟨_, hd', he'.trans ?_⟩
  rw [encStep_eq he, decStep_eq hd]

/-- Settles O56: what a step writes lies between OPOS and the capacity, which is the latch's. -/
theorem unitStepKeepsBounds : Obligations.UnitStepKeepsBounds := by
  unfold Obligations.UnitStepKeepsBounds
  intro s t h
  refine ⟨fun ht => ?_, fun ht => ?_⟩
  · rcases encStep_cases s with ⟨-, hr⟩ | ⟨hbusy, -, hr⟩ | ⟨-, hr, -⟩ | ⟨hbusy, hlt, bs, e, out, hread, -, hout, hr⟩ <;>
      cases ht.symm.trans hr
    · exact ⟨rfl, rfl, fun _ _ => rfl⟩
    · have hrun := s.enc.busy_eq_true.1 hbusy
      obtain ⟨-, hcap, -⟩ := h.enc.latched hrun
      exact ⟨rfl, rfl, fun a ha => finishDst_read_above _ _ _ (finish_bounds_enc h.encRun hrun) (hcap.le.trans ha)⟩
    · have hrun := s.enc.busy_eq_true.1 hbusy
      obtain ⟨-, hcap, -⟩ := h.enc.latched hrun
      obtain ⟨-, -, -, hopos, hroom⟩ := encGroup_bounds h.encRun hrun hlt (Mem.readBytes_length hread)
        (hout ▸ length_groupOut_le _ _ _)
      exact ⟨rfl, rfl, fun a ha => Mem.read_writeBytes_outside (.inr (by omega))⟩
  · rcases decStep_cases s with ⟨-, hr⟩ | ⟨hbusy, -, hr⟩ | ⟨-, hr, -⟩ |
      ⟨hbusy, hlt, ys, hread, ⟨k, -, hr⟩ | ⟨bs, hbs, hr⟩⟩
    · cases ht.symm.trans hr
      exact ⟨rfl, rfl, fun _ _ => rfl⟩
    · cases ht.symm.trans hr
      have hrun := s.dec.busy_eq_true.1 hbusy
      obtain ⟨-, hcap, -⟩ := h.dec.latched hrun
      exact ⟨rfl, rfl, fun a ha => finishDst_read_above _ _ _ (finish_bounds_dec h.decRun hrun) (hcap.le.trans ha)⟩
    · exact nomatch ht.symm.trans hr
    · have hrun := s.dec.busy_eq_true.1 hbusy
      obtain ⟨-, hcap, -⟩ := h.dec.latched hrun
      rcases decFail_cases (opMode s.dec.hid.op) k s with ⟨-, -, hfault⟩ | ⟨k', hnext, -⟩
      · exact nomatch (ht.symm.trans hr).trans hfault
      · cases (ht.symm.trans hr).trans hnext
        exact ⟨rfl, rfl, fun a ha => failDst_read_above _ _ _ _ (hcap.le.trans ha)⟩
    · cases ht.symm.trans hr
      have hrun := s.dec.busy_eq_true.1 hbusy
      obtain ⟨-, hcap, -⟩ := h.dec.latched hrun
      obtain ⟨-, -, -, hopos, hroom⟩ := decGroup_bounds h.decRun hrun hlt (Mem.readBytes_length hread)
        (length_decGroup_le hbs)
      exact ⟨rfl, rfl, fun a ha => Mem.read_writeBytes_outside (.inr (by omega))⟩

end Sys2Proof.Machine
end

section
/-! The reference sequencing against the atomic operation (R165, R204), for O50 and O51. A unit that has put the result
of the bytes consumed so far takes one group at a time; the induction is over what is left of the source. -/

namespace Sys2Proof.Machine

/-! ### Runs of a unit's own steps -/

/-- From `s` the unit `u` stays in RUN for `k` of its own steps, of which the last gives `o`. -/
def RunsTo (u : UnitId) (k : Nat) (s : State) (o : Host.Outcome State Fault Refusal) : Prop :=
  (∀ j, j < k → ∃ v, unitSteps u j s = .next v ∧ (v.unit u).busy = true) ∧ unitSteps u k s = o

theorem unitSteps_succ {u : UnitId} {s t : State} (h : unitStep u s = .next t) (k : Nat) :
    unitSteps u (k + 1) s = unitSteps u k t := by
  simp only [unitSteps, h]

/-- One more step in front of a run. -/
theorem RunsTo.cons {u : UnitId} {k : Nat} {s t : State} {o : Host.Outcome State Fault Refusal}
    (hbusy : (s.unit u).busy = true) (hstep : unitStep u s = .next t) (h : RunsTo u k t o) : RunsTo u (k + 1) s o := by
  obtain ⟨hruns, hend⟩ := h
  refine ⟨fun j hj => ?_, (unitSteps_succ hstep k).trans hend⟩
  cases j with
  | zero => exact ⟨s, rfl, hbusy⟩
  | succ j =>
    obtain ⟨v, hv, hvbusy⟩ := hruns j (Nat.lt_of_succ_lt_succ hj)
    exact ⟨v, (unitSteps_succ hstep j).trans hv, hvbusy⟩

/-- A run of a single step. -/
theorem RunsTo.single {u : UnitId} {s : State} {o : Host.Outcome State Fault Refusal} (hbusy : (s.unit u).busy = true)
    (hstep : unitStep u s = o) : RunsTo u 1 s o := by
  constructor
  · intro j hj
    obtain rfl : j = 0 := by omega
    exact ⟨s, rfl, hbusy⟩
  · subst hstep
    cases h : unitStep u s <;> simp only [unitSteps, h]

/-! ### The number of steps -/

theorem sequencingSteps_add {g : Nat} (hg : 0 < g) (n : Nat) : sequencingSteps g (n + g) = sequencingSteps g n + 1 := by
  simp only [sequencingSteps, Nat.add_div_right _ hg, Nat.add_mod_right]
  omega

theorem sequencingSteps_tail {g n : Nat} (hpos : 0 < n) (hlt : n < g) : sequencingSteps g n = 2 := by
  simp [sequencingSteps, Nat.div_eq_of_lt hlt, Nat.mod_eq_of_lt hlt, hpos.ne']

theorem sequencingSteps_zero (g : Nat) : sequencingSteps g 0 = 1 := by simp [sequencingSteps]

/-! ### The encoder -/

/-- The characters a group writes are the text of its bytes (R158 to R160). -/
theorem groupOut_eq_encText (a : Alphabet) {bs : List Byte} (h1 : bs ≠ []) (h3 : bs.length ≤ 3) (e : EncData) :
    groupOut a bs.length (encGroup a bs e) = encText a bs := by
  match bs, h1, h3 with
  | [], h1, _ => exact absurd rfl h1
  | [_], _, _ => cases a <;> rfl
  | [_, _], _, _ => cases a <;> rfl
  | [_, _, _], _, _ => cases a <;> rfl

/-- The state of an encode running in `r` that has consumed `ipos` bytes and put the characters `out`. -/
def encAt (r : State) (out : List Byte) (ipos : Nat) (e : EncData) : State :=
  { r with
    encData := e
    enc := { r.enc with
      dst := r.enc.dst.writeBytes 0 out
      hid := { r.enc.hid with ipos := ipos, opos := out.length } } }

section
variable {r : State} (hbusy : r.enc.busy = true)
include hbusy

/-- At the end of the source the step finishes, as the atomic operation does once it has put its text. -/
theorem encAt_finish (out : List Byte) (e : EncData) :
    RunsTo .enc 1 (encAt r out r.enc.hid.n e) (.next ((r.putResult .enc out).finish .enc)) :=
  .single hbusy (encStep_finish (s := encAt r out r.enc.hid.n e) hbusy le_rfl)

section
variable {a : Alphabet} (ha : opAlphabet r.enc.hid.op = a)
include ha

/-- A step with source left puts the text of one group behind what is there. -/
theorem encStep_encAt {out bs : List Byte} {ipos : Nat} (hlt : ipos < r.enc.hid.n)
    (hread : r.enc.src.readBytes ipos (min 3 (r.enc.hid.n - ipos)) = some bs) (e : EncData) :
    encStep (encAt r out ipos e) =
      .next (encAt r (out ++ encText a bs) (ipos + bs.length) (encGroup a bs e)) := by
  have hlength := Mem.readBytes_length hread
  have hne : bs ≠ [] := by rintro rfl; simp at hlength; omega
  rw [encStep_group (s := encAt r out ipos e) hbusy hlt hread ha]
  simp only [encAt, groupOut_eq_encText a hne (by omega), Mem.writeBytes_append, List.length_append, Nat.zero_add]

/-- A run from behind the next group is, with one more step, a run from before it. -/
theorem RunsTo.cons_encAt {out bs : List Byte} {ipos k : Nat} {o : Host.Outcome State Fault Refusal} {e : EncData}
    (hlt : ipos < r.enc.hid.n) (hread : r.enc.src.readBytes ipos (min 3 (r.enc.hid.n - ipos)) = some bs)
    (h : RunsTo .enc k (encAt r (out ++ encText a bs) (ipos + bs.length) (encGroup a bs e)) o) :
    RunsTo .enc (k + 1) (encAt r out ipos e) o :=
  .cons hbusy (encStep_encAt hbusy ha hlt hread e) h

/-- The last group, if it is a tail, and FINISH. -/
theorem encAt_runs_tail {tail out : List Byte} {ipos : Nat} {e : EncData} (hpos : 0 < tail.length)
    (hshort : tail.length < 3) (hn : r.enc.hid.n = ipos + tail.length)
    (hread : r.enc.src.readBytes ipos tail.length = some tail) :
    RunsTo .enc (sequencingSteps 3 tail.length) (encAt r out ipos e)
      (.next ((r.putResult .enc (out ++ encText a tail)).finish .enc)) := by
  have hmin : min 3 (r.enc.hid.n - ipos) = tail.length := by omega
  rw [sequencingSteps_tail hpos hshort]
  exact .cons_encAt hbusy ha (by omega) (by rwa [hmin]) (hn ▸ encAt_finish hbusy _ _)

/-- With the bytes `rest` left, the unit takes the steps R165 counts and ends with their text put behind what is
there. -/
theorem encAt_runs (rest : List Byte) {out : List Byte} {ipos : Nat} {e : EncData}
    (hn : r.enc.hid.n = ipos + rest.length) (hread : r.enc.src.readBytes ipos rest.length = some rest) :
    RunsTo .enc (sequencingSteps 3 rest.length) (encAt r out ipos e)
      (.next ((r.putResult .enc (out ++ encText a rest)).finish .enc)) := by
  induction rest using sextetsOf.induct generalizing out ipos e with
  | case1 b0 b1 b2 rest ih =>
    have hlen : (b0 :: b1 :: b2 :: rest).length = rest.length + 3 := rfl
    rw [hlen] at hn hread
    have hgroup : r.enc.src.readBytes ipos 3 = some [b0, b1, b2] := Mem.readBytes_sub (i := 0) hread (by omega)
    have hrest : r.enc.src.readBytes (ipos + 3) rest.length = some rest := by
      simpa using Mem.readBytes_sub (i := 3) (k := rest.length) hread (by omega)
    have hmin : min 3 (r.enc.hid.n - ipos) = 3 := by omega
    have htext : encText a (b0 :: b1 :: b2 :: rest) = encText a [b0, b1, b2] ++ encText a rest := rfl
    rw [hlen, sequencingSteps_add (by decide), htext, ← List.append_assoc]
    exact .cons_encAt hbusy ha (by omega) (by rwa [hmin]) (ih (hn.trans (by simp; omega)) hrest)
  | case2 b0 b1 => exact encAt_runs_tail hbusy ha (by simp) (by simp) hn hread
  | case3 b0 => exact encAt_runs_tail hbusy ha (by simp) (by simp) hn hread
  | case4 =>
    have hend : r.enc.hid.n = ipos := hn
    rw [encText, List.append_nil]
    exact hend ▸ encAt_finish hbusy out e

end

end

/-- The alphabet of an encode instruction is the one its word latches (R159). -/
theorem opAlphabet_encode {i : Instr} {a : Alphabet} (hi : i.encodeAlphabet = some a) :
    opAlphabet ((encode i).extractLsb' 0 3) = a := by
  cases i <;> cases hi <;> decide

theorem exec_enc_cases {i : Instr} (hi : i.unit = .enc) : ∃ a, i.encodeAlphabet = some a := by
  cases i with
  | encStd => exact ⟨.std, rfl⟩
  | encUrl => exact ⟨.url, rfl⟩
  | decStd | decUrl | decMix => cases hi

/-- Settles O50: the accepted unit has put nothing and has the whole source left. -/
theorem encodeSequencingAgrees : Obligations.EncodeSequencingAgrees := by
  unfold Obligations.EncodeSequencingAgrees
  intro i s b e hi h
  obtain ⟨a, ha⟩ := exec_enc_cases hi
  have hlength := h.length
  have hruns : RunsTo .enc (sequencingSteps 3 b.length) (s.accept .enc (encode i)) (exec i s) := by
    rw [exec_encode_of_ready ha h]
    exact encAt_runs (r := s.accept .enc (encode i)) (out := []) (ipos := 0) rfl (opAlphabet_encode ha) b
      (by simp [hlength]) (by rw [hlength]; exact h.written)
  rw [hlength] at hruns
  exact ⟨_, issue_of_encReady hi h, hruns⟩

/-! ### The decoder -/

/-- The state of a decode running in `r` that has consumed `ipos` symbols and put the bytes `out`. -/
def decAt (r : State) (out : List Byte) (ipos : Nat) (d : DecData) : State :=
  { r with
    decData := d
    dec := { r.dec with
      dst := r.dec.dst.writeBytes 0 out
      hid := { r.dec.hid with ipos := ipos, opos := out.length } } }

/-- The end of a decode in `r` whose body has committed `out` and failed with the kind, or not failed. -/
def bodyEnd (m : Mode) (r : State) (out : List Byte) : Option ErrKind → Host.Outcome State Fault Refusal
  | none => .next ((r.putResult .dec out).finish .dec)
  | some k => decFail m k (r.putResult .dec out)

/-- The atomic decode of a text that passes the checks of the command write. -/
theorem runDecode_eq_bodyEnd {s : State} {t : List Byte} {m : Mode} (h : DecReady s t) (hlen : t.length % 4 ≠ 1)
    (hpad : padCheck s.cfg.urlPadKind m t = none) (i : Instr) :
    runDecode m i s = bodyEnd m ((s.accept .dec (encode i)).loadBody t) (decBody (decTab m) (bodyOf t)).1
      (decBody (decTab m) (bodyOf t)).2 := by
  unfold runDecode
  rw [decStart_of_ready h hlen hpad]
  rcases hbody : decBody (decTab m) (bodyOf t) with ⟨out, _ | k⟩ <;> simp only [hbody, bodyEnd]

section
variable {r : State} (hbusy : r.dec.busy = true)
include hbusy

/-- At the end of the body the step finishes, as the atomic operation does once it has put its bytes. -/
theorem decAt_finish (m : Mode) (out : List Byte) (d : DecData) :
    RunsTo .dec 1 (decAt r out d.l d) (bodyEnd m r out none) :=
  .single hbusy (decStep_finish (s := decAt r out d.l d) hbusy le_rfl)

section
variable {m : Mode} (hm : opMode r.dec.hid.op = m) {out ys : List Byte} {ipos : Nat} {d : DecData} (hlt : ipos < d.l)
  (hread : r.dec.src.readBytes ipos (min 4 (d.l - ipos)) = some ys)
include hm hlt hread

/-- A run from behind the next group, whose bytes are `bs`, is, with one more step, a run from before it. -/
theorem RunsTo.cons_decAt {bs : List Byte} {k : Nat} {o : Host.Outcome State Fault Refusal}
    (hbs : decGroup (decTab m) ys = .ok bs)
    (h : RunsTo .dec k (decAt r (out ++ bs) (ipos + ys.length) (decPack ys.length (decFetch m ys d))) o) :
    RunsTo .dec (k + 1) (decAt r out ipos d) o := by
  refine .cons hbusy ?_ h
  have hstep := decStep_group (s := decAt r out ipos d) hbusy hlt hread hm hbs
  simpa only [unitStep, decAt, Mem.writeBytes_append, List.length_append, Nat.zero_add] using hstep

/-- A group that fails ends the run as a failing body ends the atomic operation. -/
theorem decAt_fails {k : ErrKind} (hk : decGroup (decTab m) ys = .error k) :
    RunsTo .dec 1 (decAt r out ipos d) (bodyEnd m r out (some k)) :=
  .single hbusy (decStep_group_error (s := decAt r out ipos d) hbusy hlt hread hm hk)

end

/-- With the symbols `rest` left, the unit ends within the steps R204 counts, as the body decoder says of them. -/
theorem decAt_runs {m : Mode} (hm : opMode r.dec.hid.op = m) (rest : List Byte) {out : List Byte} {ipos : Nat}
    {d : DecData} (hl : d.l = ipos + rest.length) (hread : r.dec.src.readBytes ipos rest.length = some rest) :
    ∃ k, 1 ≤ k ∧ k ≤ sequencingSteps 4 rest.length ∧
      RunsTo .dec k (decAt r out ipos d)
        (bodyEnd m r (out ++ (decBody (decTab m) rest).1) (decBody (decTab m) rest).2) := by
  induction rest using four_induct generalizing out ipos d with
  | group c0 c1 c2 c3 rest ih =>
    have hlen : (c0 :: c1 :: c2 :: c3 :: rest).length = rest.length + 4 := rfl
    rw [hlen] at hl hread
    have hgroup : r.dec.src.readBytes ipos 4 = some [c0, c1, c2, c3] := Mem.readBytes_sub (i := 0) hread (by omega)
    have hrest : r.dec.src.readBytes (ipos + 4) rest.length = some rest := by
      simpa using Mem.readBytes_sub (i := 4) (k := rest.length) hread (by omega)
    have hmin : min 4 (d.l - ipos) = 4 := by omega
    rw [hlen, sequencingSteps_add (by decide), decBody_cons4]
    cases hg : decGroup (decTab m) [c0, c1, c2, c3] with
    | error k =>
      refine ⟨1, le_rfl, by omega, ?_⟩
      simpa using decAt_fails hbusy hm (by omega) (by rwa [hmin]) hg
    | ok bs =>
      obtain ⟨k, h1, hk, hruns⟩ := ih (out := out ++ bs) (ipos := ipos + 4)
        (d := decPack 4 (decFetch m [c0, c1, c2, c3] d)) (by rw [decPack_decFetch_l]; omega) hrest
      refine ⟨k + 1, by omega, by omega, ?_⟩
      simp only [← List.append_assoc]
      exact .cons_decAt hbusy hm (by omega) (by rwa [hmin]) hg hruns
  | tail rest hshort =>
    by_cases hempty : rest = []
    · subst hempty
      have hend : d.l = ipos := hl
      refine ⟨1, le_rfl, (sequencingSteps_zero 4).ge, ?_⟩
      simpa [decBody, decGroup, lookupAll, unpackGroup] using hend ▸ decAt_finish hbusy m out d
    · have hpos : 0 < rest.length := List.length_pos_iff.2 hempty
      have hmin : min 4 (d.l - ipos) = rest.length := by omega
      rw [sequencingSteps_tail hpos hshort, decBody_tail _ _ hshort]
      cases hg : decGroup (decTab m) rest with
      | error k =>
        refine ⟨1, le_rfl, by decide, ?_⟩
        simpa using decAt_fails hbusy hm (by omega) (by rwa [hmin]) hg
      | ok bs =>
        refine ⟨2, by decide, le_rfl, .cons_decAt hbusy hm (by omega) (by rwa [hmin]) hg ?_⟩
        have hend : (decPack rest.length (decFetch m rest d)).l = ipos + rest.length := hl
        exact hend ▸ decAt_finish hbusy m _ _

end

/-- The mode of a decode instruction is the one its word latches (R191). -/
theorem opMode_encode {i : Instr} {m : Mode} (hi : i.decodeMode = some m) :
    opMode ((encode i).extractLsb' 0 3) = m := by
  cases i <;> cases hi <;> decide

theorem DecodeEnds.isDone {m : Mode} {i : Instr} {s t : State} (h : DecodeEnds m i s t) : t.dec.isDone = true := by
  cases h <;> rfl

/-- Settles O51: the accepted unit has put nothing and has the whole body left. -/
theorem decodeSequencingAgrees : Obligations.DecodeSequencingAgrees := by
  unfold Obligations.DecodeSequencingAgrees
  intro i m s t hm h hlen hpad
  have hbody : s.dec.src.readBytes 0 (bodyOf t).length = some (bodyOf t) := by
    have hread := h.written
    rw [← h.length] at hread
    have hsub := Mem.readBytes_sub (i := 0) (k := (bodyOf t).length) hread (by rw [length_bodyOf]; omega)
    rwa [List.drop_zero, Nat.add_zero, length_bodyOf, ← bodyOf, ← length_bodyOf] at hsub
  obtain ⟨k, h1, hk, hruns, hend⟩ := decAt_runs (r := (s.accept .dec (encode i)).loadBody t) rfl (opMode_encode hm)
    (bodyOf t) (out := []) (ipos := 0) (d := ((s.accept .dec (encode i)).loadBody t).decData)
    (by simp [length_bodyOf]) hbody
  rw [length_bodyOf] at hk
  have hexec : unitSteps .dec k ((s.accept .dec (encode i)).loadBody t) = exec i s := by
    rw [exec_dec hm, runDecode_eq_bodyEnd h hlen hpad]
    exact hend
  refine ⟨_, issue_of_decReady hm h hlen hpad, k, h1, hk, hruns, hexec, ?_⟩
  obtain ⟨v, hv⟩ := runDecode_total h.free h.written m i
  exact ⟨v, (exec_dec hm s).trans hv, (runDecode_ends hv).2.isDone⟩

end Sys2Proof.Machine
end

section
/-! A running unit reaches DONE (R167, R206, R223), for O53. `stepsLeft` counts the steps a running unit still needs;
its own step takes one off or ends it (`unitStep_progress`), and a machine whose host waits takes the step of a running
unit. -/

namespace Sys2Proof.Machine

/-! ### Progress of a unit -/

/-- The steps a running unit still takes at most: the groups left and FINISH; none if it is not running. -/
def stepsLeft (u : UnitId) (s : State) : Nat :=
  if (s.unit u).busy then
    match u with
    | .enc => (s.enc.hid.n - s.enc.hid.ipos + 2) / 3 + 1
    | .dec => (s.decData.l - s.dec.hid.ipos + 3) / 4 + 1
  else 0

theorem stepsLeft_enc {s : State} (h : s.enc.busy = true) :
    stepsLeft .enc s = (s.enc.hid.n - s.enc.hid.ipos + 2) / 3 + 1 := if_pos h

theorem stepsLeft_dec {s : State} (h : s.dec.busy = true) :
    stepsLeft .dec s = (s.decData.l - s.dec.hid.ipos + 3) / 4 + 1 := if_pos h

theorem stepsLeft_pos {u : UnitId} {s : State} (h : (s.unit u).busy = true) : 0 < stepsLeft u s := by
  cases u with
  | enc => rw [stepsLeft_enc h]; omega
  | dec => rw [stepsLeft_dec h]; omega

theorem stepsLeft_of_isDone {u : UnitId} {s : State} (h : (s.unit u).isDone = true) : stepsLeft u s = 0 := by
  have hfree : (s.unit u).busy = false := by
    rw [CodecUnit.busy_eq_false, (s.unit u).isDone_eq_true.1 h]
    decide
  simp only [stepsLeft, hfree, Bool.false_eq_true, if_false]

/-- A step of unit `u` from `s` to `t` that brings it nearer to DONE and leaves the rest of the machine. -/
structure Progress (u : UnitId) (s t : State) : Prop where
  step : unitStep u s = .next t
  live : (t.unit u).isDone = true ∨ (t.unit u).busy = true
  less : stepsLeft u t < stepsLeft u s

/-- The source of a running unit can be read wherever it is within the length. -/
theorem UnitInv.readBytes_of_run {p : Params} {x : CodecUnit} (h : UnitInv p x) (hrun : x.phase = .run) {i k : Nat}
    (hin : i + k ≤ x.hid.n) : ∃ bs, x.src.readBytes i k = some bs := by
  obtain ⟨-, -, -, -, -, b, hb⟩ := h.latched hrun
  have hsub := Mem.readBytes_sub hb hin
  rw [Nat.zero_add] at hsub
  exact ⟨_, hsub⟩

theorem encStep_progress {s : State} (h : Inv s) (hbusy : s.enc.busy = true) : ∃ t, Progress .enc s t := by
  have hrun := s.enc.busy_eq_true.1 hbusy
  by_cases hend : s.enc.hid.n ≤ s.enc.hid.ipos
  · exact ⟨_, encStep_finish hbusy hend, .inl rfl,
      (stepsLeft_of_isDone (u := .enc) (s := s.finish .enc) rfl).trans_lt (stepsLeft_pos hbusy)⟩
  · obtain ⟨bs, hread⟩ := h.enc.readBytes_of_run hrun (i := s.enc.hid.ipos)
      (k := min 3 (s.enc.hid.n - s.enc.hid.ipos)) (by omega)
    have hlength := Mem.readBytes_length hread
    refine ⟨_, encStep_group hbusy (by omega) hread rfl, .inr hbusy, (stepsLeft_enc ?_).trans_lt ?_⟩
    · exact hbusy
    · rw [stepsLeft_enc hbusy]
      simp only
      omega

theorem decStep_progress {s : State} (h : Inv s) (hbusy : s.dec.busy = true) : ∃ t, Progress .dec s t := by
  have hrun := s.dec.busy_eq_true.1 hbusy
  by_cases hend : s.decData.l ≤ s.dec.hid.ipos
  · exact ⟨_, decStep_finish hbusy hend, .inl rfl,
      (stepsLeft_of_isDone (u := .dec) (s := s.finish .dec) rfl).trans_lt (stepsLeft_pos hbusy)⟩
  · obtain ⟨-, -, hl, -⟩ := h.decRun hrun
    obtain ⟨ys, hread⟩ := h.dec.readBytes_of_run hrun (i := s.dec.hid.ipos)
      (k := min 4 (s.decData.l - s.dec.hid.ipos)) (by omega)
    have hlength := Mem.readBytes_length hread
    cases hg : decGroup (decTab (opMode s.dec.hid.op)) ys with
    | error k =>
      rcases decFail_cases (opMode s.dec.hid.op) k s with ⟨-, hnone, -⟩ | ⟨k', hnext, -⟩
      · obtain ⟨-, -, -, -, -, b, hb⟩ := h.dec.latched hrun
        exact nomatch hnone.symm.trans hb
      · exact ⟨_, (decStep_group_error hbusy (by omega) hread rfl hg).trans hnext, .inl rfl,
          (stepsLeft_of_isDone (u := .dec) (s := s.raise .dec k') rfl).trans_lt (stepsLeft_pos hbusy)⟩
    | ok bs =>
      refine ⟨_, decStep_group hbusy (by omega) hread rfl hg, .inr hbusy, (stepsLeft_dec ?_).trans_lt ?_⟩
      · exact hbusy
      · rw [stepsLeft_dec hbusy]
        simp only [decPack_decFetch_l]
        omega

/-- A running unit has an enabled step, and it makes progress (R167, R206). -/
theorem unitStep_progress {u : UnitId} {s : State} (h : Inv s) (hbusy : (s.unit u).busy = true) :
    ∃ t, Progress u s t := by
  cases u with
  | enc => exact encStep_progress h hbusy
  | dec => exact decStep_progress h hbusy

theorem unitStep_keeps_inv {u : UnitId} {s t : State} (h : Inv s) (ht : unitStep u s = .next t) : Inv t := by
  cases u with
  | enc => exact encStep_keeps_inv h ht
  | dec => exact decStep_keeps_inv h ht

/-- A unit in RUN reaches DONE within the steps it has left. -/
theorem unitSteps_reach_done {u : UnitId} (n : Nat) {s : State} (h : Inv s) (hbusy : (s.unit u).busy = true)
    (hn : stepsLeft u s ≤ n) : ∃ k t, k ≤ n ∧ unitSteps u k s = .next t ∧ (t.unit u).isDone = true := by
  induction n generalizing s with
  | zero =>
    have hpos := stepsLeft_pos hbusy
    omega
  | succ n ih =>
    obtain ⟨t, hstep, hlive, hless⟩ := unitStep_progress h hbusy
    rcases hlive with hdone | hbusy'
    · exact ⟨1, t, by omega, unitSteps_succ hstep 0, hdone⟩
    · obtain ⟨k, v, hk, hv, hdone⟩ := ih (unitStep_keeps_inv h hstep) hbusy' (by omega)
      exact ⟨k + 1, v, by omega, (unitSteps_succ hstep k).trans hv, hdone⟩

theorem stepsLeft_enc_le {s : State} (h : Inv s) : stepsLeft .enc s ≤ s.cfg.maxLen / 3 + 2 := by
  have hn := h.enc.n
  by_cases hbusy : s.enc.busy = true
  · rw [stepsLeft_enc hbusy]
    omega
  · exact (if_neg hbusy).trans_le (Nat.zero_le _)

theorem stepsLeft_dec_le {s : State} (h : Inv s) : stepsLeft .dec s ≤ s.cfg.maxLen / 4 + 2 := by
  have hl := h.bodyLen
  by_cases hbusy : s.dec.busy = true
  · rw [stepsLeft_dec hbusy]
    omega
  · exact (if_neg hbusy).trans_le (Nat.zero_le _)

/-! ### Progress of the machine -/

/-- A host that waits with the move it has taken off puts it back, so the state is as before while a unit steps. -/
theorem waitFor_restored {s : State} {m : Move} {rest : List Move} (h : s.moves = m :: rest) (u : UnitId) :
    waitFor u m { s with moves := rest } = if (s.unit u).busy then unitStep u s else idleStep s := by
  have hs : ({ s with moves := m :: rest } : State) = s := by rw [← h]
  simp only [waitFor, hs]

/-- A machine with a running unit and nothing else to do takes the step of a running unit. -/
theorem idleStep_of_busy {v : UnitId} {s : State} (h : (s.unit v).busy = true) :
    ∃ u, (s.unit u).busy = true ∧ idleStep s = unitStep u s := by
  by_cases henc : s.enc.busy = true
  · exact ⟨.enc, henc, by simp only [idleStep, henc, if_true]; rfl⟩
  · have hdec : s.dec.busy = true := by
      cases v with
      | enc => exact absurd h henc
      | dec => exact h
    exact ⟨.dec, hdec, by simp only [idleStep, henc, hdec, if_true]; rfl⟩

/-- A pseudo-operation whose size does not overflow waits for its unit while that is busy (R220, log entry 19). -/
theorem step_of_waiting_pseudo {q : Pseudo} {bytes : List Byte} {s : State} {rest : List Move}
    (hmoves : s.moves = .pseudo q bytes :: rest) (hlen : bytes.length ≤ s.cfg.maxLen) {e : Nat}
    (hsize : q.size s.cfg bytes.length = some e) (hbusy : (s.unit q.instr.unit).busy = true) :
    step s = unitStep q.instr.unit s := by
  rw [step_of_moves hmoves]
  simp only [runMove, execPseudo, Nat.not_lt.2 hlen, if_false, hsize, State.unit_withMoves, hbusy, if_true,
    waitFor_restored hmoves]

/-- While the host waits for a running unit the machine takes the step of a running unit (R223). -/
theorem step_of_waitsFor {v : UnitId} {s : State} (hbusy : (s.unit v).busy = true) (hwait : WaitsFor v s) :
    ∃ u, (s.unit u).busy = true ∧ step s = unitStep u s := by
  rcases hwait with hnone | ⟨u, rest, hmoves, hpoll⟩ | ⟨q, bytes, rest, hmoves, rfl, hlen, hsize⟩
  · rw [step_of_no_moves hnone]
    exact idleStep_of_busy hbusy
  · have hnotdone : (s.unit u).isDone = false := by
      rw [← Bool.not_eq_true, CodecUnit.isDone_eq_true]
      rcases hpoll with rfl | hidle
      · rw [(s.unit u).busy_eq_true.1 hbusy]
        decide
      · rw [hidle]
        decide
    rw [step_of_moves hmoves]
    simp only [runMove, State.unit_withMoves, hnotdone, Bool.false_eq_true, if_false, waitFor_restored hmoves]
    split_ifs with hu
    · exact ⟨u, hu, rfl⟩
    · exact idleStep_of_busy hbusy
  · obtain ⟨e, he⟩ := Option.ne_none_iff_exists'.1 hsize
    exact ⟨_, hbusy, step_of_waiting_pseudo hmoves hlen he hbusy⟩

/-- What a unit's own step leaves: the moves, the parameters and the other unit. -/
theorem unitStep_frame {u : UnitId} {s t : State} (h : unitStep u s = .next t) :
    t.moves = s.moves ∧ t.cfg = s.cfg ∧ ∀ v, v ≠ u → t.unit v = s.unit v ∧ stepsLeft v t = stepsLeft v s := by
  cases u with
  | enc =>
    obtain ⟨hdec, hdata, hcfg, hmoves, -⟩ := encStep_local h s.dec s.decData
    refine ⟨hmoves, hcfg, fun v hv => ?_⟩
    cases v with
    | enc => exact absurd rfl hv
    | dec => exact ⟨hdec, by rw [stepsLeft, stepsLeft, State.unit_dec, State.unit_dec, hdec, hdata]⟩
  | dec =>
    obtain ⟨henc, -, hcfg, hmoves, -⟩ := decStep_local h s.enc s.encData
    refine ⟨hmoves, hcfg, fun v hv => ?_⟩
    cases v with
    | enc => exact ⟨henc, by rw [stepsLeft, stepsLeft, State.unit_enc, State.unit_enc, henc]⟩
    | dec => exact absurd rfl hv

/-- The step of a running unit leaves the host waiting: a unit in IDLE takes none. -/
theorem WaitsFor.unitStep {v u : UnitId} {s t : State} (h : WaitsFor v s) (hbusy : (s.unit u).busy = true)
    (ht : unitStep u s = .next t) : WaitsFor v t := by
  obtain ⟨hmoves, hcfg, hother⟩ := unitStep_frame ht
  unfold WaitsFor
  rw [hmoves, hcfg]
  refine h.imp_right (Or.imp_left ?_)
  rintro ⟨w, rest, hpoll, hw⟩
  refine ⟨w, rest, hpoll, hw.imp_right fun hidle => ?_⟩
  have hne : w ≠ u := by
    rintro rfl
    rw [(s.unit w).busy_eq_true.1 hbusy] at hidle
    cases hidle
  rw [(hother w hne).1, hidle]

theorem machineSteps_succ {s t : State} (h : step s = .next t) (k : Nat) :
    machineSteps (k + 1) s = machineSteps k t := by
  simp only [machineSteps, h]

/-- While the host waits, the machine brings the unit to DONE within the steps both units have left. -/
theorem machineSteps_reach_done {v : UnitId} (n : Nat) {s : State} (h : Inv s) (hbusy : (s.unit v).busy = true)
    (hwait : WaitsFor v s) (hn : stepsLeft .enc s + stepsLeft .dec s ≤ n) :
    ∃ k t, k ≤ n ∧ machineSteps k s = .next t ∧ (t.unit v).isDone = true := by
  induction n generalizing s with
  | zero =>
    have hpos := stepsLeft_pos hbusy
    cases v <;> omega
  | succ n ih =>
    obtain ⟨u, hu, hstep⟩ := step_of_waitsFor hbusy hwait
    obtain ⟨t, hunit, hlive, hless⟩ := unitStep_progress h hu
    obtain ⟨-, -, hother⟩ := unitStep_frame hunit
    have hleft : stepsLeft .enc t + stepsLeft .dec t < stepsLeft .enc s + stepsLeft .dec s := by
      cases u with
      | enc =>
        have := (hother .dec (by decide)).2
        omega
      | dec =>
        have := (hother .enc (by decide)).2
        omega
    have hv : (t.unit v).isDone = true ∨ (t.unit v).busy = true := by
      by_cases hvu : v = u
      · rw [hvu]
        exact hlive
      · rw [(hother v hvu).1]
        exact .inr hbusy
    rcases hv with hdone | hbusy'
    · exact ⟨1, t, by omega, machineSteps_succ (hstep.trans hunit) 0, hdone⟩
    · obtain ⟨k, w, hk, hw, hdone⟩ := ih (unitStep_keeps_inv h hunit) hbusy' (hwait.unitStep hu hunit) (by omega)
      exact ⟨k + 1, w, by omega, (machineSteps_succ (hstep.trans hunit) k).trans hw, hdone⟩

/-- Settles O53: the steps left are bounded by MAXLEN, for a unit alone and for the machine. -/
theorem runningUnitReachesDone : Obligations.RunningUnitReachesDone := by
  unfold Obligations.RunningUnitReachesDone
  intro s h
  have henc := stepsLeft_enc_le h
  have hdec := stepsLeft_dec_le h
  exact ⟨fun hbusy => unitSteps_reach_done (u := .enc) _ h hbusy henc,
    fun hbusy => unitSteps_reach_done (u := .dec) _ h hbusy hdec,
    fun v hbusy hwait => machineSteps_reach_done _ h hbusy hwait (by omega)⟩

end Sys2Proof.Machine
end

section
/-! The allocating pseudo-operations (R228 to R231), for O57. Once the buffer is allocated the prepared unit passes the
capacity check, so an instruction ends with IARG for the sizes, or with what the text gives. -/

namespace Sys2Proof.Machine

theorem State.unit_setUnit_of_ne {u v : UnitId} (h : v ≠ u) (s : State) (x : CodecUnit) :
    (s.setUnit u x).unit v = s.unit v := by
  cases u with
  | enc =>
    cases v with
    | enc => exact absurd rfl h
    | dec => rfl
  | dec =>
    cases v with
    | enc => rfl
    | dec => exact absurd rfl h

/-! ### What a step does to the buffers handed over -/

/-- An instruction leaves the moves, the replies, the buffers and the other unit. -/
theorem exec_frame {i : Instr} {s t : State} (h : exec i s = .next t) :
    t.moves = s.moves ∧ t.replies = s.replies ∧ t.owned = s.owned ∧ ∀ v, v ≠ i.unit → t.unit v = s.unit v := by
  cases hi : i.unit with
  | enc =>
    obtain ⟨hframe, -⟩ := encodeFrame i s t hi h
    refine ⟨hframe.moves, hframe.replies, hframe.owned, fun v hv => ?_⟩
    cases v with
    | enc => exact absurd rfl hv
    | dec => exact hframe.dec
  | dec =>
    obtain ⟨hframe, -⟩ := decodeFrame i s t hi h
    refine ⟨hframe.moves, hframe.replies, hframe.owned, fun v hv => ?_⟩
    cases v with
    | enc => exact hframe.enc
    | dec => exact absurd rfl hv

theorem exec_owned {i : Instr} {s t : State} (h : exec i s = .next t) : t.owned = s.owned := by
  obtain ⟨-, -, howned, -⟩ := exec_frame h
  exact howned

theorem issue_owned {i : Instr} {s t : State} (h : issue i s = .next t) : t.owned = s.owned := by
  rcases issue_next h with hexec | ⟨-, -, rfl⟩ | ⟨-, m, b, -, -, -, -, rfl⟩
  · exact exec_owned hexec
  · simp
  · simp

section
variable (u : UnitId) (cap : Nat) (bytes : List Byte) (s : State)

@[simp] theorem prepare_moves : (prepare u bytes cap s).moves = s.moves := by simp [prepare]
@[simp] theorem prepare_replies : (prepare u bytes cap s).replies = s.replies := by simp [prepare]
@[simp] theorem prepare_owned : (prepare u bytes cap s).owned = s.owned := by simp [prepare]
@[simp] theorem unit_prepare : (prepare u bytes cap s).unit u =
    { s.unit u with
      src := (s.unit u).src.writeBytes 0 (bytes.take (cells s.cfg .src)), srcLen := bytes.length, dstCap := cap } := by
  simp [prepare]

@[simp] theorem collect_moves : (collect u cap s).moves = s.moves := by
  unfold collect
  simp only
  split_ifs <;> rfl

@[simp] theorem collect_unit (v : UnitId) : (collect u cap s).unit v = s.unit v := by
  unfold collect
  simp only
  split_ifs <;> cases v <;> rfl

/-- Handing over adds a buffer behind the others, releasing adds none (R231). -/
theorem owned_prefix_collect : s.owned <+: (collect u cap s).owned := by
  unfold collect
  simp only
  split_ifs
  · exact List.prefix_append _ _
  · exact List.prefix_refl _

end

theorem runPseudo_owned_prefix {q : Pseudo} {bytes : List Byte} {e : Nat} {s t : State}
    (h : runPseudo q bytes e s = .next t) : s.owned <+: t.owned := by
  rcases runPseudo_next h with ⟨-, rfl⟩ | ⟨-, t', hexec, rfl⟩
  · simp
  · have hprefix := owned_prefix_collect q.instr.unit (e + 1) t'
    rwa [exec_owned hexec, prepare_owned, State.drawOne_owned] at hprefix

/-- No step changes a buffer that has been handed over. -/
theorem StepCase.owned_prefix {s t : State} (h : StepCase s t) : s.owned <+: t.owned := by
  have hsame (ht : t.owned = s.owned) : s.owned <+: t.owned := ht ▸ List.prefix_refl _
  cases h with
  | same ht => exact hsame (by rw [ht])
  | execd i ht => exact hsame (exec_owned ht)
  | issued i ht => exact hsame (issue_owned ht)
  | illegal u w _ ht => exact hsame (by simp [ht])
  | setSrcLen u v _ _ ht => exact hsame (by simp [ht])
  | setDstCap u v _ _ ht => exact hsame (by simp [ht])
  | replied r ht => exact hsame (by simp [ht])
  | wroteMem u sp i bs _ _ ht => exact hsame (by simp [ht])
  | encStepped ht =>
    obtain ⟨-, -, -, -, -, howned, -⟩ := encStep_local ht s.dec s.decData
    exact hsame howned
  | decStepped ht =>
    obtain ⟨-, -, -, -, -, howned, -⟩ := decStep_local ht s.enc s.encData
    exact hsame howned
  | pseudoed q bs e _ _ _ ht => exact runPseudo_owned_prefix ht
  | reset ht => exact hsame (by rw [ht]; rfl)

/-! ### How an instruction on a prepared unit ends -/

/-- `r` is `s` with the unit `u` prepared for an operation on `bytes` with the capacity `e + 1` (R220, R228). -/
structure Prepared (s : State) (u : UnitId) (bytes : List Byte) (e : Nat) (r : State) : Prop where
  cfg : r.cfg = s.cfg
  replies : r.replies = s.replies
  owned : r.owned = s.owned
  free : (r.unit u).busy = false
  srcLen : (r.unit u).srcLen = bytes.length
  dstCap : (r.unit u).dstCap = e + 1
  written : bytes.length ≤ s.cfg.srcSize → (r.unit u).src.readBytes 0 (r.unit u).srcLen = some bytes

/-- An instruction that has failed on a prepared unit is collected as its kind. -/
theorem Prepared.released {s r t : State} {u : UnitId} {i : Instr} {bytes : List Byte} {e : Nat} {k : ErrKind}
    (hp : Prepared s u bytes e r) (ht : exec i r = .next t) (h : FailedWith (t.unit u) k) :
    Released k s (collect u (e + 1) t) := by
  obtain ⟨-, hreplies, howned, -⟩ := exec_frame ht
  have hne : (t.unit u).err ≠ codeOk := h.err ▸ k.code_ne_codeOk
  constructor <;> simp only [collect, hne, if_false]
  · rw [State.reply_replies, h.err, hreplies, hp.replies]
  · rw [State.reply_owned, howned, hp.owned]

/-- One that has succeeded is collected as its text. -/
theorem Prepared.handedOver {s r t : State} {u : UnitId} {i : Instr} {bytes out : List Byte} {e : Nat}
    (hp : Prepared s u bytes e r) (ht : exec i r = .next t) (h : Succeeded (t.unit u) out.length)
    (hrep : Reports (t.unit u) (.ok out)) : HandedOver u (e + 1) out s (collect u (e + 1) t) := by
  obtain ⟨-, hreplies, howned, -⟩ := exec_frame ht
  obtain ⟨herr, hlen, hdst⟩ := hrep
  refine ⟨?_, ?_, by rwa [collect_unit], by rwa [collect_unit]⟩ <;> simp only [collect, herr, if_true, hlen]
  · rw [State.reply_replies, hreplies, hp.replies]
  · rw [hdst, howned, hp.owned]
    rfl

/-- A result put and finished is reported as success. -/
theorem succeeded_finish_putResult (r : State) (u : UnitId) (out : List Byte) :
    Succeeded (((r.putResult u out).finish u).unit u) out.length := by
  simpa using State.finish_succeeded (r.putResult u out) u

theorem encode_pseudoEnd {q : Pseudo} {a : Alphabet} (hq : q.instr.encodeAlphabet = some a) (hu : q.instr.unit = .enc)
    {s r : State} {bytes : List Byte} {e : Nat} (hp : Prepared s .enc bytes e r)
    (hsize : encodedLength s.cfg bytes.length = some e) :
    ∃ t, exec q.instr r = .next t ∧ PseudoEnd q bytes e s (collect q.instr.unit (e + 1) t) := by
  have hmode (m : Mode) : q.instr.decodeMode ≠ some m := by
    cases q <;> cases hq <;> simp [Pseudo.instr, Instr.decodeMode]
  have hsrcLen : r.enc.srcLen = bytes.length := hp.srcLen
  have hdstCap : r.enc.dstCap = e + 1 := hp.dstCap
  unfold PseudoEnd
  rw [hu]
  by_cases hbad : s.cfg.srcSize < bytes.length ∨ s.cfg.dstSize < e + 1
  · have hcheck : encCheck r.cfg (r.enc.accept r.cfg (encode q.instr)) = some .iarg := by
      rw [encCheck_accept, hsrcLen, hdstCap, hp.cfg, if_pos hbad]
    obtain ⟨t, ht, hfailed, -⟩ := encode_fails hu hp.free hcheck (.inl rfl)
    exact ⟨t, ht, fun _ => hp.released ht hfailed, fun hsrc hdst => by omega⟩
  · have hready : EncReady r bytes e :=
      ⟨hp.free, by rw [hp.cfg]; omega, by rw [hp.cfg]; omega, by rw [hp.cfg, hsrcLen, hsize], hdstCap.ge,
        hp.written (by omega)⟩
    have ht := exec_encode_of_ready hq hready
    refine ⟨_, ht, fun h => absurd h hbad, fun _ _ => ⟨fun a' ha' => ?_, fun m hm => absurd hm (hmode m)⟩⟩
    obtain rfl := Option.some.inj (hq.symm.trans ha')
    exact hp.handedOver ht (succeeded_finish_putResult _ .enc _) (reports_finish_putResult _ .enc _)

theorem decode_pseudoEnd {q : Pseudo} {m : Mode} (hq : q.instr.decodeMode = some m) (hu : q.instr.unit = .dec)
    {s r : State} {bytes : List Byte} {e : Nat} (hp : Prepared s .dec bytes e r)
    (hsize : decodedLength bytes.length = e) :
    ∃ t, exec q.instr r = .next t ∧ PseudoEnd q bytes e s (collect q.instr.unit (e + 1) t) := by
  have halpha (a : Alphabet) : q.instr.encodeAlphabet ≠ some a := by
    cases q <;> cases hq <;> simp [Pseudo.instr, Instr.encodeAlphabet]
  have hsrcLen : r.dec.srcLen = bytes.length := hp.srcLen
  have hdstCap : r.dec.dstCap = e + 1 := hp.dstCap
  unfold PseudoEnd
  rw [hu]
  by_cases hbad : s.cfg.srcSize < bytes.length ∨ s.cfg.dstSize < e + 1
  · have ht : exec q.instr r = .next ((r.accept .dec (encode q.instr)).raise .dec .iarg) := by
      rw [exec_dec hq]
      exact runDecode_of_badSizes hp.free (by rw [hsrcLen, hdstCap, hp.cfg]; exact hbad) m _
    exact ⟨_, ht, fun _ => hp.released ht (State.raise_failedWith _ .dec .iarg), fun hsrc hdst => by omega⟩
  · have hready : DecReady r bytes :=
      ⟨hp.free, by rw [hp.cfg]; omega, by rw [hp.cfg]; omega, by rw [hsrcLen, hdstCap, hsize], hp.written (by omega)⟩
    cases hres : decBytes s.cfg.urlPadKind m bytes with
    | ok out =>
      have ht := (exec_dec hq r).trans (runDecode_of_ok hready (hp.cfg ▸ hres) q.instr)
      refine ⟨_, ht, fun h => absurd h hbad, fun _ _ => ⟨fun a ha => absurd ha (halpha a), fun m' hm' => ?_⟩⟩
      obtain rfl := Option.some.inj (hq.symm.trans hm')
      rw [hres]
      refine ⟨fun out' hout => ?_, fun k hk => nomatch hk⟩
      obtain rfl := Except.ok.inj hout
      exact hp.handedOver ht (succeeded_finish_putResult _ .dec _) (reports_finish_putResult _ .dec _)
    | error k =>
      obtain ⟨t, hrun⟩ := runDecode_total hready.free hready.written m q.instr
      have ht := (exec_dec hq r).trans hrun
      obtain ⟨-, hend⟩ := runDecode_ends hrun
      refine ⟨t, ht, fun h => absurd h hbad, fun _ _ => ⟨fun a ha => absurd ha (halpha a), fun m' hm' => ?_⟩⟩
      obtain rfl := Option.some.inj (hq.symm.trans hm')
      rw [hres]
      refine ⟨fun out hout => (nomatch hout), fun k₁ hk₁ => ?_⟩
      obtain rfl := Except.error.inj hk₁
      rcases hend.failure with ⟨b, out, hready', hok, -⟩ | ⟨k', hfailed, hfailure⟩
      · obtain rfl := Option.some.inj (hready.written.symm.trans hready'.written)
        rw [hp.cfg, hres] at hok
        cases hok
      · rcases hfailure.mem_applicable hready.written with ⟨-, hsizes⟩ | hmem
        · rw [hsrcLen, hdstCap, hp.cfg] at hsizes
          exact absurd hsizes hbad
        · rw [hp.cfg, hdstCap] at hmem
          refine ⟨k', hp.released ht hfailed, hmem, fun hcap => ?_, fun hin =>
            hfailure.kind_eq (hp.cfg ▸ hin) hready (hp.cfg ▸ hres)⟩
          obtain ⟨-, -, hshort⟩ := applicable_kinds hmem
          have := hshort (.inr hcap)
          omega

/-- A pseudo-operation whose buffer has been allocated ends as `PseudoEnd` says. -/
theorem exec_pseudoEnd {q : Pseudo} {s r : State} {bytes : List Byte} {e : Nat}
    (hp : Prepared s q.instr.unit bytes e r) (hsize : q.size s.cfg bytes.length = some e) :
    ∃ t, exec q.instr r = .next t ∧ PseudoEnd q bytes e s (collect q.instr.unit (e + 1) t) := by
  cases q with
  | encStdA => exact encode_pseudoEnd (q := .encStdA) rfl rfl hp hsize
  | encUrlA => exact encode_pseudoEnd (q := .encUrlA) rfl rfl hp hsize
  | decStdA => exact decode_pseudoEnd (q := .decStdA) rfl rfl hp (Option.some.inj hsize)
  | decUrlA => exact decode_pseudoEnd (q := .decUrlA) rfl rfl hp (Option.some.inj hsize)
  | decMixA => exact decode_pseudoEnd (q := .decMixA) rfl rfl hp (Option.some.inj hsize)

/-! ### The move -/

/-- The host's preparation of a unit that is not busy. -/
theorem prepared_prepare {s : State} {u : UnitId} {bytes : List Byte} {e : Nat} {rest : List Move}
    (hfree : (s.unit u).busy = false) (hlen : bytes.length ≤ s.cfg.maxLen) :
    Prepared s u bytes e (prepare u bytes (e + 1) (State.drawOne { s with moves := rest } u)) where
  cfg := by simp
  replies := by simp
  owned := by simp
  free := by simpa using hfree
  srcLen := by simp
  dstCap := by simp
  written := fun hsrc => by
    have hpos := Nat.two_pow_pos s.cfg.lenW
    have hcells : bytes.length ≤ cells s.cfg .src := by
      simp only [cells, Params.maxLen] at hlen ⊢
      omega
    simp only [unit_prepare, State.drawOne_cfg, List.take_of_length_le hcells]
    exact Mem.readBytes_writeBytes _ _ _

/-- On a free unit the operation allocates and runs at once. -/
theorem step_of_free_pseudo {q : Pseudo} {bytes : List Byte} {s : State} {rest : List Move}
    (hmoves : s.moves = .pseudo q bytes :: rest) (hlen : bytes.length ≤ s.cfg.maxLen) {e : Nat}
    (hsize : q.size s.cfg bytes.length = some e) (hfree : (s.unit q.instr.unit).busy = false) :
    step s = runPseudo q bytes e { s with moves := rest } := by
  rw [step_of_moves hmoves]
  simp only [runMove, execPseudo, Nat.not_lt.2 hlen, if_false, hsize, State.unit_withMoves, hfree, Bool.false_eq_true]

/-- An operation whose buffer is allocated answers, and leaves the rest of the machine. -/
theorem runPseudo_allocated {q : Pseudo} {bytes : List Byte} {s : State} {rest : List Move} {e : Nat}
    (hlen : bytes.length ≤ s.cfg.maxLen) (hsize : q.size s.cfg bytes.length = some e)
    (hfree : (s.unit q.instr.unit).busy = false)
    (halloc : Config.freeAlloc q.instr.unit (s.unit q.instr.unit).draw = true) :
    ∃ t, runPseudo q bytes e { s with moves := rest } = .next t ∧ t.moves = rest ∧
      (∀ v, v ≠ q.instr.unit → t.unit v = s.unit v) ∧ PseudoEnd q bytes e s t := by
  have hp := prepared_prepare (e := e) (rest := rest) hfree hlen
  obtain ⟨t, ht, hend⟩ := exec_pseudoEnd hp hsize
  obtain ⟨hmoves, -, -, hother⟩ := exec_frame ht
  refine ⟨_, ?_, ?_, fun v hv => ?_, hend⟩
  · simp only [runPseudo, State.unit_withMoves, halloc, if_true, ht]
  · rw [collect_moves, hmoves]
    simp
  · rw [collect_unit, hother v hv, prepare, State.unit_setUnit_of_ne hv, State.drawOne, State.unit_setUnit_of_ne hv,
      State.unit_withMoves]

/-- One whose buffer is not allocated has drawn a free value and answers NOMEM. -/
theorem runPseudo_not_allocated {q : Pseudo} {bytes : List Byte} {s : State} {rest : List Move} {e : Nat}
    (halloc : Config.freeAlloc q.instr.unit (s.unit q.instr.unit).draw ≠ true) :
    runPseudo q bytes e { s with moves := rest } = .next { (s.drawOne q.instr.unit) with
      moves := rest, replies := s.replies ++ [.failure ErrKind.nomem.code] } := by
  simp only [runPseudo, State.unit_withMoves, halloc]
  cases q.instr.unit <;> rfl

/-- Settles O57: the size decides first, then BUSY, then the allocation, then the instruction. -/
theorem pseudoOperationsAnswer : Obligations.PseudoOperationsAnswer := by
  unfold Obligations.PseudoOperationsAnswer
  constructor
  · intro q bytes s rest hmoves hlen u
    refine ⟨fun hnone => ?_, fun e hsize => ⟨step_of_waiting_pseudo hmoves hlen hsize, fun hfree => ?_⟩⟩
    · rw [step_of_moves hmoves]
      simp only [runMove, execPseudo, Nat.not_lt.2 hlen, if_false, hnone]
      rfl
    · rw [step_of_free_pseudo hmoves hlen hsize hfree]
      by_cases halloc : Config.freeAlloc u (s.unit u).draw = true
      · obtain ⟨t, ht, hrest, hother, hend⟩ := runPseudo_allocated (rest := rest) hlen hsize hfree halloc
        exact ⟨t, ht, hrest, hother, by rwa [if_pos halloc]⟩
      · exact ⟨_, runPseudo_not_allocated halloc, rfl, fun v hv => State.unit_setUnit_of_ne hv s _,
          by rw [if_neg halloc]⟩
  · intro s t ht
    obtain ⟨ms, hcase⟩ := step_cases ht
    exact hcase.owned_prefix

end Sys2Proof.Machine
end
